-- ==== Sys2Proof/Word.lean ====
section
/-! DEFINITION. The fixed widths of the block (spec/00_scope.md R15): every register, every data-memory word and
every command word is 64 bits wide; a byte is the unit in which R62 lays a word out. -/

namespace Sys2Proof

/-- A register, a data-memory word or a command word (R15). -/
abbrev Word := BitVec 64

/-- A byte of the layout of R62. -/
abbrev Byte := BitVec 8

end Sys2Proof
end

