-- ==== Sys2Proof/Syntax.lean ====
section
/-! DEFINITION. The eight commands (spec/30_encoding.md R83), the named registers (spec/10_state.md R20) and the
host's port transactions (R81, R88). -/

namespace Sys2Proof

/-- The commands of R83, one constructor per row of the opcode table. A command has no operand field (R80): it takes
every operand from the fixed registers of R85. -/
inductive Instr where
  | bqDesignLp
  | bqDesignHp
  | bqApply
  | firDecimate
  | genRange
  | detect
  | spectrum
  | normalize
deriving DecidableEq, Repr

/-- The named registers of R20. The reserved numbers (R40) have no name. -/
inductive Reg where
  | cmd | status | errinfo
  | src | slen | dst | dlen
  | scale | offset | frameN | detFs | ignoreHz | minPeak
  | bqFs | bqFc | b0 | b1 | b2 | a1 | a2
  | genMin | genMax | genPrec
  | nrmSrcmax | nrmDstmax
deriving DecidableEq, Repr

/-- One transaction of the host on the register port, the memory port or the reset input (R81 a, b, d). A register
number has five bits, so no number above 0x1F can be expressed (R40); a memory address is a word address (R61). -/
inductive HostOp where
  /-- `RegRead(n)` -/
  | regRead (n : BitVec 5)
  /-- `RegWrite(n, v)` -/
  | regWrite (n : BitVec 5) (v : Word)
  /-- `MemRead(a, 8)` -/
  | memRead (a : Nat)
  /-- `MemWrite(a, 8, v)` -/
  | memWrite (a : Nat) (v : Word)
  /-- the reset input `rst` (R220) -/
  | rst
deriving DecidableEq, Repr

end Sys2Proof
end

