-- ==== Sys2Proof/WellFormed.lean ====
section
/-! DEFINITION. Which command words are legal (spec/30_encoding.md R80, R82, R84) and which host transactions the ports
accept (spec/20_memory.md R64). -/

namespace Sys2Proof

/-- A command has no field, so every `Instr` is well formed (R80). -/
def Instr.wf (_ : Instr) : Bool := true

/-- The reserved field `rsvd`, bits 63:8, is zero (R80). -/
def rsvdZero (w : Word) : Bool := w.toNat / 2 ^ 8 == 0

/-- The opcode, bits 7:0, is one of 0x01 to 0x08 (R82, R84). -/
def opcodeLegal (w : Word) : Bool := 1 ≤ w.toNat % 2 ^ 8 && w.toNat % 2 ^ 8 ≤ 8

/-- A legal command word (R82): the two checks above. -/
def commandWordWf (w : Word) : Bool := rsvdZero w && opcodeLegal w

/-- A host access the memory port accepts with `words` words of data memory (R64); the register port accepts every
five-bit number (R40). -/
def HostOp.wf (words : Nat) : HostOp → Bool
  | .memRead a => a < words
  | .memWrite a _ => a < words
  | .regRead _ => true
  | .regWrite _ _ => true
  | .rst => true

end Sys2Proof
end

