-- ==== Sys2Proof/Decode.lean ====
section
/-! DEFINITION. Decoding and encoding of the command word (spec/30_encoding.md R80, R82, R83, R84). -/

namespace Sys2Proof

/-- Bits 7:0 of a command word (R80). -/
def opcodeField (w : Word) : Nat := w.toNat % 2 ^ 8

/-- Bits 63:8 of a command word (R80). -/
def rsvdField (w : Word) : Nat := w.toNat / 2 ^ 8

/-- The opcode map of R83; 0x00 and 0x09 to 0xFF select nothing (R84). -/
def instrOfOpcode : Nat → Option Instr
  | 1 => some .bqDesignLp
  | 2 => some .bqDesignHp
  | 3 => some .bqApply
  | 4 => some .firDecimate
  | 5 => some .genRange
  | 6 => some .detect
  | 7 => some .spectrum
  | 8 => some .normalize
  | _ => none

/-- The decoder of R82, total on all words: `none` is a word that spells no command. -/
def decode (w : Word) : Option Instr :=
  if rsvdField w = 0 then instrOfOpcode (opcodeField w) else none

/-- The opcode of R83. -/
def Instr.opcode : Instr → Nat
  | .bqDesignLp => 0x01
  | .bqDesignHp => 0x02
  | .bqApply => 0x03
  | .firDecimate => 0x04
  | .genRange => 0x05
  | .detect => 0x06
  | .spectrum => 0x07
  | .normalize => 0x08

/-- The command word of a command: the opcode with a zero `rsvd` field (R80, R83). -/
def encode (i : Instr) : Word := BitVec.ofNat 64 i.opcode

/-- The instruction the decoder reads from the opcode table's bits `w`: one command word, bit 0 its least significant
bit, every bit from `nbits` on being 0. A command is the datum of a 64-bit register write, so there is no byte order
to lay out (R80, R22). -/
def decodeTableWord (nbits w : Nat) : Option Instr :=
  if w % 2 ^ nbits < 2 ^ 64 then decode (BitVec.ofNat 64 (w % 2 ^ nbits)) else none

end Sys2Proof
end

