-- ==== Sys2Proof/Config.lean ====
section
/-! DEFINITION. What an implementation fixes and what the spec leaves free: the parameters a model takes as arguments
(spec/00_scope.md R8 to R14) as plain data, and the NaN an operation produces (R17) as a free value. -/

namespace Sys2Proof.Config

/-- The operations of R17 that can produce a NaN. -/
inductive FloatOp where
  | add | sub | mul | div | sqrt
deriving DecidableEq, Repr

/-- One NaN encoding: a sign and a fraction field `payload + 1`, so that every pair is a NaN and every NaN is one pair
(R16: exponent field 0x7FF with fraction non-zero). -/
structure NanChoice where
  sign : Bool
  payload : Fin 4503599627370495
deriving DecidableEq, Repr, Inhabited

/-- FREE VALUE (R17, spec/93_implementation_defined.md U1; log 2): which NaN an operation produces on its operands. It
has no body: nothing can be proved of it. A square root passes its operand twice. -/
opaque freeNan : FloatOp → Word → Word → NanChoice

/-- One answer of the external transform: on `frame` it answers `re` and `im` (R9), entries not listed being +0.0. -/
structure XfEntry where
  frame : List Word
  re : List Word
  im : List Word
deriving DecidableEq, Repr

/-- The parameters of one build of the block (R8 to R14), as plain data. `TAN` and `XF` are total functions on finite
sets, so each is a finite table of the operands whose answer is not zero (log 1). -/
structure Build where
  /-- `MEM_WORDS` (R8) -/
  memWords : Nat
  /-- `FRAME_MAX` (R10) -/
  frameMax : Nat
  /-- the frame lengths for which `XF_SUPPORTS` holds (R9) -/
  xfSizes : List Nat
  /-- the table of `XF` (R9) -/
  xfTable : List XfEntry
  /-- the table of `TAN` (R12): operand and answer -/
  tanTable : List (Word × Word)
  /-- `FIR_TABLE(2)` (R11); its length is `TAPS(2)` -/
  fir2 : List Word
  /-- `FIR_TABLE(3)` (R11) -/
  fir3 : List Word
  /-- `FIR_TABLE(4)` (R11) -/
  fir4 : List Word
  /-- `FIR_TABLE(8)` (R11) -/
  fir8 : List Word
  /-- `MIN_PEAK_RESET` (R14) -/
  minPeakReset : Word
  /-- `GEAR_DIV` (R13) -/
  gearDiv : Word
deriving DecidableEq, Repr

end Sys2Proof.Config
end

