-- ==== Sys2Proof/Machine/F64.lean ====
section
/-! DEFINITION. IEEE 754 binary64 and the arithmetic primitives of spec/00_scope.md R16 to R19. A finite F64 is an integer
number of units of 2^-1074, so every primitive is computed exactly on integers and rounded once at the end. -/

namespace Sys2Proof.Machine
open Sys2Proof.Config

/-! ## The format (R16) -/

/-- The sign, bit 63. -/
def signBit (w : Word) : Bool := 2 ^ 63 ≤ w.toNat

/-- The biased exponent, bits 62:52. -/
def expField (w : Word) : Nat := w.toNat / 2 ^ 52 % 2 ^ 11

/-- The fraction, bits 51:0. -/
def fracField (w : Word) : Nat := w.toNat % 2 ^ 52

/-- `finite(w)` of R16. -/
def isFinite (w : Word) : Bool := expField w != 0x7FF

/-- An infinity (R16). -/
def isInf (w : Word) : Bool := expField w == 0x7FF && fracField w == 0

/-- A NaN (R16). -/
def isNan (w : Word) : Bool := expField w == 0x7FF && fracField w != 0

/-- How many units of 2^-1074 make 1. -/
def one1074 : Nat := 2 ^ 1074

/-- The magnitude of a finite F64 in units of 2^-1074 (R16); of an infinity, the power of two above every finite one,
which puts it in its place in the order. -/
def magUnits (w : Word) : Nat :=
  if expField w = 0 then fracField w else (2 ^ 52 + fracField w) * 2 ^ (expField w - 1)

/-- The value of a finite F64 in units of 2^-1074. -/
def scaled (w : Word) : Int := if signBit w then -(magUnits w : Int) else magUnits w

/-- The word with the given sign and the given bits 62:0. -/
def packF64 (neg : Bool) (bits : Nat) : Word := BitVec.ofNat 64 (if neg then 2 ^ 63 + bits else bits)

/-- Bits 62:0 of an infinity. -/
def infBits : Nat := 0x7FF * 2 ^ 52

/-- The NaN an operation produces: a free value (R17, log 2). -/
def nanResult (op : FloatOp) (a b : Word) : Word :=
  packF64 (freeNan op a b).sign (infBits + ((freeNan op a b).payload.val + 1))

/-! ## Rounding (R17: round to nearest, ties to even, overflow to an infinity) -/

/-- `f` or `f + 1`: the nearest to `f + r / step`, a tie going to the even one. -/
def tieEven (f r step : Nat) : Nat := if step < 2 * r ∨ (2 * r = step ∧ f % 2 = 1) then f + 1 else f

/-- Bits 62:0 of the F64 nearest the exact magnitude `num / den` in units of 2^-1074. The unit in the last place is
`2^k` units; with `f` significand steps of it, `k * 2^52 + f` is the exponent and fraction field of `f * 2^k`. -/
def roundMag (num den : Nat) : Nat :=
  let k := (num / den).log2 - 52
  let step := den * 2 ^ k
  min infBits (k * 2 ^ 52 + tieEven (num / step) (num % step) step)

/-- The greatest `r` with `root <= r < root + 2^b` and `r * r <= n`, bit by bit. -/
def isqrtBits : Nat → Nat → Nat → Nat
  | 0, _, root => root
  | b + 1, n, root => isqrtBits b n (if (root + 2 ^ b) * (root + 2 ^ b) ≤ n then root + 2 ^ b else root)

/-- Bits 62:0 of the F64 nearest the square root of a magnitude of `m > 0` units. In units the root is the square root
of `n = m * 2^1074`; `f` counts steps of `2^k` and `4 * n` is compared with the square of twice the half-way point. -/
def sqrtMag (m : Nat) : Nat :=
  let n := m * one1074
  let k := n.log2 / 2 - 52
  let f := isqrtBits 53 (n / 4 ^ k) 0
  let mid := (2 * f + 1) * 2 ^ k
  k * 2 ^ 52 + (if mid * mid < 4 * n ∨ (mid * mid = 4 * n ∧ f % 2 = 1) then f + 1 else f)

/-! ## The arithmetic primitives of R17 -/

/-- `fneg`: the sign bit flipped. -/
def fneg (a : Word) : Word := a ^^^ 0x8000000000000000#64

/-- The sum of two operands that are not NaN and not infinities of opposite sign. An exact zero sum is -0.0 only when
both operands are negative. -/
def addNumbers (a b : Word) : Word :=
  if isInf a then a
  else if isInf b then b
  else
    let sum := scaled a + scaled b
    packF64 (if sum = 0 then signBit a && signBit b else sum < 0) (roundMag sum.natAbs 1)

/-- `fadd`. Infinities of opposite sign are an invalid operation. -/
def fadd (a b : Word) : Word :=
  if isNan a || isNan b || (isInf a && isInf b && signBit a != signBit b) then nanResult .add a b
  else addNumbers a b

/-- `fsub`. Infinities of one sign are an invalid operation. -/
def fsub (a b : Word) : Word :=
  if isNan a || isNan b || (isInf a && isInf b && signBit a == signBit b) then nanResult .sub a b
  else addNumbers a (fneg b)

/-- `fmul`. An infinity times a zero is an invalid operation. -/
def fmul (a b : Word) : Word :=
  if isNan a || isNan b || (isInf a && magUnits b == 0) || (magUnits a == 0 && isInf b) then nanResult .mul a b
  else
    packF64 (signBit a != signBit b)
      (if isInf a || isInf b then infBits else roundMag (magUnits a * magUnits b) one1074)

/-- `fdiv`. Zero by zero and infinity by infinity are invalid; a non-zero number by zero is an infinity. -/
def fdiv (a b : Word) : Word :=
  if isNan a || isNan b || (isInf a && isInf b) || (magUnits a == 0 && magUnits b == 0) then nanResult .div a b
  else
    packF64 (signBit a != signBit b)
      (if isInf a || magUnits b == 0 then infBits
       else if isInf b then 0
       else roundMag (magUnits a * one1074) (magUnits b))

/-- `fsqrt`. The root of a zero is that zero; of any other negative number it is invalid. -/
def fsqrt (a : Word) : Word :=
  if isNan a then nanResult .sqrt a a
  else if magUnits a = 0 then a
  else if signBit a then nanResult .sqrt a a
  else if isInf a then a
  else packF64 false (sqrtMag (magUnits a))

/-! ## Rounding to an integer (R18, R19) -/

/-- The integer `n` with `n - 1/2 <= a < n + 1/2`, for a finite `a` (R18). -/
def nearestInt (a : Word) : Int := (2 * scaled a + one1074) / (2 * one1074)

/-- The least integer not less than a finite `a` (R19). -/
def ceilInt (a : Word) : Int := -(-(scaled a) / (one1074 : Int))

/-- An integer as an F64, with the sign bit of the number it was rounded from (which it never crosses). -/
def integralF64 (neg : Bool) (n : Int) : Word := packF64 neg (roundMag (n.natAbs * one1074) 1)

/-- `round_int` (R18): nearest integer, ties toward plus infinity. -/
def roundInt (a : Word) : Word := if isFinite a then integralF64 (signBit a) (nearestInt a) else a

/-- `fceil` (R19). The zero it gives for -0.0 keeps the sign (log 8). -/
def fceil (a : Word) : Word := if isFinite a then integralF64 (signBit a) (ceilInt a) else a

/-! ## Comparisons and conversions (R19) -/

/-- `flt`. -/
def flt (a b : Word) : Bool := !isNan a && !isNan b && scaled a < scaled b

/-- `fle`. -/
def fle (a b : Word) : Bool := !isNan a && !isNan b && scaled a ≤ scaled b

/-- `fgt`. -/
def fgt (a b : Word) : Bool := flt b a

/-- `fge`. -/
def fge (a b : Word) : Bool := fle b a

/-- `feq`. -/
def feq (a b : Word) : Bool := !isNan a && !isNan b && scaled a == scaled b

/-- `u2f`: exact for `n < 2^53`, the domain R19 gives it (log 9). -/
def u2f (n : Nat) : Word := packF64 false (roundMag (n * one1074) 1)

/-- `f2u`: the natural number of a finite integral F64 in `[0, 2^64)`, the domain R19 gives it (log 9). -/
def f2u (a : Word) : Nat := magUnits a / one1074

/-! ## The constants of R13 and R19 -/

/-- `ZERO` = +0.0 -/
def fzero : Word := 0x0000000000000000#64
/-- `ONE` = 1.0 -/
def fone : Word := 0x3FF0000000000000#64
/-- `TWO` = 2.0 -/
def ftwo : Word := 0x4000000000000000#64
/-- `PI` -/
def fpi : Word := 0x400921FB54442D18#64
/-- `SQRT2` -/
def fsqrt2 : Word := 0x3FF6A09E667F3BCD#64
/-- `SEC_PER_MIN` = 60.0 (R13) -/
def secPerMin : Word := 0x404E000000000000#64

end Sys2Proof.Machine
end

