-- ==== Sys2Proof/Machine/Parameters.lean ====
section
/-! DEFINITION. The parameters of the build as the functions the rules use (spec/00_scope.md R8 to R14), the constraints
the spec puts on them, and the build of the machine itself. -/

namespace Sys2Proof.Machine
open Sys2Proof.Config

/-- The answer of a finite table, if it lists the operand. -/
def lookupWord : List (Word × Word) → Word → Option Word
  | [], _ => none
  | (x, y) :: rest, a => if x = a then some y else lookupWord rest a

/-- `TAN` (R12): a function of its operand alone. -/
def tan (b : Build) (x : Word) : Word := (lookupWord b.tanTable x).getD fzero

/-- The entry of the transform's table for a frame, if it is listed. -/
def lookupFrame : List XfEntry → List Word → Option XfEntry
  | [], _ => none
  | e :: rest, frame => if e.frame = frame then some e else lookupFrame rest frame

/-- An array of exactly `n` F64, entries not listed being +0.0. -/
def array (n : Nat) (xs : List Word) : List Word := (xs ++ List.replicate n fzero).take n

/-- The real part of `XF(N, frame)` with `N` the frame's length (R9): `N` values, a function of the frame alone. -/
def xfRe (b : Build) (frame : List Word) : List Word :=
  array frame.length ((lookupFrame b.xfTable frame).elim [] XfEntry.re)

/-- The imaginary part of `XF(N, frame)` (R9). -/
def xfIm (b : Build) (frame : List Word) : List Word :=
  array frame.length ((lookupFrame b.xfTable frame).elim [] XfEntry.im)

/-- `XF_SUPPORTS(N)` (R9). -/
def xfSupports (b : Build) (n : Nat) : Bool := b.xfSizes.contains n

/-- `FIR_TABLE(s)` (R11, R120) for `s` in 2, 3, 4, 8; there is no table for any other scale. `TAPS(s)` is its length. -/
def firTable (b : Build) (s : Nat) : List Word :=
  if s = 2 then b.fir2 else if s = 3 then b.fir3 else if s = 4 then b.fir4 else if s = 8 then b.fir8 else []

/-- The constraint of R11 on a coefficient table: at least one tap, every coefficient finite. -/
def firTableOk (t : List Word) : Bool := !t.isEmpty && t.all isFinite

/-- Every constraint the spec puts on the parameters: R8, R10, R11, R13, R14. -/
def buildOk (b : Build) : Bool :=
  1 ≤ b.memWords && b.memWords ≤ 2 ^ 32 && 1 ≤ b.frameMax
    && firTableOk b.fir2 && firTableOk b.fir3 && firTableOk b.fir4 && firTableOk b.fir8
    && isFinite b.minPeakReset && b.gearDiv == 0x4020000000000000#64

/-- A build that meets the spec's constraints. The default only shows that there is one. -/
structure LegalBuild where
  build : Build :=
    { memWords := 1, frameMax := 1, xfSizes := [], xfTable := [], tanTable := [],
      fir2 := [0#64], fir3 := [0#64], fir4 := [0#64], fir8 := [0#64],
      minPeakReset := 0#64, gearDiv := 0x4020000000000000#64 }
  ok : buildOk build = true := by decide +kernel
deriving Inhabited

/-- PARAMETER (log 1): the build of the machine. It has no body: nothing but `buildOk` can be proved of it. -/
opaque theBuild : LegalBuild

end Sys2Proof.Machine
end

