-- ==== Sys2Proof/Machine/State.lean ====
section
/-! DEFINITION. The machine's state as plain data (spec/10_state.md R20 to R47, spec/20_memory.md R60), the reasons a step
can stop, and the state after reset (R47, R221). -/

namespace Sys2Proof.Machine
open Sys2Proof.Config

/-- The fields of `STATUS` (R23). The reserved bits read 0 and store nothing, so they are no fields. -/
structure Status where
  /-- bit 0 -/
  done : Bool
  /-- bit 1 -/
  err : Bool
  /-- bit 2 -/
  incomplete : Bool
  /-- bits 11:8 -/
  errCode : BitVec 4
  /-- bits 23:16 -/
  errReg : BitVec 8
deriving DecidableEq, Repr

/-- The operand registers: host read/write, written by no command (R20, R42). -/
structure OperandRegs where
  src : Word
  slen : Word
  dst : Word
  scale : Word
  offset : Word
  frameN : Word
  detFs : Word
  ignoreHz : Word
  minPeak : Word
  bqFs : Word
  bqFc : Word
  genMin : Word
  genMax : Word
  genPrec : Word
  nrmSrcmax : Word
  nrmDstmax : Word
deriving DecidableEq, Repr

/-- The biquad's coefficient tuple, registers 0x12 to 0x16 (R37). -/
structure Coeffs where
  b0 : Word
  b1 : Word
  b2 : Word
  a1 : Word
  a2 : Word
deriving DecidableEq, Repr

/-- The hidden state of R44 and R45, which no host transaction can read. A frame buffer lists the entries written so
far, from entry 0 on: every command writes a buffer from entry 0 before it reads it. -/
structure Hidden where
  /-- `U1` (R45) -/
  u1 : Word
  /-- `U2` (R45) -/
  u2 : Word
  /-- `FRAME` (R44) -/
  frame : List Word
  /-- `RE` (R44) -/
  re : List Word
  /-- `IM` (R44) -/
  im : List Word
  /-- `MAG` (R44) -/
  mag : List Word
deriving DecidableEq, Repr

/-- The data memory: byte cells at strictly rising byte addresses, word `a` at byte addresses `8 * a` to `8 * a + 7`
(R60, R62). An address that is not listed holds no value (R70). -/
abbrev Memory := List Host.Cell

/-- The canonical form of memory: addresses strictly rising. A listed byte always has a value and an unlisted one has
none, so no entry equals what an unlisted address reads as. -/
def Memory.wf : Memory → Bool
  | [] => true
  | (_, _) :: [] => true
  | (a, _) :: (b, v) :: rest => decide (a < b) && Memory.wf ((b, v) :: rest)

/-- The machine. -/
structure State where
  /-- `STATUS` (R23) -/
  status : Status
  /-- `ERRINFO` (R24) -/
  errinfo : Word
  /-- `DLEN` (R28) -/
  dlen : Word
  /-- the operand registers -/
  ops : OperandRegs
  /-- `B0 B1 B2 A1 A2` (R37) -/
  coeffs : Coeffs
  /-- `U1`, `U2` and the frame buffers (R44, R45) -/
  hidden : Hidden
  /-- `DMEM` (R60) -/
  mem : Memory
  /-- the MODEL's own: the parameters of the build (R8 to R14), which no step changes (log 1) -/
  cfg : Build
  /-- the MODEL's own: the host's transactions not yet performed, first one first (log 3) -/
  inbox : List HostOp
  /-- the MODEL's own: the datum the last read transaction answered (log 4) -/
  readData : Option Word
deriving DecidableEq, Repr

/-- Why the machine stops with a fault. -/
inductive Fault where
  /-- Raised by a host memory access at an address of `MEM_WORDS` or more: the port answers with an error response and
  nothing changes (R64, R208, U12). Safe: the spec gives the model no step either (log 6). -/
  | portError (address : Nat)
deriving DecidableEq, Repr

/-- Why a step has no meaning. -/
inductive Refusal where
  /-- Raised by the dispatcher for a command that has no meaning yet. Safe. No command is left in this case. -/
  | notModelled (mnemonic : String)
  /-- Raised by a read, of the host or of a command, of a word of memory that nothing has written since power-up
  (R70, U2). Safe: the spec refuses it (log 5). -/
  | unwrittenWord (address : Nat)
deriving DecidableEq, Repr

/-- The outcome of a step of this machine. -/
abbrev Result := Host.Outcome State Fault Refusal

/-- `STATUS` after reset: 0 (R47). -/
def Status.clear : Status :=
  { done := false, err := false, incomplete := false, errCode := 0#4, errReg := 0#8 }

/-- The operand registers after reset (R20's last column, R47). -/
def OperandRegs.afterReset (b : Build) : OperandRegs :=
  { src := 0#64, slen := 0#64, dst := 0#64, scale := 0#64, offset := 0#64
    frameN := 1024#64, detFs := 0#64
    ignoreHz := 0x407F400000000000#64, minPeak := b.minPeakReset
    bqFs := 0#64, bqFc := 0#64
    genMin := 0#64, genMax := 0#64, genPrec := 0#64
    nrmSrcmax := 0#64, nrmDstmax := 0#64 }

/-- The coefficient registers after reset: +0.0 (R47). -/
def Coeffs.zero : Coeffs := { b0 := 0#64, b1 := 0#64, b2 := 0#64, a1 := 0#64, a2 := 0#64 }

/-- The hidden state before any command: the spec gives none (R47); nothing written (log 7). -/
def Hidden.empty : Hidden := { u1 := 0#64, u2 := 0#64, frame := [], re := [], im := [], mag := [] }

/-- A machine of build `b` after power-up and reset, with no transaction pending (R47, R70, R221). -/
def State.ofBuild (b : Build) : State :=
  { status := Status.clear, errinfo := 0#64, dlen := 0#64
    ops := OperandRegs.afterReset b, coeffs := Coeffs.zero, hidden := Hidden.empty
    mem := [], cfg := b, inbox := [], readData := none }

/-- The machine right after power-up and reset (R47, R220, R221). -/
def State.reset : State := State.ofBuild theBuild.build

end Sys2Proof.Machine
end

