-- ==== Sys2Proof/Machine/Flags.lean ====
section
/-! DEFINITION. The flags: the `STATUS` word, what sets and clears its fields, and the error codes (spec/10_state.md R23,
R41; spec/60_exceptions.md R191, R196, R201). There are no arithmetic flags (R41). -/

namespace Sys2Proof.Machine

/-- The seven command errors (R191). -/
inductive ErrorCode where
  | invalidFilterParameters
  | unsupportedScale
  | insufficientSamples
  | malformedSample
  | invalidParameter
  | badAddress
  | illegalCommand
deriving DecidableEq, Repr

/-- `STATUS.ERRCODE` of an error (R191). -/
def errorCodeBits : ErrorCode → BitVec 4
  | .invalidFilterParameters => 1#4
  | .unsupportedScale => 2#4
  | .insufficientSamples => 3#4
  | .malformedSample => 4#4
  | .invalidParameter => 5#4
  | .badAddress => 6#4
  | .illegalCommand => 7#4

/-- One bit of a word. -/
def flagBit (b : Bool) : BitVec 1 := BitVec.ofBool b

/-- The word a read of `STATUS` returns (R23): ERRREG in 23:16, ERRCODE in 11:8, INCOMPLETE, ERR and DONE in 2, 1 and
0, every other bit 0. -/
def statusWord (f : Status) : Word :=
  0#40 ++ f.errReg ++ 0#4 ++ f.errCode ++ 0#5 ++ flagBit f.incomplete ++ flagBit f.err ++ flagBit f.done

/-- An accepted command first clears DONE and INCOMPLETE (R41, R86). -/
def beginFlags (f : Status) : Status := { f with done := false, incomplete := false }

/-- Success sets DONE (R41, R86). -/
def successFlags (f : Status) : Status := { f with done := true }

/-- The flags a `raise` leaves (R196): INCOMPLETE when results were kept. -/
def errorFlags (e : ErrorCode) (errReg : BitVec 8) (kept : Word) : Status :=
  { done := false, err := true, incomplete := kept != 0#64, errCode := errorCodeBits e, errReg := errReg }

/-- The host writes 1 to `STATUS.DONE` (R23, R201). -/
def clearDone (f : Status) : Status := { f with done := false }

/-- The host writes 1 to `STATUS.ERR`: INCOMPLETE, ERRCODE and ERRREG go with it (R23, R201). -/
def clearError (f : Status) : Status :=
  { f with err := false, incomplete := false, errCode := 0#4, errReg := 0#8 }

end Sys2Proof.Machine
end

