-- ==== Sys2Proof/Machine/Operands.lean ====
section
/-! DEFINITION. The register file as the register port and the commands see it: the map of spec/10_state.md R20, reads,
writes, and the operands of a command (spec/30_encoding.md R85). -/

namespace Sys2Proof.Machine

/-- The register number of R20. -/
def regNumber : Reg → BitVec 5
  | .cmd => 0x00#5
  | .status => 0x01#5
  | .errinfo => 0x02#5
  | .src => 0x03#5
  | .slen => 0x04#5
  | .dst => 0x05#5
  | .dlen => 0x06#5
  | .scale => 0x07#5
  | .offset => 0x08#5
  | .frameN => 0x09#5
  | .detFs => 0x0A#5
  | .ignoreHz => 0x0B#5
  | .minPeak => 0x0C#5
  | .bqFs => 0x10#5
  | .bqFc => 0x11#5
  | .b0 => 0x12#5
  | .b1 => 0x13#5
  | .b2 => 0x14#5
  | .a1 => 0x15#5
  | .a2 => 0x16#5
  | .genMin => 0x18#5
  | .genMax => 0x19#5
  | .genPrec => 0x1A#5
  | .nrmSrcmax => 0x1C#5
  | .nrmDstmax => 0x1D#5

/-- The register a number names (R20); `none` for a reserved number (R40). -/
def regOfNumber (n : BitVec 5) : Option Reg :=
  match n.toNat with
  | 0x00 => some .cmd
  | 0x01 => some .status
  | 0x02 => some .errinfo
  | 0x03 => some .src
  | 0x04 => some .slen
  | 0x05 => some .dst
  | 0x06 => some .dlen
  | 0x07 => some .scale
  | 0x08 => some .offset
  | 0x09 => some .frameN
  | 0x0A => some .detFs
  | 0x0B => some .ignoreHz
  | 0x0C => some .minPeak
  | 0x10 => some .bqFs
  | 0x11 => some .bqFc
  | 0x12 => some .b0
  | 0x13 => some .b1
  | 0x14 => some .b2
  | 0x15 => some .a1
  | 0x16 => some .a2
  | 0x18 => some .genMin
  | 0x19 => some .genMax
  | 0x1A => some .genPrec
  | 0x1C => some .nrmSrcmax
  | 0x1D => some .nrmDstmax
  | _ => none

/-- `reg[r]`: what a read of a named register returns. `CMD` stores nothing and reads 0 (R22). -/
def regGet (s : State) : Reg → Word
  | .cmd => 0#64
  | .status => statusWord s.status
  | .errinfo => s.errinfo
  | .src => s.ops.src
  | .slen => s.ops.slen
  | .dst => s.ops.dst
  | .dlen => s.dlen
  | .scale => s.ops.scale
  | .offset => s.ops.offset
  | .frameN => s.ops.frameN
  | .detFs => s.ops.detFs
  | .ignoreHz => s.ops.ignoreHz
  | .minPeak => s.ops.minPeak
  | .bqFs => s.ops.bqFs
  | .bqFc => s.ops.bqFc
  | .b0 => s.coeffs.b0
  | .b1 => s.coeffs.b1
  | .b2 => s.coeffs.b2
  | .a1 => s.coeffs.a1
  | .a2 => s.coeffs.a2
  | .genMin => s.ops.genMin
  | .genMax => s.ops.genMax
  | .genPrec => s.ops.genPrec
  | .nrmSrcmax => s.ops.nrmSrcmax
  | .nrmDstmax => s.ops.nrmDstmax

/-- `RegRead(n)`: a reserved number reads 0 (R40). -/
def regRead (s : State) (n : BitVec 5) : Word :=
  match regOfNumber n with
  | some r => regGet s r
  | none => 0#64

/-- The write of 1 to `STATUS.DONE` (R201). -/
def writeStatusDone (v : Word) (s : State) : State :=
  if v.getLsbD 0 then { s with status := clearDone s.status } else s

/-- The write of 1 to `STATUS.ERR`, the block's only "return" from an error: ERR and what goes with it, and `ERRINFO`
(R201). -/
def writeStatusErr (v : Word) (s : State) : State :=
  if v.getLsbD 1 then { s with status := clearError s.status, errinfo := 0#64 } else s

/-- `RegWrite(STATUS, v)`: write 1 to clear, all other bits ignored (R23, R201). -/
def writeStatus (v : Word) (s : State) : State := writeStatusErr v (writeStatusDone v s)

/-- A host write of `v` to a named register other than `CMD`. `ERRINFO` and `DLEN` are read only and ignore it (R24,
R28); a read/write register stores all 64 bits (R20). A write of `CMD` issues a command and stores nothing (R22), so
that is not here. -/
def regPut (r : Reg) (v : Word) (s : State) : State :=
  match r with
  | .cmd => s
  | .status => writeStatus v s
  | .errinfo => s
  | .src => { s with ops := { s.ops with src := v } }
  | .slen => { s with ops := { s.ops with slen := v } }
  | .dst => { s with ops := { s.ops with dst := v } }
  | .dlen => s
  | .scale => { s with ops := { s.ops with scale := v } }
  | .offset => { s with ops := { s.ops with offset := v } }
  | .frameN => { s with ops := { s.ops with frameN := v } }
  | .detFs => { s with ops := { s.ops with detFs := v } }
  | .ignoreHz => { s with ops := { s.ops with ignoreHz := v } }
  | .minPeak => { s with ops := { s.ops with minPeak := v } }
  | .bqFs => { s with ops := { s.ops with bqFs := v } }
  | .bqFc => { s with ops := { s.ops with bqFc := v } }
  | .b0 => { s with coeffs := { s.coeffs with b0 := v } }
  | .b1 => { s with coeffs := { s.coeffs with b1 := v } }
  | .b2 => { s with coeffs := { s.coeffs with b2 := v } }
  | .a1 => { s with coeffs := { s.coeffs with a1 := v } }
  | .a2 => { s with coeffs := { s.coeffs with a2 := v } }
  | .genMin => { s with ops := { s.ops with genMin := v } }
  | .genMax => { s with ops := { s.ops with genMax := v } }
  | .genPrec => { s with ops := { s.ops with genPrec := v } }
  | .nrmSrcmax => { s with ops := { s.ops with nrmSrcmax := v } }
  | .nrmDstmax => { s with ops := { s.ops with nrmDstmax := v } }

/-! ## Integer operands: unsigned, at their full 64-bit value (R85) -/

/-- `SRC` -/
def srcOf (s : State) : Nat := s.ops.src.toNat
/-- `SLEN` -/
def slenOf (s : State) : Nat := s.ops.slen.toNat
/-- `DST` -/
def dstOf (s : State) : Nat := s.ops.dst.toNat
/-- `SCALE` -/
def scaleOf (s : State) : Nat := s.ops.scale.toNat
/-- `OFFSET` -/
def offsetOf (s : State) : Nat := s.ops.offset.toNat
/-- `FRAME_N` -/
def frameNOf (s : State) : Nat := s.ops.frameN.toNat
/-- `DET_FS` -/
def detFsOf (s : State) : Nat := s.ops.detFs.toNat
/-- `NRM_DSTMAX` -/
def dstmaxOf (s : State) : Nat := s.ops.nrmDstmax.toNat

end Sys2Proof.Machine
end

