-- ==== Sys2Proof/Machine/Ops.lean ====
section
/-! DEFINITION. The operations the commands share: data memory (spec/20_memory.md), raising and clearing of errors
(spec/60_exceptions.md R196, R201), the frame of a command (spec/30_encoding.md R86, R87), the checks before a command
(R200, R67), the loop that produces a series (R205), reset (spec/70_reset_and_hazards.md R221). -/

namespace Sys2Proof.Machine

/-! ## Data memory -/

/-- One byte cell; `none` where nothing has been written (R70). -/
def getByte : Memory → Nat → Option Byte
  | [], _ => none
  | (b, v) :: rest, a => if a = b then some v else getByte rest a

/-- One byte cell written, the addresses kept strictly rising. -/
def setByte : Memory → Nat → Byte → Memory
  | [], a, v => [(a, v)]
  | (b, u) :: rest, a, v =>
    if a < b then (a, v) :: (b, u) :: rest
    else if a = b then (a, v) :: rest
    else (b, u) :: setByte rest a v

/-- The `n` bytes from byte address `a` on, if all of them have been written. -/
def getBytes (m : Memory) (a : Nat) : Nat → Option (List Byte)
  | 0 => some []
  | n + 1 => (getByte m a).bind fun b => (getBytes m (a + 1) n).map fun bs => b :: bs

/-- Bytes written from byte address `a` on. -/
def setBytes (m : Memory) (a : Nat) : List Byte → Memory
  | [] => m
  | b :: bs => setBytes (setByte m a b) (a + 1) bs

/-- The `n` low bytes of a number, the least significant first (R62). -/
def toBytes : Nat → Nat → List Byte
  | 0, _ => []
  | n + 1, v => BitVec.ofNat 8 v :: toBytes n (v / 2 ^ 8)

/-- The number whose bytes these are, the least significant first (R62). -/
def ofBytes : List Byte → Nat
  | [] => 0
  | b :: bs => b.toNat + 2 ^ 8 * ofBytes bs

/-- `MemRead(a, 8)`: the whole word at word address `a`; `none` for a word nothing has written (R61, R62, R70). -/
def readWord (m : Memory) (a : Nat) : Option Word :=
  (getBytes m (8 * a) 8).map fun bs => BitVec.ofNat 64 (ofBytes bs)

/-- `MemWrite(a, 8, v)`: the whole word at word address `a` (R61, R62). -/
def writeWord (m : Memory) (a : Nat) (v : Word) : Memory := setBytes m (8 * a) (toBytes 8 v.toNat)

/-- Words written from word address `a` on, in index order (R66). -/
def writeWords (m : Memory) (a : Nat) : List Word → Memory
  | [] => m
  | w :: ws => writeWords (writeWord m a w) (a + 1) ws

/-! ## Samples -/

/-- What reading samples gives: a value, the index of the first sample that is not a finite number (R195), or the
address of a word that holds no value (R70). -/
inductive Read (α : Type) where
  | got (x : α)
  | malformed (index : Nat)
  | unwritten (address : Nat)
deriving DecidableEq, Repr

/-- Element `idx` of the series at `src`, checked to be finite (R65, R195). -/
def readSample (m : Memory) (src idx : Nat) : Read Word :=
  match readWord m (src + idx) with
  | none => .unwritten (src + idx)
  | some w => if isFinite w then .got w else .malformed idx

/-! ## Taking an error and completing a command -/

/-- An error with the register and the value it is reported with (R191). -/
structure Reject where
  error : ErrorCode
  errReg : BitVec 8
  info : Word
deriving DecidableEq, Repr

/-- An error reported against an operand register and its 64 bits (R24, R191). -/
def rejectOperand (e : ErrorCode) (r : Reg) (s : State) : Reject :=
  { error := e, errReg := (regNumber r).setWidth 8, info := regGet s r }

/-- `raise E(r, info)` with `kept` results: the whole effect of a command error (R196). -/
def raise (r : Reject) (kept : Word) (s : State) : State :=
  { s with dlen := kept, status := errorFlags r.error r.errReg kept, errinfo := r.info }

/-- The end of a successful command: `DLEN` is its result count and DONE is set (R86). -/
def complete (count : Nat) (s : State) : State :=
  { s with dlen := BitVec.ofNat 64 count, status := successFlags s.status }

/-- What an accepted command does first: DONE and INCOMPLETE cleared, `DLEN` zero (R86). -/
def accept (s : State) : State := { s with status := beginFlags s.status, dlen := 0#64 }

/-- The transition of a command write (R86): ignored whole while ERR is 1 (R87), else accepted and run. -/
def issue (s : State) (run : State → Result) : Result :=
  if s.status.err then .next s else run (accept s)

/-- The checks of a command, in the order it gives them: the first that fails is raised (R200). -/
def checked (s : State) (checks : List (Bool × Reject)) (run : Result) : Result :=
  match checks.find? Prod.fst with
  | some (_, r) => .next (raise r 0#64 s)
  | none => run

/-- The region check of R67 for a result of `w` words: source in range, result in range, result disjoint from the
source when neither is empty. -/
def regionChecks (s : State) (w : Nat) : List (Bool × Reject) :=
  [(s.cfg.memWords < srcOf s + slenOf s, rejectOperand .badAddress .src s),
   (s.cfg.memWords < dstOf s + w
      || (0 < slenOf s && 0 < w && !(srcOf s + slenOf s ≤ dstOf s || dstOf s + w ≤ srcOf s)),
    rejectOperand .badAddress .dst s)]

/-! ## Producing a series -/

/-- One element of a result: its words and the hidden state after it, or why there is none. -/
inductive Element where
  | value (h : Hidden) (ws : List Word)
  | malformed (index : Nat) (h : Hidden)
  | unwritten (address : Nat)
deriving DecidableEq, Repr

/-- How the production of a series ended. -/
inductive SeriesEnd where
  | finished (m : Memory) (h : Hidden)
  | malformed (index kept : Nat) (m : Memory) (h : Hidden)
  | unwritten (address : Nat)
deriving DecidableEq, Repr

/-- Produces `todo` more elements from element `k` on and writes each, `width` words wide, at `dst + width * k` before
the next is computed (R66, R205). -/
def series (element : Nat → Memory → Hidden → Element) (dst width : Nat) : Nat → Nat → Memory → Hidden → SeriesEnd
  | 0, _, m, h => .finished m h
  | todo + 1, k, m, h =>
    match element k m h with
    | .value h' ws => series element dst width todo (k + 1) (writeWords m (dst + width * k) ws) h'
    | .malformed i h' => .malformed i k m h'
    | .unwritten a => .unwritten a

/-- A MalformedSample of element `index` (R195). -/
def rejectSample (index : Nat) : Reject :=
  { error := .malformedSample, errReg := (regNumber .src).setWidth 8, info := BitVec.ofNat 64 index }

/-- The state with the memory and the hidden state a command has reached. -/
def withWork (m : Memory) (h : Hidden) (s : State) : State := { s with mem := m, hidden := h }

/-- The end of a command that produces a series of `count` elements: success, or MalformedSample with the results kept
(R205). A read of a word that holds no value has no step (R70). -/
def finish (count : Nat) (s : State) : SeriesEnd → Result
  | .finished m h => .next (complete count (withWork m h s))
  | .malformed index kept m h => .next (raise (rejectSample index) (BitVec.ofNat 64 kept) (withWork m h s))
  | .unwritten a => .refused (.unwrittenWord a)

/-- A frame buffer written from entry 0 on; the entries beyond keep what they held (R44). -/
def overwrite (buffer xs : List Word) : List Word := xs ++ buffer.drop xs.length

/-! ## Reset -/

/-- A reset by `rst` (R221): every register takes its reset value; `DMEM` is not changed (R73), and the spec gives the
hidden state no reset value, so it stays (log 12). -/
def applyReset (s : State) : State :=
  { s with status := Status.clear, errinfo := 0#64, dlen := 0#64
           ops := OperandRegs.afterReset s.cfg, coeffs := Coeffs.zero }

end Sys2Proof.Machine
end

