-- ==== Sys2Proof/Machine/Biquad.lean ====
section
/-! DEFINITION. The biquad filter designer and applier: BQ_DESIGN_LP, BQ_DESIGN_HP, BQ_APPLY (spec/40_biquad.md). -/

namespace Sys2Proof.Machine
open Sys2Proof.Config

/-! ## Design (R101 to R103) -/

/-- `w = TAN((PI * fc) / fs)` (R101). -/
def designW (b : Build) (fs fc : Word) : Word := tan b (fdiv (fmul fpi fc) fs)

/-- `norm = 1 / (w * (w + SQRT2) + 1)` (R101). -/
def designNorm (w : Word) : Word := fdiv fone (fadd (fmul w (fadd w fsqrt2)) fone)

/-- `a1 = (2 * (w * w - 1)) * norm` (R101). -/
def designA1 (w norm : Word) : Word := fmul (fmul ftwo (fsub (fmul w w) fone)) norm

/-- `a2 = (w * (w - SQRT2) + 1) * norm` (R101). -/
def designA2 (w norm : Word) : Word := fmul (fadd (fmul w (fsub w fsqrt2)) fone) norm

/-- The low-pass tuple (R102). -/
def lowPass (b : Build) (fs fc : Word) : Coeffs :=
  let w := designW b fs fc
  let norm := designNorm w
  let b0 := fmul (fmul w w) norm
  { b0 := b0, b1 := fmul ftwo b0, b2 := b0, a1 := designA1 w norm, a2 := designA2 w norm }

/-- The high-pass tuple (R103). -/
def highPass (b : Build) (fs fc : Word) : Coeffs :=
  let w := designW b fs fc
  let norm := designNorm w
  { b0 := norm, b1 := fneg (fmul ftwo norm), b2 := norm, a1 := designA1 w norm, a2 := designA2 w norm }

/-- Every coefficient is finite. -/
def coeffsFinite (k : Coeffs) : Bool :=
  isFinite k.b0 && isFinite k.b1 && isFinite k.b2 && isFinite k.a1 && isFinite k.a2

/-- The cutoff test of R101: finite and `0 < fc < fs / 2`. -/
def cutoffOk (fs fc : Word) : Bool := isFinite fc && fgt fc fzero && flt fc (fdiv fs ftwo)

/-- The checks of a design, in their order (R101, R102, R103). -/
def designChecks (design : Build → Word → Word → Coeffs) (s : State) : List (Bool × Reject) :=
  [(!isFinite s.ops.bqFs, rejectOperand .invalidFilterParameters .bqFs s),
   (!cutoffOk s.ops.bqFs s.ops.bqFc, rejectOperand .invalidFilterParameters .bqFc s),
   (!coeffsFinite (design s.cfg s.ops.bqFs s.ops.bqFc), rejectOperand .invalidFilterParameters .bqFc s)]

/-- A design command: all five coefficients are written together, or none (R102). -/
def runDesign (design : Build → Word → Word → Coeffs) (s : State) : Result :=
  checked s (designChecks design s)
    (.next (complete 0 { s with coeffs := design s.cfg s.ops.bqFs s.ops.bqFc }))

/-- BQ_DESIGN_LP (R102). -/
def execBqDesignLp (s : State) : Result := issue s (runDesign lowPass)

/-- BQ_DESIGN_HP (R103). -/
def execBqDesignHp (s : State) : Result := issue s (runDesign highPass)

/-! ## Apply (R105, R106) -/

/-- `u[0] = x - a1 * u[1] - a2 * u[2]` (R105). -/
def biquadState (k : Coeffs) (x u1 u2 : Word) : Word := fsub (fsub x (fmul k.a1 u1)) (fmul k.a2 u2)

/-- `y = b0 * u[0] + b1 * u[1] + b2 * u[2]` (R105). -/
def biquadOutput (k : Coeffs) (u0 u1 u2 : Word) : Word :=
  fadd (fadd (fmul k.b0 u0) (fmul k.b1 u1)) (fmul k.b2 u2)

/-- One sample through the section (R105). -/
def biquadElement (k : Coeffs) (src n : Nat) (m : Memory) (h : Hidden) : Element :=
  match readSample m src n with
  | .got x =>
    let u0 := biquadState k x h.u1 h.u2
    .value { h with u1 := u0, u2 := h.u1 } [biquadOutput k u0 h.u1 h.u2]
  | .malformed i => .malformed i h
  | .unwritten a => .unwritten a

/-- The checks of BQ_APPLY, in their order (R105). -/
def applyChecks (s : State) : List (Bool × Reject) :=
  [(!isFinite s.coeffs.b0, rejectOperand .invalidFilterParameters .b0 s),
   (!isFinite s.coeffs.b1, rejectOperand .invalidFilterParameters .b1 s),
   (!isFinite s.coeffs.b2, rejectOperand .invalidFilterParameters .b2 s),
   (!isFinite s.coeffs.a1, rejectOperand .invalidFilterParameters .a1 s),
   (!isFinite s.coeffs.a2, rejectOperand .invalidFilterParameters .a2 s),
   (slenOf s == 0, rejectOperand .insufficientSamples .slen s)]
    ++ regionChecks s (slenOf s)

/-- The fresh history of an application (R106). -/
def freshHistory (h : Hidden) : Hidden := { h with u1 := fzero, u2 := fzero }

/-- BQ_APPLY on an accepted state (R105). -/
def runApply (s : State) : Result :=
  checked s (applyChecks s)
    (finish (slenOf s) s
      (series (biquadElement s.coeffs (srcOf s)) (dstOf s) 1 (slenOf s) 0 s.mem (freshHistory s.hidden)))

/-- BQ_APPLY (R105). -/
def execBqApply (s : State) : Result := issue s runApply

end Sys2Proof.Machine
end

