-- ==== Sys2Proof/Machine/Fir.lean ====
section
/-! DEFINITION. The FIR decimator: FIR_DECIMATE (spec/41_fir_decimator.md). -/

namespace Sys2Proof.Machine

/-- `ceil_div(a, b)` for `b > 0` (spec/00_scope.md section 6). -/
def ceilDiv (a b : Nat) : Nat := (a + b - 1) / b

/-- The supported scales (R121, R124). -/
def scaleSupported (n : Nat) : Bool := n == 1 || n == 2 || n == 3 || n == 4 || n == 8

/-- The table of the selected scale (R120). -/
def tapsOf (s : State) : List Word := firTable s.cfg (scaleOf s)

/-- The number of outputs (R122); `SLEN` for the identity (R123). -/
def firCount (s : State) : Nat :=
  if scaleOf s = 1 then slenOf s else ceilDiv (slenOf s - (tapsOf s).length) (scaleOf s)

/-- The sum of products over the remaining taps, the sample index rising with them; each product is rounded before it
is added (R121). -/
def convolve (m : Memory) (src : Nat) : List Word → Nat → Word → Read Word
  | [], _, acc => .got acc
  | t :: ts, idx, acc =>
    match readSample m src idx with
    | .got x => convolve m src ts (idx + 1) (fadd acc (fmul x t))
    | .malformed i => .malformed i
    | .unwritten a => .unwritten a

/-- Output `k`: the window at `pos = k * scale`, summed from +0.0 and rounded to an integer (R121). -/
def firElement (table : List Word) (scale src k : Nat) (m : Memory) (h : Hidden) : Element :=
  match convolve m src table (k * scale) fzero with
  | .got acc => .value h [roundInt acc]
  | .malformed i => .malformed i h
  | .unwritten a => .unwritten a

/-- Element `k` of the identity: the word bit for bit, with no check of it (R123). -/
def copyElement (src k : Nat) (m : Memory) (h : Hidden) : Element :=
  match readWord m (src + k) with
  | some w => .value h [w]
  | none => .unwritten (src + k)

/-- The element the selected scale produces (R121, R123). -/
def decimateElement (s : State) : Nat → Memory → Hidden → Element :=
  if scaleOf s = 1 then copyElement (srcOf s) else firElement (tapsOf s) (scaleOf s) (srcOf s)

/-- The checks of FIR_DECIMATE, in their order (R121). -/
def decimateChecks (s : State) : List (Bool × Reject) :=
  [(!scaleSupported (scaleOf s), rejectOperand .unsupportedScale .scale s),
   (slenOf s == 0, rejectOperand .insufficientSamples .slen s),
   (scaleOf s != 1 && slenOf s < (tapsOf s).length, rejectOperand .insufficientSamples .slen s)]
    ++ regionChecks s (firCount s)

/-- FIR_DECIMATE on an accepted state (R121). -/
def runDecimate (s : State) : Result :=
  checked s (decimateChecks s)
    (finish (firCount s) s (series (decimateElement s) (dstOf s) 1 (firCount s) 0 s.mem s.hidden))

/-- FIR_DECIMATE (R121). -/
def execFirDecimate (s : State) : Result := issue s runDecimate

end Sys2Proof.Machine
end

