-- ==== Sys2Proof/Machine/FreqList.lean ====
section
/-! DEFINITION. The frequency-list generator: GEN_RANGE (spec/42_freq_list.md). -/

namespace Sys2Proof.Machine

/-- `ceil(freq - freq * precision)` (R140). -/
def sweepStep (p f : Word) : Word := fceil (fsub f (fmul f p))

/-- How the sweep ended: with the list in descending order, out of room in data memory, or with a step that does not
lower the frequency (R141). -/
inductive Sweep where
  | collected (descending : List Word)
  | noRoom
  | noProgress
deriving DecidableEq, Repr

/-- One more value in front of what the rest of a sweep collects. -/
def consSweep (f : Word) : Sweep → Sweep
  | .collected l => .collected (f :: l)
  | .noRoom => .noRoom
  | .noProgress => .noProgress

/-- The sweep from `f` down to `lo` with room for `room` more words (R140, R141). -/
def sweep (lo p : Word) : Nat → Word → Sweep
  | 0, f => if fgt f lo then .noRoom else .collected []
  | room + 1, f =>
    if fgt f lo then
      if flt (sweepStep p f) f then consSweep f (sweep lo p room (sweepStep p f)) else .noProgress
    else .collected []

/-- The sweep of a command; no room is looked at for an empty list (R140). -/
def sweepOf (s : State) : Sweep :=
  if fgt s.ops.genMax s.ops.genMin then
    sweep s.ops.genMin s.ops.genPrec (s.cfg.memWords - dstOf s) s.ops.genMax
  else .collected []

/-- The checks of GEN_RANGE before the sweep, in their order (R140). -/
def rangeChecks (s : State) : List (Bool × Reject) :=
  [(!isFinite s.ops.genMin, rejectOperand .invalidParameter .genMin s),
   (!isFinite s.ops.genMax, rejectOperand .invalidParameter .genMax s),
   (!isFinite s.ops.genPrec, rejectOperand .invalidParameter .genPrec s),
   (s.cfg.memWords < dstOf s, rejectOperand .badAddress .dst s)]

/-- The end of GEN_RANGE: the list written in ascending order, or an error with nothing written (R140, R141). -/
def finishSweep (s : State) : Sweep → Result
  | .collected l => .next (complete l.length { s with mem := writeWords s.mem (dstOf s) l.reverse })
  | .noRoom => .next (raise (rejectOperand .badAddress .dst s) 0#64 s)
  | .noProgress => .next (raise (rejectOperand .invalidParameter .genPrec s) 0#64 s)

/-- GEN_RANGE on an accepted state (R140). -/
def runRange (s : State) : Result := checked s (rangeChecks s) (finishSweep s (sweepOf s))

/-- GEN_RANGE (R140). -/
def execGenRange (s : State) : Result := issue s runRange

end Sys2Proof.Machine
end

