-- ==== Sys2Proof/Machine/Normalizer.lean ====
section
/-! DEFINITION. The normalizer: NORMALIZE (spec/44_normalizer.md). -/

namespace Sys2Proof.Machine

/-- A rounded quotient clamped to `[0, dmax]` (R180). -/
def clampInt (dmax : Nat) (r : Word) : Nat :=
  if flt r fzero then 0 else if fgt r (u2f dmax) then dmax else f2u r

/-- `round(v * (dst_max + 1) / src_max)`: product, quotient, `round_int` (R180). -/
def rescale (smax : Word) (dmax : Nat) (v : Word) : Word := roundInt (fdiv (fmul v (u2f (dmax + 1))) smax)

/-- The result word of a sample: an unsigned integer, zero-extended (R66, R180). -/
def normalized (smax : Word) (dmax : Nat) (v : Word) : Word := BitVec.ofNat 64 (clampInt dmax (rescale smax dmax v))

/-- Result element `k` (R180). -/
def normalizeElement (smax : Word) (dmax src k : Nat) (m : Memory) (h : Hidden) : Element :=
  match readSample m src k with
  | .got v => .value h [normalized smax dmax v]
  | .malformed i => .malformed i h
  | .unwritten a => .unwritten a

/-- The checks of NORMALIZE, in their order (R180). -/
def normalizeChecks (s : State) : List (Bool × Reject) :=
  [(!isFinite s.ops.nrmSrcmax || !fgt s.ops.nrmSrcmax fzero, rejectOperand .invalidParameter .nrmSrcmax s),
   (2 ^ 32 - 1 < dstmaxOf s, rejectOperand .invalidParameter .nrmDstmax s),
   (slenOf s == 0, rejectOperand .insufficientSamples .slen s)]
    ++ regionChecks s (slenOf s)

/-- NORMALIZE on an accepted state (R180). -/
def runNormalize (s : State) : Result :=
  checked s (normalizeChecks s)
    (finish (slenOf s) s
      (series (normalizeElement s.ops.nrmSrcmax (dstmaxOf s) (srcOf s)) (dstOf s) 1 (slenOf s) 0 s.mem s.hidden))

/-- NORMALIZE (R180). -/
def execNormalize (s : State) : Result := issue s runNormalize

end Sys2Proof.Machine
end

