-- ==== Sys2Proof/Machine/Spectral.lean ====
section
/-! DEFINITION. The spectral peak detector: DETECT and SPECTRUM (spec/43_spectral_detector.md). -/

namespace Sys2Proof.Machine
open Sys2Proof.Config

/-! ## The steps of a frame (R151 to R157) -/

/-- What loading a frame gives: the frame, or the entries loaded before the sample that stopped it. -/
inductive Load where
  | full (xs : List Word)
  | malformed (loaded : List Word) (index : Nat)
  | unwritten (address : Nat)
deriving DecidableEq, Repr

/-- One more entry in front of what the rest of a load gives. -/
def consLoad (x : Word) : Load → Load
  | .full xs => .full (x :: xs)
  | .malformed xs i => .malformed (x :: xs) i
  | .unwritten a => .unwritten a

/-- Loads `n` samples from element `base` of the series on (R151). -/
def loadFrame (m : Memory) (src : Nat) : Nat → Nat → Load
  | 0, _ => .full []
  | n + 1, base =>
    match readSample m src base with
    | .got x => consLoad x (loadFrame m src n (base + 1))
    | .malformed i => .malformed [] i
    | .unwritten a => .unwritten a

/-- `sqrt(re * re + im * im)` (R153). -/
def magnitude (re im : Word) : Word := fsqrt (fadd (fmul re re) (fmul im im))

/-- The magnitudes of a frame, not rounded: the transform's answer (R152) through R153. -/
def rawMagnitudes (b : Build) (frame : List Word) : List Word :=
  List.zipWith magnitude (xfRe b frame) (xfIm b frame)

/-- The magnitudes of a frame, rounded (R153, DETECT). -/
def roundedMagnitudes (b : Build) (frame : List Word) : List Word := (rawMagnitudes b frame).map roundInt

/-- The hidden state after a frame has been loaded, as far as it was (R44, R151). -/
def withFrame (xs : List Word) (h : Hidden) : Hidden := { h with frame := overwrite h.frame xs }

/-- The hidden state after the transform and the magnitudes of a frame (R44, R152, R153). -/
def withSpectrum (b : Build) (frame mags : List Word) (h : Hidden) : Hidden :=
  { withFrame frame h with
      re := overwrite h.re (xfRe b frame), im := overwrite h.im (xfIm b frame), mag := overwrite h.mag mags }

/-- `resolution`, Hz per bin (R154). -/
def resolutionOf (s : State) : Word := fdiv (u2f (detFsOf s)) (u2f (frameNOf s))

/-- `skip` (R154). -/
def skipOf (s : State) : Word := fadd (fceil (fdiv s.ops.ignoreHz (resolutionOf s))) fone

/-- The peak search over the bins from `i` on, with the running maximum and its index (R155). -/
def peakFrom (skip : Word) : List Word → Nat → Word → Nat → Word × Nat
  | [], _, pkMag, pkIdx => (pkMag, pkIdx)
  | x :: xs, i, pkMag, pkIdx =>
    if fge (u2f i) skip && fgt x pkMag then peakFrom skip xs (i + 1) x i
    else peakFrom skip xs (i + 1) pkMag pkIdx

/-- The peak of a frame of `n` magnitudes: bins below `floor(n / 2)`, from magnitude +0.0 and index 0 (R155). -/
def peakSearch (skip : Word) (n : Nat) (mags : List Word) : Word × Nat :=
  peakFrom skip (mags.take (n / 2)) 0 fzero 0

/-- The frequency of a peak, behind the noise gate (R156). -/
def gatedFreq (resolution minPeak pkMag : Word) (pkIdx : Nat) : Word :=
  if flt pkMag minPeak then fzero else fmul (u2f pkIdx) resolution

/-- `rpm = (freq / GEAR_DIV) * SEC_PER_MIN` (R157). -/
def rpmOf (b : Build) (freq : Word) : Word := fmul (fdiv freq b.gearDiv) secPerMin

/-- The detection record of a frame: frequency, peak magnitude, RPM (R66, R155 to R158). -/
def detection (s : State) (mags : List Word) : List Word :=
  let peak := peakSearch (skipOf s) (frameNOf s) mags
  let freq := gatedFreq (resolutionOf s) s.ops.minPeak peak.1 peak.2
  [freq, peak.1, rpmOf s.cfg freq]

/-! ## DETECT (R150, R158) -/

/-- The check of the frame length that both commands make (R158, R159). -/
def frameBad (s : State) : Bool :=
  frameNOf s == 0 || s.cfg.frameMax < frameNOf s || !xfSupports s.cfg (frameNOf s)

/-- The number of whole frames in the series (R150). -/
def frameCount (s : State) : Nat := slenOf s / frameNOf s

/-- The checks of DETECT, in their order (R158). -/
def detectChecks (s : State) : List (Bool × Reject) :=
  [(frameBad s, rejectOperand .invalidParameter .frameN s),
   (detFsOf s == 0 || 2 ^ 32 - 1 < detFsOf s, rejectOperand .invalidParameter .detFs s),
   (!isFinite s.ops.ignoreHz || flt s.ops.ignoreHz fzero, rejectOperand .invalidParameter .ignoreHz s),
   (!isFinite s.ops.minPeak, rejectOperand .invalidParameter .minPeak s),
   (slenOf s < frameNOf s, rejectOperand .insufficientSamples .slen s)]
    ++ regionChecks s (3 * frameCount s)

/-- Frame `fr` of the series and its record (R158). -/
def detectElement (s : State) (fr : Nat) (m : Memory) (h : Hidden) : Element :=
  match loadFrame m (srcOf s) (frameNOf s) (fr * frameNOf s) with
  | .full frame =>
    let mags := roundedMagnitudes s.cfg frame
    .value (withSpectrum s.cfg frame mags h) (detection s mags)
  | .malformed xs i => .malformed i (withFrame xs h)
  | .unwritten a => .unwritten a

/-- DETECT on an accepted state (R158). -/
def runDetect (s : State) : Result :=
  checked s (detectChecks s)
    (finish (frameCount s) s (series (detectElement s) (dstOf s) 3 (frameCount s) 0 s.mem s.hidden))

/-- DETECT (R158). -/
def execDetect (s : State) : Result := issue s runDetect

/-! ## SPECTRUM (R159) -/

/-- The checks of SPECTRUM, in their order (R159). -/
def spectrumChecks (s : State) : List (Bool × Reject) :=
  [(frameBad s, rejectOperand .invalidParameter .frameN s),
   (slenOf s < offsetOf s + frameNOf s, rejectOperand .insufficientSamples .slen s)]
    ++ regionChecks s (frameNOf s)

/-- The end of SPECTRUM: all magnitudes written, or nothing (R159). -/
def finishSpectrum (s : State) : Load → Result
  | .full frame =>
    let mags := rawMagnitudes s.cfg frame
    .next (complete (frameNOf s)
      (withWork (writeWords s.mem (dstOf s) mags) (withSpectrum s.cfg frame mags s.hidden) s))
  | .malformed xs i => .next (raise (rejectSample i) 0#64 (withWork s.mem (withFrame xs s.hidden) s))
  | .unwritten a => .refused (.unwrittenWord a)

/-- SPECTRUM on an accepted state (R159). -/
def runSpectrum (s : State) : Result :=
  checked s (spectrumChecks s) (finishSpectrum s (loadFrame s.mem (srcOf s) (frameNOf s) (offsetOf s)))

/-- SPECTRUM (R159). -/
def execSpectrum (s : State) : Result := issue s runSpectrum

end Sys2Proof.Machine
end

