-- ==== Sys2Proof/Machine/Dispatch.lean ====
section
/-! DEFINITION. The meaning of a command written to `CMD`, one arm per command (spec/30_encoding.md R83, R86). -/

namespace Sys2Proof.Machine

def exec (i : Instr) (s : State) : Host.Outcome State Fault Refusal :=
  match i with
  | .bqDesignLp => Sys2Proof.Machine.execBqDesignLp s
  | .bqDesignHp => Sys2Proof.Machine.execBqDesignHp s
  | .bqApply => Sys2Proof.Machine.execBqApply s
  | .firDecimate => Sys2Proof.Machine.execFirDecimate s
  | .genRange => Sys2Proof.Machine.execGenRange s
  | .detect => Sys2Proof.Machine.execDetect s
  | .spectrum => Sys2Proof.Machine.execSpectrum s
  | .normalize => Sys2Proof.Machine.execNormalize s

end Sys2Proof.Machine
end

