-- ==== Sys2Proof/Machine/HostPort.lean ====
section
/-! DEFINITION. The host's ports: what each transaction does (spec/30_encoding.md R81, R82, R86; spec/20_memory.md R64;
spec/60_exceptions.md R208; spec/70_reset_and_hazards.md R220). -/

namespace Sys2Proof.Machine

/-- The error of a word that spells no command (R199): no register, the word itself. -/
def rejectCommand (w : Word) : Reject := { error := .illegalCommand, errReg := 0xFF#8, info := w }

/-- A write of a word that spells no command: IllegalCommand, unless ERR is 1 (R82, R86, R87). -/
def illegalCommand (w : Word) (s : State) : Result := issue s fun t => .next (raise (rejectCommand w) 0#64 t)

/-- `RegWrite(CMD, w)` (R22, R86): the word is decoded and its command runs. -/
def command (w : Word) (s : State) : Result :=
  match decode w with
  | some i => exec i s
  | none => illegalCommand w s

/-- `RegWrite(n, v)`: a write of `CMD` issues a command; a reserved number ignores the write (R20, R22, R40). -/
def hostRegWrite (n : BitVec 5) (v : Word) (s : State) : Result :=
  match regOfNumber n with
  | none => .next s
  | some r => if r = .cmd then command v s else .next (regPut r v s)

/-- `RegRead(n)`: the value read is what the port answers (R81). -/
def hostRegRead (n : BitVec 5) (s : State) : Result := .next { s with readData := some (regRead s n) }

/-- `MemRead(a, 8)` (R64): a word that holds no value is refused (R70). -/
def hostMemRead (a : Nat) (s : State) : Result :=
  if a < s.cfg.memWords then
    match readWord s.mem a with
    | some v => .next { s with readData := some v }
    | none => .refused (.unwrittenWord a)
  else .fault (.portError a)

/-- `MemWrite(a, 8, v)` (R64). -/
def hostMemWrite (a : Nat) (v : Word) (s : State) : Result :=
  if a < s.cfg.memWords then .next { s with mem := writeWord s.mem a v } else .fault (.portError a)

/-- One transaction of the host. -/
def perform (op : HostOp) (s : State) : Result :=
  match op with
  | .regRead n => hostRegRead n s
  | .regWrite n v => hostRegWrite n v s
  | .memRead a => hostMemRead a s
  | .memWrite a v => hostMemWrite a v s
  | .rst => .next (applyReset s)

/-- The transaction that issues a command word (R22, R86). -/
def commandWrite (w : Word) : HostOp := .regWrite (regNumber .cmd) w

end Sys2Proof.Machine
end

