-- ==== Sys2Proof/Machine/Step.lean ====
section
/-! DEFINITION. One step: the first pending transaction of the host is taken and performed (spec/30_encoding.md R81, R86). -/

namespace Sys2Proof.Machine

/-- One step. The block fetches nothing (R21): with no transaction pending it stays as it is (log 3). -/
def step (s : State) : Host.Outcome State Fault Refusal :=
  match s.inbox with
  | [] => .next s
  | op :: rest => perform op { s with inbox := rest }

/-- `s` with the write of the command word `w` to `CMD` as its next transaction: the next step decodes and runs it
(R21, R22; log 3). -/
def State.withFetchWord (s : State) (nbits w : Nat) : State :=
  { s with inbox := commandWrite (BitVec.ofNat 64 (w % 2 ^ nbits)) :: s.inbox }

end Sys2Proof.Machine
end

