-- ==== Sys2Proof/Machine/HostScript.lean ====
section
/-! DEFINITION. The host-script notation: the lines of spec/30_encoding.md R88, the macros of R89, and the reading of their
text. A script translates to the host transactions it performs. -/

namespace Sys2Proof.Machine

/-! ## Lines and macros -/

/-- `WR <reg>, <value>` -/
def lineWR (r : Reg) (v : Word) : HostOp := .regWrite (regNumber r) v
/-- `RD <reg>` -/
def lineRD (r : Reg) : HostOp := .regRead (regNumber r)
/-- `MW <addr>, <value>` -/
def lineMW (a : Nat) (v : Word) : HostOp := .memWrite a v
/-- `MR <addr>` -/
def lineMR (a : Nat) : HostOp := .memRead a
/-- `CMD <mnemonic>` -/
def lineCMD (i : Instr) : HostOp := commandWrite (encode i)

/-- `DESIGN.LP fs, fc` -/
def macroDesignLp (fs fc : Word) : List HostOp := [lineWR .bqFs fs, lineWR .bqFc fc, lineCMD .bqDesignLp]

/-- `DESIGN.HP fs, fc` -/
def macroDesignHp (fs fc : Word) : List HostOp := [lineWR .bqFs fs, lineWR .bqFc fc, lineCMD .bqDesignHp]

/-- `COEFFS b0, b1, b2, a1, a2` -/
def macroCoeffs (b0 b1 b2 a1 a2 : Word) : List HostOp :=
  [lineWR .b0 b0, lineWR .b1 b1, lineWR .b2 b2, lineWR .a1 a1, lineWR .a2 a2]

/-- `APPLY src, len, dst` -/
def macroApply (src len dst : Word) : List HostOp :=
  [lineWR .src src, lineWR .slen len, lineWR .dst dst, lineCMD .bqApply]

/-- `DECIMATE src, len, dst, scale` -/
def macroDecimate (src len dst scale : Word) : List HostOp :=
  [lineWR .src src, lineWR .slen len, lineWR .dst dst, lineWR .scale scale, lineCMD .firDecimate]

/-- `GENRANGE min, max, prec, dst` -/
def macroGenRange (min max prec dst : Word) : List HostOp :=
  [lineWR .genMin min, lineWR .genMax max, lineWR .genPrec prec, lineWR .dst dst, lineCMD .genRange]

/-- `DETECT src, len, dst, fs, n` -/
def macroDetect (src len dst fs n : Word) : List HostOp :=
  [lineWR .src src, lineWR .slen len, lineWR .dst dst, lineWR .detFs fs, lineWR .frameN n, lineCMD .detect]

/-- `SPECTRUM src, len, off, n, dst` -/
def macroSpectrum (src len off n dst : Word) : List HostOp :=
  [lineWR .src src, lineWR .slen len, lineWR .offset off, lineWR .frameN n, lineWR .dst dst, lineCMD .spectrum]

/-- `NORMALIZE src, len, dst, srcmax, dstmax` -/
def macroNormalize (src len dst srcmax dstmax : Word) : List HostOp :=
  [lineWR .src src, lineWR .slen len, lineWR .dst dst, lineWR .nrmSrcmax srcmax, lineWR .nrmDstmax dstmax,
   lineCMD .normalize]

/-- `CLRERR` -/
def macroClrErr : List HostOp := [lineWR .status 0x2#64]

/-- `CLRDONE` -/
def macroClrDone : List HostOp := [lineWR .status 0x1#64]

/-! ## The text (R88) -/

/-- A register's name in a script (R20, R88). -/
def regName : Reg → String
  | .cmd => "CMD"
  | .status => "STATUS"
  | .errinfo => "ERRINFO"
  | .src => "SRC"
  | .slen => "SLEN"
  | .dst => "DST"
  | .dlen => "DLEN"
  | .scale => "SCALE"
  | .offset => "OFFSET"
  | .frameN => "FRAME_N"
  | .detFs => "DET_FS"
  | .ignoreHz => "IGNORE_HZ"
  | .minPeak => "MIN_PEAK"
  | .bqFs => "BQ_FS"
  | .bqFc => "BQ_FC"
  | .b0 => "B0"
  | .b1 => "B1"
  | .b2 => "B2"
  | .a1 => "A1"
  | .a2 => "A2"
  | .genMin => "GEN_MIN"
  | .genMax => "GEN_MAX"
  | .genPrec => "GEN_PREC"
  | .nrmSrcmax => "NRM_SRCMAX"
  | .nrmDstmax => "NRM_DSTMAX"

/-- Every named register (R20). -/
def allRegs : List Reg :=
  [.cmd, .status, .errinfo, .src, .slen, .dst, .dlen, .scale, .offset, .frameN, .detFs, .ignoreHz, .minPeak,
   .bqFs, .bqFc, .b0, .b1, .b2, .a1, .a2, .genMin, .genMax, .genPrec, .nrmSrcmax, .nrmDstmax]

/-- A command's mnemonic (R83). -/
def mnemonicOf : Instr → String
  | .bqDesignLp => "BQ_DESIGN_LP"
  | .bqDesignHp => "BQ_DESIGN_HP"
  | .bqApply => "BQ_APPLY"
  | .firDecimate => "FIR_DECIMATE"
  | .genRange => "GEN_RANGE"
  | .detect => "DETECT"
  | .spectrum => "SPECTRUM"
  | .normalize => "NORMALIZE"

/-- Every command (R83). -/
def allInstrs : List Instr :=
  [.bqDesignLp, .bqDesignHp, .bqApply, .firDecimate, .genRange, .detect, .spectrum, .normalize]

/-- The value of a digit in base 10 or 16. -/
def digitValue (base : Nat) (c : Char) : Option Nat :=
  let v :=
    if '0' ≤ c && c ≤ '9' then c.toNat - '0'.toNat
    else if 'a' ≤ c && c ≤ 'f' then c.toNat - 'a'.toNat + 10
    else if 'A' ≤ c && c ≤ 'F' then c.toNat - 'A'.toNat + 10
    else base
  if v < base then some v else none

/-- The digits of a numeral after the value `acc` of those before. -/
def readDigits (base : Nat) : List Char → Nat → Option Nat
  | [], acc => some acc
  | c :: cs, acc => (digitValue base c).bind fun d => readDigits base cs (base * acc + d)

/-- A numeral of at least one digit. -/
def readNumeral (base : Nat) (cs : List Char) : Option Nat := if cs.isEmpty then none else readDigits base cs 0

/-- A decimal or `0x` hexadecimal unsigned integer (R88). -/
def readNat : List Char → Option Nat
  | '0' :: 'x' :: cs => readNumeral 16 cs
  | cs => readNumeral 10 cs

/-- The text before and after the first `sep`; the second part is `none` where there is no `sep`. -/
def splitAtChar (sep : Char) : List Char → List Char × Option (List Char)
  | [] => ([], none)
  | c :: cs =>
    if c = sep then ([], some cs)
    else
      let rest := splitAtChar sep cs
      (c :: rest.1, rest.2)

/-- A number with an optional minus sign: whether it is negative, and the rest. -/
def readSign : List Char → Bool × List Char
  | '-' :: cs => (true, cs)
  | cs => (false, cs)

/-- The F64 nearest the decimal `digits * 10^(up - down)`. -/
def nearestF64 (neg : Bool) (digits up down : Nat) : Word :=
  packF64 neg (roundMag (digits * 10 ^ up * one1074) (10 ^ down))

/-- `f2bits` of the F64 nearest a decimal such as `-0.25` or `1e300` (R88; log 14). -/
def readF64 (cs : List Char) : Option Word :=
  let (neg, body) := readSign cs
  let (mantissa, exponent) := splitAtChar 'e' body
  let (whole, fraction) := splitAtChar '.' mantissa
  let frac := fraction.getD []
  let (expNeg, expDigits) := readSign (exponent.getD ['0'])
  (readNumeral 10 (whole ++ frac)).bind fun digits =>
    (readNumeral 10 expDigits).map fun e =>
      if expNeg then nearestF64 neg digits 0 (frac.length + e) else nearestF64 neg digits e frac.length

/-- `<value>`: a 64-bit word as hexadecimal, decimal or `f64:<decimal>` (R88). -/
def readValue : List Char → Option Word
  | 'f' :: '6' :: '4' :: ':' :: cs => readF64 cs
  | cs => (readNat cs).bind fun n => if n < 2 ^ 64 then some (BitVec.ofNat 64 n) else none

/-- `<reg>`: a register name or its number (R88). -/
def readReg (cs : List Char) : Option (BitVec 5) :=
  match allRegs.find? fun r => (regName r).toList == cs with
  | some r => some (regNumber r)
  | none => (readNat cs).bind fun n => if n < 32 then some (BitVec.ofNat 5 n) else none

/-- A mnemonic of R83. -/
def readMnemonic (cs : List Char) : Option Instr := allInstrs.find? fun i => (mnemonicOf i).toList == cs

/-- Every value of an operand list. -/
def readValues : List (List Char) → Option (List Word)
  | [] => some []
  | cs :: rest => (readValue cs).bind fun v => (readValues rest).map fun vs => v :: vs

/-- The expansion of a macro of R89 on its operands. -/
def expandMacro (name : List Char) (values : List Word) : Option (List HostOp) :=
  if name = "DESIGN.LP".toList then
    match values with | [fs, fc] => some (macroDesignLp fs fc) | _ => none
  else if name = "DESIGN.HP".toList then
    match values with | [fs, fc] => some (macroDesignHp fs fc) | _ => none
  else if name = "COEFFS".toList then
    match values with | [b0, b1, b2, a1, a2] => some (macroCoeffs b0 b1 b2 a1 a2) | _ => none
  else if name = "APPLY".toList then
    match values with | [src, len, dst] => some (macroApply src len dst) | _ => none
  else if name = "DECIMATE".toList then
    match values with | [src, len, dst, scale] => some (macroDecimate src len dst scale) | _ => none
  else if name = "GENRANGE".toList then
    match values with | [min, max, prec, dst] => some (macroGenRange min max prec dst) | _ => none
  else if name = "DETECT".toList then
    match values with | [src, len, dst, fs, n] => some (macroDetect src len dst fs n) | _ => none
  else if name = "SPECTRUM".toList then
    match values with | [src, len, off, n, dst] => some (macroSpectrum src len off n dst) | _ => none
  else if name = "NORMALIZE".toList then
    match values with | [src, len, dst, smax, dmax] => some (macroNormalize src len dst smax dmax) | _ => none
  else if name = "CLRERR".toList then
    match values with | [] => some macroClrErr | _ => none
  else if name = "CLRDONE".toList then
    match values with | [] => some macroClrDone | _ => none
  else none

/-- The transactions of a line that has been cut into its first word and its operands (R88, R89). -/
def readTokens : List (List Char) → Option (List HostOp)
  | [] => some []
  | name :: operands =>
    if name = "WR".toList then
      match operands with
      | [r, v] => (readReg r).bind fun n => (readValue v).map fun w => [.regWrite n w]
      | _ => none
    else if name = "RD".toList then
      match operands with
      | [r] => (readReg r).map fun n => [.regRead n]
      | _ => none
    else if name = "MW".toList then
      match operands with
      | [a, v] => (readNat a).bind fun n => (readValue v).map fun w => [lineMW n w]
      | _ => none
    else if name = "MR".toList then
      match operands with
      | [a] => (readNat a).map fun n => [lineMR n]
      | _ => none
    else if name = "CMD".toList then
      match operands with
      | [c] => (readMnemonic c).map fun i => [lineCMD i]
      | _ => none
    else (readValues operands).bind (expandMacro name)

/-- The words of a line, cut at blanks and commas; `word` is the word being read. -/
def cutTokens : List Char → List Char → List (List Char)
  | [], word => if word.isEmpty then [] else [word]
  | c :: cs, word =>
    if c = ' ' || c = ',' || c = '\t' then
      if word.isEmpty then cutTokens cs [] else word :: cutTokens cs []
    else cutTokens cs (word ++ [c])

/-- One line: a `;` starts a comment, and a line of nothing else performs nothing (R88). -/
def readLine (cs : List Char) : Option (List HostOp) := readTokens (cutTokens (splitAtChar ';' cs).1 [])

/-- A script, one transaction or macro per line (R88); `line` is the line being read. -/
def readScriptFrom : List Char → List Char → Option (List HostOp)
  | [], line => readLine line
  | c :: cs, line =>
    if c = '\n' then (readLine line).bind fun ops => (readScriptFrom cs []).map fun rest => ops ++ rest
    else readScriptFrom cs (line ++ [c])

/-- The transactions of a host script, or `none` where a line is none of R88's or R89's. -/
def readScript (text : String) : Option (List HostOp) := readScriptFrom text.toList []

end Sys2Proof.Machine
end

