-- ==== Sys2Proof/Safety.lean ====
section
/-! DEFINITION. The terms in which claims about the machine are stated: the invariant of its states, regions and series in
memory, what a command's success and error leave, and the list-level meaning of the command rules. -/

namespace Sys2Proof.Machine
open Sys2Proof.Config

/-! ## The invariant -/

/-- The rules that tie `STATUS`, `ERRINFO` and `DLEN` together (spec/10_state.md R23, R24; spec/60_exceptions.md R191,
R205): DONE and ERR are never both 1; while ERR is 0 the error record is 0; while ERR is 1 the code is one of the seven
and INCOMPLETE says whether results were kept. -/
structure StatusOk (s : State) : Prop where
  doneOrErr : ¬(s.status.done = true ∧ s.status.err = true)
  quiet : s.status.err = false →
    s.status.incomplete = false ∧ s.status.errCode = 0#4 ∧ s.status.errReg = 0#8 ∧ s.errinfo = 0#64
  record : s.status.err = true →
    1 ≤ s.status.errCode.toNat ∧ s.status.errCode.toNat ≤ 7 ∧ (s.status.incomplete = true ↔ s.dlen ≠ 0#64)

/-- The form of data memory (spec/20_memory.md R60, R61, R62): canonical, nothing beyond `MEM_WORDS`, and a word is
written whole or not at all. -/
structure MemoryOk (words : Nat) (m : Memory) : Prop where
  canonical : Memory.wf m = true
  bounded : ∀ x, 8 * words ≤ x → getByte m x = none
  whole : ∀ a i, i < 8 → (getByte m (8 * a + i)).isSome = (getByte m (8 * a)).isSome

/-- The frame buffers hold at most `FRAME_MAX` entries (spec/10_state.md R44). -/
structure BuffersOk (capacity : Nat) (h : Hidden) : Prop where
  frame : h.frame.length ≤ capacity
  re : h.re.length ≤ capacity
  im : h.im.length ≤ capacity
  mag : h.mag.length ≤ capacity

/-- The invariant of the machine's states. -/
structure Inv (s : State) : Prop where
  build : buildOk s.cfg = true
  status : StatusOk s
  memory : MemoryOk s.cfg.memWords s.mem
  buffers : BuffersOk s.cfg.frameMax s.hidden
  count : s.dlen.toNat ≤ s.cfg.memWords

/-- A safe state: its next step is a next state or one of the two stops the spec has, an access the memory port rejects
(spec/20_memory.md R64) or a read of a word that holds no value (R70). -/
def SafeStep (s : State) : Prop :=
  (∃ t, step s = .next t) ∨ (∃ a, step s = .fault (.portError a) ∧ s.cfg.memWords ≤ a)
    ∨ (∃ a, step s = .refused (.unwrittenWord a) ∧ readWord s.mem a = none)

/-! ## Series and regions in memory -/

/-- The words `xs` stand from word address `a` on (R65, R66). -/
def HoldsSeries (m : Memory) (a : Nat) (xs : List Word) : Prop :=
  ∀ i w, xs[i]? = some w → readWord m (a + i) = some w

/-- Every byte outside the `n` words from word address `a` on reads as before. -/
def SameOutside (m m' : Memory) (a n : Nat) : Prop :=
  ∀ x, x < 8 * a ∨ 8 * (a + n) ≤ x → getByte m' x = getByte m x

/-- Every sample is a finite number (spec/60_exceptions.md R195). -/
def AllFinite (xs : List Word) : Prop := ∀ x ∈ xs, isFinite x = true

/-- The regions the region check accepts for a result of `w` words (spec/20_memory.md R67). -/
def RegionsOk (s : State) (w : Nat) : Prop :=
  srcOf s + slenOf s ≤ s.cfg.memWords ∧ dstOf s + w ≤ s.cfg.memWords
    ∧ (0 < slenOf s → 0 < w → srcOf s + slenOf s ≤ dstOf s ∨ dstOf s + w ≤ srcOf s)

/-- The words of one result element (R66): a detection record has three. -/
def elementWidth : Instr → Nat
  | .bqDesignLp => 0
  | .bqDesignHp => 0
  | .bqApply => 1
  | .firDecimate => 1
  | .genRange => 1
  | .detect => 3
  | .spectrum => 1
  | .normalize => 1

/-! ## What a command leaves -/

/-- `t` is `s` after a success with `count` results (spec/30_encoding.md R86): DONE set, INCOMPLETE clear, `DLEN` the
count; but for data memory and the hidden state nothing else differs. -/
def Succeeded (s t : State) (count : Nat) : Prop :=
  t = { s with status := { s.status with done := true, incomplete := false }, dlen := BitVec.ofNat 64 count
               mem := t.mem, hidden := t.hidden }

/-- `t` is `s` after an error with `kept` results (spec/60_exceptions.md R196); but for data memory and the hidden state
nothing else differs. -/
def Failed (s t : State) (code : BitVec 4) (errReg : BitVec 8) (info : Word) (kept : Nat) : Prop :=
  t = { s with status := { done := false, err := true, incomplete := decide (0 < kept), errCode := code, errReg := errReg }
               errinfo := info, dlen := BitVec.ofNat 64 kept, mem := t.mem, hidden := t.hidden }

/-- `s` after an error that keeps no result and touches nothing but `STATUS`, `ERRINFO` and `DLEN` (R196). -/
def failedState (s : State) (code : BitVec 4) (errReg : BitVec 8) (info : Word) : State :=
  { s with status := { done := false, err := true, incomplete := false, errCode := code, errReg := errReg }
           errinfo := info, dlen := 0#64 }

/-- The two states differ in the hidden state only (spec/10_state.md R44, R45). -/
def SameButHidden (s t : State) : Prop := t = { s with hidden := t.hidden }

/-- The registers a command reads as operands (spec/30_encoding.md R85). -/
def operandsOf : Instr → List Reg
  | .bqDesignLp => [.bqFs, .bqFc]
  | .bqDesignHp => [.bqFs, .bqFc]
  | .bqApply => [.src, .slen, .dst, .b0, .b1, .b2, .a1, .a2]
  | .firDecimate => [.src, .slen, .dst, .scale]
  | .genRange => [.dst, .genMin, .genMax, .genPrec]
  | .detect => [.src, .slen, .dst, .frameN, .detFs, .ignoreHz, .minPeak]
  | .spectrum => [.src, .slen, .dst, .offset, .frameN]
  | .normalize => [.src, .slen, .dst, .nrmSrcmax, .nrmDstmax]

/-- The host read/write registers no command writes (spec/10_state.md R42). -/
def isOperandReg (r : Reg) : Bool :=
  [Reg.src, .slen, .dst, .scale, .offset, .frameN, .detFs, .ignoreHz, .minPeak, .bqFs, .bqFc, .genMin, .genMax, .genPrec,
    .nrmSrcmax, .nrmDstmax].contains r

/-- The coefficient registers (R37). -/
def isCoeffReg (r : Reg) : Bool := [Reg.b0, .b1, .b2, .a1, .a2].contains r

/-- An outcome with its next state changed by `f`. -/
def mapNext (f : State → State) : Result → Result
  | .next s => .next (f s)
  | .fault e => .fault e
  | .refused e => .refused e

/-! ## The command rules on lists -/

/-- The recursion of R105 over a series, from the history `u1`, `u2`. -/
def biquadRun (k : Coeffs) : List Word → Word → Word → List Word
  | [], _, _ => []
  | x :: xs, u1, u2 =>
    let u0 := fsub (fsub x (fmul k.a1 u1)) (fmul k.a2 u2)
    fadd (fadd (fmul k.b0 u0) (fmul k.b1 u1)) (fmul k.b2 u2) :: biquadRun k xs u0 u1

/-- The sum of products of a table and the samples of its window, from `acc` in ascending order (R121). -/
def firSum : List Word → List Word → Word → Word
  | t :: ts, x :: xs, acc => firSum ts xs (fadd acc (fmul x t))
  | _, _, acc => acc

/-- The first `n` outputs of a decimation by `scale` of the series `x` (R121). -/
def firOutputs (table : List Word) (scale n : Nat) (x : Nat → Word) : List Word :=
  (List.range n).map fun k =>
    roundInt (firSum table ((List.range table.length).map fun i => x (k * scale + i)) fzero)

/-- Frame `fr` of a series in frames of `n` (R150). -/
def frameOf (n fr : Nat) (xs : List Word) : List Word := (xs.drop (fr * n)).take n

/-- `resolution = DET_FS / N`, Hz per bin (R154). -/
def hzPerBin (s : State) : Word := fdiv (u2f (detFsOf s)) (u2f (frameNOf s))

/-- `skip = ceil(IGNORE_HZ / resolution) + 1` (R154). -/
def firstScanned (s : State) : Word := fadd (fceil (fdiv s.ops.ignoreHz (hzPerBin s))) fone

/-- `MAG[i] = round_int(sqrt(re * re + im * im))` for every bin of a frame (R153). -/
def frameMags (s : State) (frame : List Word) : List Word :=
  (xfRe s.cfg frame).zipWith (fun re im => roundInt (fsqrt (fadd (fmul re re) (fmul im im)))) (xfIm s.cfg frame)

/-- Peak magnitude and bin of a frame (R155; the statement PeakIsTheFirstMaximum says what the search answers). -/
def framePeak (s : State) (frame : List Word) : Word × Nat := peakSearch (firstScanned s) (frameNOf s) (frameMags s frame)

/-- `freq = idx * resolution`, or +0.0 behind the noise gate (R156). -/
def frameFreq (s : State) (frame : List Word) : Word :=
  if flt (framePeak s frame).1 s.ops.minPeak = true then fzero else fmul (u2f (framePeak s frame).2) (hzPerBin s)

/-- The record of a frame: frequency, peak magnitude, `rpm = (freq / GEAR_DIV) * 60.0` (R66, R157). -/
def frameRecord (s : State) (frame : List Word) : List Word :=
  [frameFreq s frame, (framePeak s frame).1, fmul (fdiv (frameFreq s frame) s.cfg.gearDiv) 0x404E000000000000#64]

/-- The records of the first `count` frames, side by side (R66, R158). -/
def detections (s : State) (count : Nat) (xs : List Word) : List Word :=
  (List.range count).flatMap fun fr => frameRecord s (frameOf (frameNOf s) fr xs)

/-- The sweep of R140 from `f` collects the list, in descending order. -/
inductive SweepsTo (lo p : Word) : Word → List Word → Prop where
  | stop (f : Word) (h : fgt f lo = false) : SweepsTo lo p f []
  | step (f : Word) (l : List Word) (h : fgt f lo = true) (hg : flt (fceil (fsub f (fmul f p))) f = true)
      (rest : SweepsTo lo p (fceil (fsub f (fmul f p))) l) : SweepsTo lo p f (f :: l)

/-- The sweep of R140 from `f` makes no progress after `n` further values have been collected (R141). -/
inductive SweepStalls (lo p : Word) : Word → Nat → Prop where
  | here (f : Word) (h : fgt f lo = true) (hg : flt (fceil (fsub f (fmul f p))) f = false) : SweepStalls lo p f 0
  | later (f : Word) (n : Nat) (h : fgt f lo = true) (hg : flt (fceil (fsub f (fmul f p))) f = true)
      (rest : SweepStalls lo p (fceil (fsub f (fmul f p))) n) : SweepStalls lo p f (n + 1)

/-- The legal frame lengths (spec/10_state.md R31). -/
def FrameLegal (s : State) : Prop :=
  1 ≤ frameNOf s ∧ frameNOf s ≤ s.cfg.frameMax ∧ xfSupports s.cfg (frameNOf s) = true

/-- The legal operands of DETECT besides its regions (R31 to R34). -/
def DetectLegal (s : State) : Prop :=
  FrameLegal s ∧ 1 ≤ detFsOf s ∧ detFsOf s ≤ 2 ^ 32 - 1
    ∧ isFinite s.ops.ignoreHz = true ∧ flt s.ops.ignoreHz fzero = false ∧ isFinite s.ops.minPeak = true

/-- The legal scalars of NORMALIZE (R39). -/
def NormalizeLegal (s : State) : Prop :=
  isFinite s.ops.nrmSrcmax = true ∧ fgt s.ops.nrmSrcmax fzero = true ∧ dstmaxOf s ≤ 2 ^ 32 - 1

/-! ## Checks a command makes before it touches memory -/

/-- The supported scales (spec/41_fir_decimator.md R121, R124). -/
def ScaleLegal (s : State) : Prop :=
  scaleOf s = 1 ∨ scaleOf s = 2 ∨ scaleOf s = 3 ∨ scaleOf s = 4 ∨ scaleOf s = 8

/-- The operand checks a command makes before the region check all pass (spec/60_exceptions.md R200). -/
def ReachesRegionCheck (i : Instr) (s : State) : Prop :=
  match i with
  | .bqDesignLp => False
  | .bqDesignHp => False
  | .bqApply => coeffsFinite s.coeffs = true ∧ 0 < slenOf s
  | .firDecimate => ScaleLegal s ∧ 0 < slenOf s ∧ (scaleOf s ≠ 1 → (tapsOf s).length ≤ slenOf s)
  | .genRange => False
  | .detect => DetectLegal s ∧ frameNOf s ≤ slenOf s
  | .spectrum => FrameLegal s ∧ offsetOf s + frameNOf s ≤ slenOf s
  | .normalize => NormalizeLegal s ∧ 0 < slenOf s

/-- The word count of a command's full result, the `W` of spec/20_memory.md R67. -/
def resultWords (i : Instr) (s : State) : Nat :=
  match i with
  | .bqDesignLp => 0
  | .bqDesignHp => 0
  | .bqApply => slenOf s
  | .firDecimate => firCount s
  | .genRange => 0
  | .detect => 3 * (slenOf s / frameNOf s)
  | .spectrum => frameNOf s
  | .normalize => slenOf s

/-! ## Comparing two runs -/

/-- Two steps end the same way: both in next states that `R` relates, or both in the same stop. -/
def SameOutcome (R : State → State → Prop) : Result → Result → Prop
  | .next s, .next t => R s t
  | .fault e, .fault f => e = f
  | .refused e, .refused f => e = f
  | _, _ => False

/-! ## Rounding (spec/00_scope.md R17) -/

/-- The least magnitude, in units of 2^-1074, that rounds to an infinity: half a unit in the last place above the greatest
finite F64. -/
def overflowUnits : Nat := (2 ^ 54 - 1) * 2 ^ 2044

/-- `w` is the exact value `num / den`, in units of 2^-1074, rounded to nearest with ties to even: an infinity where it
overflows, else a finite F64 that no other is nearer to, with an even fraction where another is as near. -/
structure RoundsTo (num : Int) (den : Nat) (w : Word) : Prop where
  number : isNan w = false
  overflow : isInf w = true ↔ overflowUnits * den ≤ num.natAbs
  nearest : isFinite w = true → ∀ x : Word, isFinite x = true →
    |num - den * scaled w| ≤ |num - den * scaled x|
      ∧ (|num - den * scaled w| = |num - den * scaled x| → scaled x ≠ scaled w → fracField w % 2 = 0)
  negative : num < 0 → signBit w = true
  positive : 0 < num → signBit w = false

end Sys2Proof.Machine
end

