-- ==== Sys2Proof/Certificates/Slice0/Obligations.lean ====
section
/-! DEFINITION. The statements for the provers: what the numbered rules of spec/ say a command, a host transaction or the
machine does. -/

section
open Sys2Proof Sys2Proof.Machine Sys2Proof.Config

/-! ## Decoding (spec/30_encoding.md) -/

/-- R80, R82, R83: the encoded word of a command decodes to it, and no other of the 2^64 words does. -/
def Obligations.DecodeAndEncodeAgree : Prop :=
  ∀ i : Instr, i.wf = true → ∀ w : Word, decode w = some i ↔ w = encode i

/-- R82: the decoder on every 64-bit word; an illegal word raises IllegalCommand(0xFF, w). -/
def Obligations.OnlyTheEightWordsDecode : Prop :=
  ∀ w : Word,
    (w.toNat / 2 ^ 8 ≠ 0 ∨ w.toNat % 2 ^ 8 = 0 ∨ 9 ≤ w.toNat % 2 ^ 8 →
      decode w = none ∧ ∀ s : State, s.status.err = false →
        perform (commandWrite w) s = .next (failedState s 7#4 0xFF#8 w))
    ∧ (w.toNat / 2 ^ 8 = 0 →
        (w.toNat % 2 ^ 8 = 0x01 → decode w = some .bqDesignLp) ∧ (w.toNat % 2 ^ 8 = 0x02 → decode w = some .bqDesignHp)
        ∧ (w.toNat % 2 ^ 8 = 0x03 → decode w = some .bqApply) ∧ (w.toNat % 2 ^ 8 = 0x04 → decode w = some .firDecimate)
        ∧ (w.toNat % 2 ^ 8 = 0x05 → decode w = some .genRange) ∧ (w.toNat % 2 ^ 8 = 0x06 → decode w = some .detect)
        ∧ (w.toNat % 2 ^ 8 = 0x07 → decode w = some .spectrum) ∧ (w.toNat % 2 ^ 8 = 0x08 → decode w = some .normalize))
    ∧ ((∃ i, decode w = some i) ↔ 1 ≤ w.toNat ∧ w.toNat ≤ 8)

/-- R83: the eight command words, written out. -/
def Obligations.WrittenOutWordsDecode : Prop :=
  decode 0x0000000000000001#64 = some .bqDesignLp ∧ decode 0x0000000000000002#64 = some .bqDesignHp
    ∧ decode 0x0000000000000003#64 = some .bqApply ∧ decode 0x0000000000000004#64 = some .firDecimate
    ∧ decode 0x0000000000000005#64 = some .genRange ∧ decode 0x0000000000000006#64 = some .detect
    ∧ decode 0x0000000000000007#64 = some .spectrum ∧ decode 0x0000000000000008#64 = some .normalize
    ∧ decode 0x0000000000000000#64 = none ∧ decode 0x0000000100000004#64 = none

/-- R21, R22, R81, R86: a step takes the next transaction, whichever it is, out of the queue and performs it; where that
transaction writes to `CMD` (0x00) a word that decodes to a well-formed command, the step is that command's meaning. That
pending transactions stand in a queue, and that a step with none pending changes nothing, is the model's choice (log 3). -/
def Obligations.StepRunsTheDecodedCommand : Prop :=
  (∀ (s : State) (op : HostOp) (rest : List HostOp), s.inbox = op :: rest → step s = perform op { s with inbox := rest })
  ∧ (∀ s : State, s.inbox = [] → step s = .next s)
  ∧ (∀ w : Word, commandWrite w = .regWrite 0x00#5 w)
  ∧ ∀ (s : State) (w : Word) (rest : List HostOp) (i : Instr),
    s.inbox = commandWrite w :: rest → decode w = some i → i.wf = true → step s = exec i { s with inbox := rest }

/-! ## The register port (spec/10_state.md) -/

/-- R20, R81: the read transaction of any register number answers `regRead` of it and changes nothing else (that the
answer stands in `readData` is the model's choice, log 4); a read/write register stores all 64 bits the host writes, the
next read transaction of it answers them, and nothing else changes. R20's numbers are written out, each with the field it
reads and, where the host may write it, the field it writes (`CMD`, `STATUS` and the reserved numbers have statements of
their own). -/
def Obligations.WrittenRegisterReadsBack : Prop :=
  (∀ (s : State) (n : BitVec 5), perform (.regRead n) s = .next { s with readData := some (regRead s n) })
  ∧ (∀ s : State,
      regRead s 0x02#5 = s.errinfo ∧ regRead s 0x03#5 = s.ops.src ∧ regRead s 0x04#5 = s.ops.slen
      ∧ regRead s 0x05#5 = s.ops.dst ∧ regRead s 0x06#5 = s.dlen ∧ regRead s 0x07#5 = s.ops.scale
      ∧ regRead s 0x08#5 = s.ops.offset ∧ regRead s 0x09#5 = s.ops.frameN ∧ regRead s 0x0A#5 = s.ops.detFs
      ∧ regRead s 0x0B#5 = s.ops.ignoreHz ∧ regRead s 0x0C#5 = s.ops.minPeak ∧ regRead s 0x10#5 = s.ops.bqFs
      ∧ regRead s 0x11#5 = s.ops.bqFc ∧ regRead s 0x12#5 = s.coeffs.b0 ∧ regRead s 0x13#5 = s.coeffs.b1
      ∧ regRead s 0x14#5 = s.coeffs.b2 ∧ regRead s 0x15#5 = s.coeffs.a1 ∧ regRead s 0x16#5 = s.coeffs.a2
      ∧ regRead s 0x18#5 = s.ops.genMin ∧ regRead s 0x19#5 = s.ops.genMax ∧ regRead s 0x1A#5 = s.ops.genPrec
      ∧ regRead s 0x1C#5 = s.ops.nrmSrcmax ∧ regRead s 0x1D#5 = s.ops.nrmDstmax)
  ∧ (∀ (s : State) (v : Word),
      perform (.regWrite 0x03#5 v) s = .next { s with ops := { s.ops with src := v } }
      ∧ perform (.regWrite 0x04#5 v) s = .next { s with ops := { s.ops with slen := v } }
      ∧ perform (.regWrite 0x05#5 v) s = .next { s with ops := { s.ops with dst := v } }
      ∧ perform (.regWrite 0x07#5 v) s = .next { s with ops := { s.ops with scale := v } }
      ∧ perform (.regWrite 0x08#5 v) s = .next { s with ops := { s.ops with offset := v } }
      ∧ perform (.regWrite 0x09#5 v) s = .next { s with ops := { s.ops with frameN := v } }
      ∧ perform (.regWrite 0x0A#5 v) s = .next { s with ops := { s.ops with detFs := v } }
      ∧ perform (.regWrite 0x0B#5 v) s = .next { s with ops := { s.ops with ignoreHz := v } }
      ∧ perform (.regWrite 0x0C#5 v) s = .next { s with ops := { s.ops with minPeak := v } }
      ∧ perform (.regWrite 0x10#5 v) s = .next { s with ops := { s.ops with bqFs := v } }
      ∧ perform (.regWrite 0x11#5 v) s = .next { s with ops := { s.ops with bqFc := v } }
      ∧ perform (.regWrite 0x12#5 v) s = .next { s with coeffs := { s.coeffs with b0 := v } }
      ∧ perform (.regWrite 0x13#5 v) s = .next { s with coeffs := { s.coeffs with b1 := v } }
      ∧ perform (.regWrite 0x14#5 v) s = .next { s with coeffs := { s.coeffs with b2 := v } }
      ∧ perform (.regWrite 0x15#5 v) s = .next { s with coeffs := { s.coeffs with a1 := v } }
      ∧ perform (.regWrite 0x16#5 v) s = .next { s with coeffs := { s.coeffs with a2 := v } }
      ∧ perform (.regWrite 0x18#5 v) s = .next { s with ops := { s.ops with genMin := v } }
      ∧ perform (.regWrite 0x19#5 v) s = .next { s with ops := { s.ops with genMax := v } }
      ∧ perform (.regWrite 0x1A#5 v) s = .next { s with ops := { s.ops with genPrec := v } }
      ∧ perform (.regWrite 0x1C#5 v) s = .next { s with ops := { s.ops with nrmSrcmax := v } }
      ∧ perform (.regWrite 0x1D#5 v) s = .next { s with ops := { s.ops with nrmDstmax := v } })
  ∧ ∀ (s : State) (r : Reg) (v : Word), isOperandReg r = true ∨ isCoeffReg r = true →
    ∃ t, perform (.regWrite (regNumber r) v) s = .next t ∧ regRead t (regNumber r) = v
      ∧ perform (.regRead (regNumber r)) t = .next { t with readData := some v }
      ∧ (∀ n, n ≠ regNumber r → regRead t n = regRead s n) ∧ t = { s with ops := t.ops, coeffs := t.coeffs }

/-- R40: the reserved register numbers read 0 and ignore writes. -/
def Obligations.ReservedNumbersReadZeroAndIgnoreWrites : Prop :=
  ∀ (s : State) (n : BitVec 5) (v : Word),
    n ∈ [0x0D#5, 0x0E#5, 0x0F#5, 0x17#5, 0x1B#5, 0x1E#5, 0x1F#5] →
    regRead s n = 0#64 ∧ perform (.regWrite n v) s = .next s

/-- R23, R201, R24, R28, R22: a write of `STATUS` clears the fields whose bit is written as 1; `ERRINFO` and `DLEN` ignore
writes; `CMD` reads 0. -/
def Obligations.StatusClearsByWritingOne : Prop :=
  ∀ (s : State) (v : Word),
    perform (.regWrite 0x01#5 v) s = .next
        { s with
            status :=
              { done := s.status.done && !v.getLsbD 0
                err := s.status.err && !v.getLsbD 1
                incomplete := s.status.incomplete && !v.getLsbD 1
                errCode := if v.getLsbD 1 then 0#4 else s.status.errCode
                errReg := if v.getLsbD 1 then 0#8 else s.status.errReg }
            errinfo := if v.getLsbD 1 then 0#64 else s.errinfo }
      ∧ perform (.regWrite 0x02#5 v) s = .next s ∧ perform (.regWrite 0x06#5 v) s = .next s
      ∧ regRead s 0x00#5 = 0#64

/-- R23: the bits of the word a read of `STATUS` returns. -/
def Obligations.StatusWordLayout : Prop :=
  ∀ s : State,
    (regRead s 0x01#5).getLsbD 0 = s.status.done ∧ (regRead s 0x01#5).getLsbD 1 = s.status.err
      ∧ (regRead s 0x01#5).getLsbD 2 = s.status.incomplete
      ∧ (regRead s 0x01#5).extractLsb' 8 4 = s.status.errCode ∧ (regRead s 0x01#5).extractLsb' 16 8 = s.status.errReg
      ∧ ∀ k, (3 ≤ k ∧ k ≤ 7) ∨ (12 ≤ k ∧ k ≤ 15) ∨ 24 ≤ k → (regRead s 0x01#5).getLsbD k = false

/-- R47, R221: every register number reads its reset value after a reset, and data memory is not changed; the same values
stand after power-up. -/
def Obligations.ResetLoadsResetValues : Prop :=
  (∀ s : State, ∃ t, perform .rst s = .next t ∧ t.mem = s.mem ∧ t.cfg = s.cfg
    ∧ ∀ n, regRead t n = if n = 0x09#5 then 1024#64 else if n = 0x0B#5 then 0x407F400000000000#64
        else if n = 0x0C#5 then s.cfg.minPeakReset else 0#64)
  ∧ ∀ n, regRead State.reset n = if n = 0x09#5 then 1024#64 else if n = 0x0B#5 then 0x407F400000000000#64
        else if n = 0x0C#5 then State.reset.cfg.minPeakReset else 0#64

/-- R222 (a): what each command does on the reset values of any build. -/
def Obligations.CommandsOnTheResetValues : Prop :=
  ∀ b : Build,
    exec .bqDesignLp (State.ofBuild b) = .next (failedState (State.ofBuild b) 1#4 0x11#8 0#64)
      ∧ exec .bqDesignHp (State.ofBuild b) = .next (failedState (State.ofBuild b) 1#4 0x11#8 0#64)
      ∧ exec .bqApply (State.ofBuild b) = .next (failedState (State.ofBuild b) 3#4 0x04#8 0#64)
      ∧ exec .firDecimate (State.ofBuild b) = .next (failedState (State.ofBuild b) 2#4 0x07#8 0#64)
      ∧ exec .genRange (State.ofBuild b)
          = .next { State.ofBuild b with status := { (State.ofBuild b).status with done := true } }
      ∧ exec .normalize (State.ofBuild b) = .next (failedState (State.ofBuild b) 5#4 0x1C#8 0#64)
      ∧ (FrameLegal (State.ofBuild b) →
          exec .detect (State.ofBuild b) = .next (failedState (State.ofBuild b) 5#4 0x0A#8 0#64)
            ∧ exec .spectrum (State.ofBuild b) = .next (failedState (State.ofBuild b) 3#4 0x04#8 0#64))
      ∧ (¬FrameLegal (State.ofBuild b) →
          exec .detect (State.ofBuild b) = .next (failedState (State.ofBuild b) 5#4 0x09#8 1024#64)
            ∧ exec .spectrum (State.ofBuild b) = .next (failedState (State.ofBuild b) 5#4 0x09#8 1024#64))

/-! ## The memory port and data memory (spec/20_memory.md) -/

/-- R64, R61, R62: a host write stores the whole word, little-endian, and nothing else; a host read answers the word last
written. That the answer stands in `readData` is the model's choice (log 4). -/
def Obligations.MemoryWriteReadsBack : Prop :=
  ∀ (s : State) (a : Nat) (v : Word), a < s.cfg.memWords →
    ∃ t, perform (.memWrite a v) s = .next t ∧ t = { s with mem := t.mem }
      ∧ perform (.memRead a) t = .next { t with readData := some v }
      ∧ (∀ i < 8, getByte t.mem (8 * a + i) = some (v.extractLsb' (8 * i) 8))
      ∧ SameOutside s.mem t.mem a 1

/-- R64, R208, R70: a host access at `MEM_WORDS` or above has no step (a fault by the model's choice, log 6), and a read of
a word that nothing has written is refused. -/
def Obligations.AccessesWithoutAStepStop : Prop :=
  ∀ (s : State) (a : Nat) (v : Word),
    (s.cfg.memWords ≤ a →
      perform (.memRead a) s = .fault (.portError a) ∧ perform (.memWrite a v) s = .fault (.portError a))
    ∧ (a < s.cfg.memWords → readWord s.mem a = none → perform (.memRead a) s = .refused (.unwrittenWord a))

/-- R73: a byte of data memory changes in a step only by a host write of its word or by the result write of a command. -/
def Obligations.MemoryChangesOnlyByWritesAndResults : Prop :=
  ∀ (s t : State) (x : Nat), buildOk s.cfg = true → step s = .next t → getByte t.mem x ≠ getByte s.mem x →
    (∃ a v rest, s.inbox = .memWrite a v :: rest ∧ 8 * a ≤ x ∧ x < 8 * a + 8)
    ∨ (∃ w i rest, s.inbox = commandWrite w :: rest ∧ decode w = some i ∧ s.status.err = false
        ∧ 8 * dstOf s ≤ x ∧ x < 8 * (dstOf s + elementWidth i * t.dlen.toNat))

/-- R66: a command writes no word outside its result words, `DLEN` or `3 * DLEN` from `DST` on. -/
def Obligations.CommandWritesOnlyItsResultRegion : Prop :=
  ∀ (i : Instr) (s t : State), buildOk s.cfg = true → s.status.err = false → exec i s = .next t →
    SameOutside s.mem t.mem (dstOf s) (elementWidth i * t.dlen.toNat)

/-! ## Commands in general (spec/30_encoding.md R85 to R87, spec/60_exceptions.md) -/

/-- R87: while `STATUS.ERR` is 1 a write to `CMD` changes nothing. -/
def Obligations.CommandsIgnoredWhileErr : Prop :=
  ∀ (s : State) (w : Word), s.status.err = true → perform (commandWrite w) s = .next s

/-- R42: no command writes an operand register; an operand register changes only by a host write of it or by reset. -/
def Obligations.CommandsKeepOperandRegisters : Prop :=
  (∀ (i : Instr) (s t : State) (r : Reg), isOperandReg r = true → exec i s = .next t → regGet t r = regGet s r)
  ∧ ∀ (s t : State) (r : Reg), isOperandReg r = true → step s = .next t → regGet t r ≠ regGet s r →
      (∃ v rest, s.inbox = .regWrite (regNumber r) v :: rest) ∨ ∃ rest, s.inbox = .rst :: rest

/-- R37, R102, R103: a coefficient register changes only by a design command, a host write of it, or reset; a design that
fails changes none. -/
def Obligations.OnlyDesignsAndTheHostWriteCoefficients : Prop :=
  ∀ (s t : State) (r : Reg), isCoeffReg r = true → step s = .next t → regGet t r ≠ regGet s r →
    (∃ v rest, s.inbox = .regWrite (regNumber r) v :: rest) ∨ (∃ rest, s.inbox = .rst :: rest)
    ∨ ∃ w rest, s.inbox = commandWrite w :: rest ∧ (decode w = some .bqDesignLp ∨ decode w = some .bqDesignHp)
        ∧ s.status.err = false ∧ t.status.done = true

/-- R86, R70: every command ends in a next state, unless it reads a word of its source region that nothing has written. -/
def Obligations.EveryCommandEnds : Prop :=
  ∀ (i : Instr) (s : State),
    (∃ t, exec i s = .next t)
    ∨ ∃ a, exec i s = .refused (.unwrittenWord a) ∧ readWord s.mem a = none ∧ srcOf s ≤ a ∧ a < srcOf s + slenOf s
        ∧ (i = .bqApply ∨ i = .firDecimate ∨ i = .detect ∨ i = .spectrum ∨ i = .normalize)

/-- R23, R41, R86, R196: a command that was accepted ends with DONE or with ERR, never both; a success leaves
`STATUS = 1`. -/
def Obligations.CommandsEndInDoneOrErr : Prop :=
  ∀ (i : Instr) (s t : State), StatusOk s → s.status.err = false → exec i s = .next t →
    (t.status.done = true ∧ t.status.err = false ∧ regRead t 0x01#5 = 1#64 ∧ t.errinfo = 0#64)
    ∨ (t.status.done = false ∧ t.status.err = true ∧ 1 ≤ t.status.errCode.toNat ∧ t.status.errCode.toNat ≤ 6)

/-- R195, R205: INCOMPLETE is set exactly when results were kept; only MalformedSample keeps results, it is reported
against `SRC` with the index of a sample that is not finite, and SPECTRUM never keeps any. -/
def Obligations.PartialResultsAreMarked : Prop :=
  ∀ (i : Instr) (s t : State), s.cfg.memWords ≤ 2 ^ 32 → s.status.err = false → exec i s = .next t → t.status.err = true →
    (t.status.incomplete = true ↔ t.dlen ≠ 0#64)
    ∧ (t.dlen ≠ 0#64 → t.status.errCode = 4#4 ∧ i ≠ .spectrum)
    ∧ (t.status.errCode = 4#4 → t.status.errReg = 0x03#8 ∧ t.errinfo.toNat < slenOf s
        ∧ (∃ w, readWord s.mem (srcOf s + t.errinfo.toNat) = some w ∧ isFinite w = false)
        ∧ (i = .firDecimate → scaleOf s ≠ 1))

/-- The invariant of `Inv` holds after power-up and reset (R47, R60, R70, R221). -/
def Obligations.ResetMeetsTheInvariant : Prop := Inv State.reset

/-- The invariant of `Inv` is kept by every step, from any state that meets it: the flags and the error record stay
consistent (R23, R24, R191, R205), data memory stays canonical, inside `MEM_WORDS` and written by whole words (R60, R61),
the frame buffers stay within `FRAME_MAX` (R44), `DLEN` stays within `MEM_WORDS`. -/
def Obligations.StepKeepsTheInvariant : Prop := ∀ s t : State, Inv s → step s = .next t → Inv t

/-- R44, R45, R204: two machines that differ in the hidden state only take steps that differ in the hidden state only.
Where a word that is stored is a NaN that an operation produced, that both store the same NaN is the model's choice (log 2,
DESIGN CHOICE: R17 and U1 make it a draw). -/
def Obligations.HiddenStateIsNotObservable : Prop :=
  ∀ s t : State, SameButHidden s t → SameOutcome SameButHidden (step s) (step t)

/-- R85: a register a command does not list as an operand is neither read nor checked by it: with another value in it the
command does the same. Where a result word is a NaN that an operation produced, that it is the same NaN with either value
is the model's choice (log 2, DESIGN CHOICE: R17 and U1 make it a draw). -/
def Obligations.CommandsReadOnlyTheirOperands : Prop :=
  ∀ (i : Instr) (s : State) (r : Reg) (v : Word),
    isOperandReg r = true ∨ (isCoeffReg r = true ∧ i ≠ .bqDesignLp ∧ i ≠ .bqDesignHp) → r ∉ operandsOf i →
    exec i (regPut r v s) = mapNext (regPut r v) (exec i s)

/-- R106, R161, R206: the same operand registers, the same configuration and the same words in the source region give the
same result words, the same `DLEN`, the same flags and the same error record. The spec says so of BQ_APPLY (R106), of
DETECT (R161) and of errors (R206); where a result word is a NaN that an operation produced, that it is the same NaN in
both is the model's choice (log 2, DESIGN CHOICE: R17 and U1 make it a draw). -/
def Obligations.EqualInputsGiveEqualResults : Prop :=
  ∀ (i : Instr) (s s' : State),
    s.status.err = false → s'.status.err = false → s'.ops = s.ops → s'.coeffs = s.coeffs → s'.cfg = s.cfg →
    (∀ k < slenOf s, readWord s'.mem (srcOf s + k) = readWord s.mem (srcOf s + k)) →
    SameOutcome
      (fun t t' => t'.dlen = t.dlen ∧ t'.coeffs = t.coeffs ∧ t'.status.done = t.status.done ∧ t'.status.err = t.status.err
        ∧ t'.status.incomplete = t.status.incomplete
        ∧ (t.status.err = true → t'.status.errCode = t.status.errCode ∧ t'.status.errReg = t.status.errReg
            ∧ t'.errinfo = t.errinfo)
        ∧ ∀ k < elementWidth i * t.dlen.toNat, readWord t'.mem (dstOf s + k) = readWord t.mem (dstOf s + k))
      (exec i s) (exec i s')

/-- R194: InsufficientSamples, reported against `SLEN`, with nothing written, by the five commands that consume a
series. -/
def Obligations.ShortSeriesRaiseInsufficientSamples : Prop :=
  ∀ s : State, s.status.err = false →
    (coeffsFinite s.coeffs = true → slenOf s = 0 → exec .bqApply s = .next (failedState s 3#4 0x04#8 s.ops.slen))
    ∧ (ScaleLegal s → slenOf s = 0 ∨ (1 < scaleOf s ∧ slenOf s < (tapsOf s).length) →
        exec .firDecimate s = .next (failedState s 3#4 0x04#8 s.ops.slen))
    ∧ (DetectLegal s → slenOf s < frameNOf s → exec .detect s = .next (failedState s 3#4 0x04#8 s.ops.slen))
    ∧ (FrameLegal s → slenOf s < offsetOf s + frameNOf s →
        exec .spectrum s = .next (failedState s 3#4 0x04#8 s.ops.slen))
    ∧ (NormalizeLegal s → slenOf s = 0 → exec .normalize s = .next (failedState s 3#4 0x04#8 s.ops.slen))

/-- R67, R198: the region check of the five commands that consume a series: the source first, then the result, with
nothing written; and a pair of regions that passes raises no BadAddress. -/
def Obligations.BadRegionsRaiseBadAddress : Prop :=
  ∀ (i : Instr) (s : State), s.status.err = false → ReachesRegionCheck i s →
    (s.cfg.memWords < srcOf s + slenOf s → exec i s = .next (failedState s 6#4 0x03#8 s.ops.src))
    ∧ (srcOf s + slenOf s ≤ s.cfg.memWords →
        s.cfg.memWords < dstOf s + resultWords i s
          ∨ (0 < slenOf s ∧ 0 < resultWords i s ∧ dstOf s < srcOf s + slenOf s ∧ srcOf s < dstOf s + resultWords i s) →
        exec i s = .next (failedState s 6#4 0x05#8 s.ops.dst))
    ∧ (RegionsOk s (resultWords i s) → ∀ t, exec i s = .next t → t.status.err = true → t.status.errCode ≠ 6#4)

/-- R197, R158, R159, R180, R140: InvalidParameter for operand registers outside their legal values, in the order each
command checks them, with nothing written. -/
def Obligations.IllegalOperandsRaiseInvalidParameter : Prop :=
  ∀ s : State, s.status.err = false →
    (¬FrameLegal s →
      exec .detect s = .next (failedState s 5#4 0x09#8 s.ops.frameN)
        ∧ exec .spectrum s = .next (failedState s 5#4 0x09#8 s.ops.frameN))
    ∧ (FrameLegal s → detFsOf s = 0 ∨ 2 ^ 32 ≤ detFsOf s → exec .detect s = .next (failedState s 5#4 0x0A#8 s.ops.detFs))
    ∧ (FrameLegal s → 1 ≤ detFsOf s → detFsOf s ≤ 2 ^ 32 - 1 →
        isFinite s.ops.ignoreHz = false ∨ flt s.ops.ignoreHz fzero = true →
        exec .detect s = .next (failedState s 5#4 0x0B#8 s.ops.ignoreHz))
    ∧ (FrameLegal s → 1 ≤ detFsOf s → detFsOf s ≤ 2 ^ 32 - 1 → isFinite s.ops.ignoreHz = true →
        flt s.ops.ignoreHz fzero = false → isFinite s.ops.minPeak = false →
        exec .detect s = .next (failedState s 5#4 0x0C#8 s.ops.minPeak))
    ∧ (isFinite s.ops.nrmSrcmax = false ∨ fgt s.ops.nrmSrcmax fzero = false →
        exec .normalize s = .next (failedState s 5#4 0x1C#8 s.ops.nrmSrcmax))
    ∧ (isFinite s.ops.nrmSrcmax = true → fgt s.ops.nrmSrcmax fzero = true → 2 ^ 32 ≤ dstmaxOf s →
        exec .normalize s = .next (failedState s 5#4 0x1D#8 s.ops.nrmDstmax))
    ∧ (isFinite s.ops.genMin = false → exec .genRange s = .next (failedState s 5#4 0x18#8 s.ops.genMin))
    ∧ (isFinite s.ops.genMin = true → isFinite s.ops.genMax = false →
        exec .genRange s = .next (failedState s 5#4 0x19#8 s.ops.genMax))
    ∧ (isFinite s.ops.genMin = true → isFinite s.ops.genMax = true → isFinite s.ops.genPrec = false →
        exec .genRange s = .next (failedState s 5#4 0x1A#8 s.ops.genPrec))

/-! ## The biquad (spec/40_biquad.md) -/

/-- R101, R102: the low-pass design writes all five coefficient registers from the formulas of the rules and changes
nothing else but the flags and `DLEN`. -/
def Obligations.DesignLpWritesTheTuple : Prop :=
  ∀ (s : State) (w norm b0 : Word),
    s.status.err = false → isFinite s.ops.bqFs = true → isFinite s.ops.bqFc = true →
    fgt s.ops.bqFc fzero = true → flt s.ops.bqFc (fdiv s.ops.bqFs ftwo) = true →
    w = tan s.cfg (fdiv (fmul fpi s.ops.bqFc) s.ops.bqFs) →
    norm = fdiv fone (fadd (fmul w (fadd w fsqrt2)) fone) → b0 = fmul (fmul w w) norm →
    (∀ c ∈ [b0, fmul ftwo b0, fmul (fmul ftwo (fsub (fmul w w) fone)) norm,
      fmul (fadd (fmul w (fsub w fsqrt2)) fone) norm], isFinite c = true) →
    exec .bqDesignLp s = .next
      { s with
          status := { s.status with done := true, incomplete := false }
          dlen := 0#64
          coeffs :=
            { b0 := b0, b1 := fmul ftwo b0, b2 := b0
              a1 := fmul (fmul ftwo (fsub (fmul w w) fone)) norm
              a2 := fmul (fadd (fmul w (fsub w fsqrt2)) fone) norm } }

/-- R101, R103: the high-pass design. -/
def Obligations.DesignHpWritesTheTuple : Prop :=
  ∀ (s : State) (w norm : Word),
    s.status.err = false → isFinite s.ops.bqFs = true → isFinite s.ops.bqFc = true →
    fgt s.ops.bqFc fzero = true → flt s.ops.bqFc (fdiv s.ops.bqFs ftwo) = true →
    w = tan s.cfg (fdiv (fmul fpi s.ops.bqFc) s.ops.bqFs) →
    norm = fdiv fone (fadd (fmul w (fadd w fsqrt2)) fone) →
    (∀ c ∈ [norm, fneg (fmul ftwo norm), fmul (fmul ftwo (fsub (fmul w w) fone)) norm,
      fmul (fadd (fmul w (fsub w fsqrt2)) fone) norm], isFinite c = true) →
    exec .bqDesignHp s = .next
      { s with
          status := { s.status with done := true, incomplete := false }
          dlen := 0#64
          coeffs :=
            { b0 := norm, b1 := fneg (fmul ftwo norm), b2 := norm
              a1 := fmul (fmul ftwo (fsub (fmul w w) fone)) norm
              a2 := fmul (fadd (fmul w (fsub w fsqrt2)) fone) norm } }

/-- R100, R102, R103: `b0 = b2 = b1 / 2` bit for bit for every low-pass tuple a design writes, and `b0 = b2 = -b1 / 2` for
every high-pass tuple. -/
def Obligations.DesignedTuplesKeepTheirRatio : Prop :=
  ∀ s t : State, s.status.err = false →
    (exec .bqDesignLp s = .next t → t.status.done = true →
      t.coeffs.b2 = t.coeffs.b0 ∧ fdiv t.coeffs.b1 ftwo = t.coeffs.b0)
    ∧ (exec .bqDesignHp s = .next t → t.status.done = true →
      t.coeffs.b2 = t.coeffs.b0 ∧ fdiv (fneg t.coeffs.b1) ftwo = t.coeffs.b0)

/-- R101, R102, R103, R192: a design with a bad sample rate, a cutoff outside (0, Nyquist) or a coefficient that is not
finite writes no coefficient; a finite sample rate that is not positive is reported against `BQ_FC`. -/
def Obligations.DesignRejectsBadParameters : Prop :=
  ∀ (i : Instr) (s : State), s.status.err = false → i = .bqDesignLp ∨ i = .bqDesignHp →
    (isFinite s.ops.bqFs = false → exec i s = .next (failedState s 1#4 0x10#8 s.ops.bqFs))
    ∧ (isFinite s.ops.bqFs = true → fle s.ops.bqFs fzero = true → exec i s = .next (failedState s 1#4 0x11#8 s.ops.bqFc))
    ∧ (isFinite s.ops.bqFs = true →
        ¬(isFinite s.ops.bqFc = true ∧ fgt s.ops.bqFc fzero = true ∧ flt s.ops.bqFc (fdiv s.ops.bqFs ftwo) = true) →
        exec i s = .next (failedState s 1#4 0x11#8 s.ops.bqFc))
    ∧ (isFinite s.ops.bqFs = true →
        (isFinite s.ops.bqFc = true ∧ fgt s.ops.bqFc fzero = true ∧ flt s.ops.bqFc (fdiv s.ops.bqFs ftwo) = true) →
        coeffsFinite ((if i = .bqDesignLp then lowPass else highPass) s.cfg s.ops.bqFs s.ops.bqFc) = false →
        exec i s = .next (failedState s 1#4 0x11#8 s.ops.bqFc))

/-- R105, R106: BQ_APPLY runs the direct form II recursion from zero history over the whole series. -/
def Obligations.BqApplyFiltersTheSeries : Prop :=
  ∀ (s : State) (xs : List Word),
    s.status.err = false → coeffsFinite s.coeffs = true → 0 < slenOf s → RegionsOk s (slenOf s) →
    xs.length = slenOf s → HoldsSeries s.mem (srcOf s) xs → AllFinite xs →
    ∃ t, exec .bqApply s = .next t ∧ Succeeded s t (slenOf s)
      ∧ (biquadRun s.coeffs xs fzero fzero).length = slenOf s
      ∧ HoldsSeries t.mem (dstOf s) (biquadRun s.coeffs xs fzero fzero)
      ∧ SameOutside s.mem t.mem (dstOf s) (slenOf s)
      ∧ t.hidden = { s.hidden with u1 := t.hidden.u1, u2 := t.hidden.u2 }

/-- R105, R195, R205: a sample that is not finite stops BQ_APPLY; the outputs before it stay and are counted. -/
def Obligations.BqApplyKeepsPartialResults : Prop :=
  ∀ (s : State) (xs : List Word) (w : Word),
    s.status.err = false → coeffsFinite s.coeffs = true → xs.length < slenOf s → RegionsOk s (slenOf s) →
    HoldsSeries s.mem (srcOf s) xs → AllFinite xs →
    readWord s.mem (srcOf s + xs.length) = some w → isFinite w = false →
    ∃ t, exec .bqApply s = .next t ∧ Failed s t 4#4 0x03#8 (BitVec.ofNat 64 xs.length) xs.length
      ∧ (biquadRun s.coeffs xs fzero fzero).length = xs.length
      ∧ HoldsSeries t.mem (dstOf s) (biquadRun s.coeffs xs fzero fzero)
      ∧ SameOutside s.mem t.mem (dstOf s) xs.length
      ∧ t.hidden = { s.hidden with u1 := t.hidden.u1, u2 := t.hidden.u2 }

/-- R105, R192, R200: the first coefficient register that is not finite, in the order B0 B1 B2 A1 A2 of the register
numbers 0x12 to 0x16, is reported by its number and its 64 bits. -/
def Obligations.BqApplyRejectsNonFiniteCoefficients : Prop :=
  ∀ (s : State) (before after : List (Word × BitVec 8)) (w : Word) (n : BitVec 8),
    s.status.err = false →
    [(s.coeffs.b0, 0x12#8), (s.coeffs.b1, 0x13#8), (s.coeffs.b2, 0x14#8), (s.coeffs.a1, 0x15#8), (s.coeffs.a2, 0x16#8)]
      = before ++ (w, n) :: after →
    (∀ q ∈ before, isFinite q.1 = true) → isFinite w = false →
    exec .bqApply s = .next (failedState s 1#4 n w)

/-! ## The FIR decimator (spec/41_fir_decimator.md) -/

/-- R121: at scales 2, 3, 4 and 8 each output is the rounded sum of products of the table and the samples of its window,
and the words no window covers are not looked at. -/
def Obligations.FirDecimateConvolves : Prop :=
  ∀ (s : State) (x : Nat → Word),
    s.status.err = false → ScaleLegal s → scaleOf s ≠ 1 → 0 < slenOf s → (tapsOf s).length ≤ slenOf s →
    RegionsOk s (firCount s) →
    (∀ k < firCount s, ∀ i < (tapsOf s).length,
      readWord s.mem (srcOf s + (k * scaleOf s + i)) = some (x (k * scaleOf s + i))
        ∧ isFinite (x (k * scaleOf s + i)) = true) →
    ∃ t, exec .firDecimate s = .next t ∧ Succeeded s t (firCount s)
      ∧ HoldsSeries t.mem (dstOf s) (firOutputs (tapsOf s) (scaleOf s) (firCount s) x)
      ∧ SameOutside s.mem t.mem (dstOf s) (firCount s) ∧ t.hidden = s.hidden

/-- R123: at scale 1 the `SLEN` input words appear at `DST` bit for bit, finite or not, and `DLEN = SLEN`. -/
def Obligations.FirScaleOneCopies : Prop :=
  ∀ (s : State) (xs : List Word),
    s.status.err = false → scaleOf s = 1 → 0 < slenOf s → RegionsOk s (slenOf s) →
    xs.length = slenOf s → HoldsSeries s.mem (srcOf s) xs →
    ∃ t, exec .firDecimate s = .next t ∧ Succeeded s t (slenOf s) ∧ HoldsSeries t.mem (dstOf s) xs
      ∧ SameOutside s.mem t.mem (dstOf s) (slenOf s) ∧ t.hidden = s.hidden

/-- R122: output `k` exists exactly when `k * scale + taps < len`, which for `len >= taps` is the count
`ceil_div(len - taps, scale)`. -/
def Obligations.FirOutputCountIsTheLoopCount : Prop :=
  ∀ s t : State, s.status.err = false → scaleOf s ≠ 1 → exec .firDecimate s = .next t → t.status.done = true →
    (∀ k, k < t.dlen.toNat ↔ k * scaleOf s + (tapsOf s).length < slenOf s)
    ∧ slenOf s - (tapsOf s).length ≤ t.dlen.toNat * scaleOf s
    ∧ ∀ q, slenOf s - (tapsOf s).length ≤ q * scaleOf s → t.dlen.toNat ≤ q

/-- R193: UnsupportedScale is raised by FIR_DECIMATE only, exactly when `SCALE` is not 1, 2, 3, 4 or 8, with
`ERRREG = 0x07`, `ERRINFO` the register, `DLEN = 0` and nothing written. -/
def Obligations.OnlyUnsupportedScalesRaiseUnsupportedScale : Prop :=
  (∀ s : State, s.status.err = false → ¬ScaleLegal s → exec .firDecimate s = .next (failedState s 2#4 0x07#8 s.ops.scale))
  ∧ ∀ (i : Instr) (s t : State), s.status.err = false → exec i s = .next t → t.status.err = true →
      t.status.errCode = 2#4 → i = .firDecimate ∧ ¬ScaleLegal s

/-- R121, R195, R205: the first sample that is not finite, in the order outputs then taps, stops the convolution; the
outputs before it stay and are counted. -/
def Obligations.FirDecimateKeepsPartialResults : Prop :=
  ∀ (s : State) (x : Nat → Word) (k j : Nat) (w : Word),
    s.status.err = false → ScaleLegal s → scaleOf s ≠ 1 → RegionsOk s (firCount s) → k < firCount s →
    (∀ p < k, ∀ i < (tapsOf s).length,
      readWord s.mem (srcOf s + (p * scaleOf s + i)) = some (x (p * scaleOf s + i))
        ∧ isFinite (x (p * scaleOf s + i)) = true) →
    k * scaleOf s ≤ j → j < k * scaleOf s + (tapsOf s).length →
    (∀ i, k * scaleOf s ≤ i → i < j → readWord s.mem (srcOf s + i) = some (x i) ∧ isFinite (x i) = true) →
    readWord s.mem (srcOf s + j) = some w → isFinite w = false →
    ∃ t, exec .firDecimate s = .next t ∧ Failed s t 4#4 0x03#8 (BitVec.ofNat 64 j) k
      ∧ HoldsSeries t.mem (dstOf s) (firOutputs (tapsOf s) (scaleOf s) k x)
      ∧ SameOutside s.mem t.mem (dstOf s) k ∧ t.hidden = s.hidden

/-! ## The frequency-list generator (spec/42_freq_list.md) -/

/-- R140: GEN_RANGE writes the sweep from `GEN_MAX` down to above `GEN_MIN` in ascending order. -/
def Obligations.GenRangeWritesTheSweep : Prop :=
  ∀ (s : State) (l : List Word),
    s.status.err = false → isFinite s.ops.genMin = true → isFinite s.ops.genMax = true → isFinite s.ops.genPrec = true →
    SweepsTo s.ops.genMin s.ops.genPrec s.ops.genMax l → dstOf s + l.length ≤ s.cfg.memWords →
    ∃ t, exec .genRange s = .next t ∧ Succeeded s t l.length ∧ HoldsSeries t.mem (dstOf s) l.reverse
      ∧ SameOutside s.mem t.mem (dstOf s) l.length ∧ t.hidden = s.hidden

/-- R140, R142: the list a GEN_RANGE leaves is strictly increasing, its first element is above `GEN_MIN`, its last is
`GEN_MAX`, every other is an integer, and it is empty exactly when `GEN_MAX` is not above `GEN_MIN`. -/
def Obligations.GenRangeListIsStrictlyIncreasing : Prop :=
  ∀ s t : State, buildOk s.cfg = true → s.status.err = false → exec .genRange s = .next t → t.status.done = true →
    ∃ l : List Word, l.length = t.dlen.toNat ∧ HoldsSeries t.mem (dstOf s) l
      ∧ l.Pairwise (fun x y => flt x y = true) ∧ (∀ x ∈ l, fgt x s.ops.genMin = true)
      ∧ (l = [] ↔ fgt s.ops.genMax s.ops.genMin = false) ∧ (∀ x ∈ l.getLast?, x = s.ops.genMax)
      ∧ ∀ x ∈ l.dropLast, isFinite x = true ∧ (one1074 : Int) ∣ scaled x

/-- R140, R141, R198: a step that does not lower the frequency is reported against `GEN_PREC` if the list still has room
for the value it stands at, else the missing room is reported against `DST`; nothing is written. -/
def Obligations.GenRangeStopsWithoutProgressOrRoom : Prop :=
  ∀ s : State, s.status.err = false → isFinite s.ops.genMin = true → isFinite s.ops.genMax = true →
    isFinite s.ops.genPrec = true →
    (∀ n, SweepStalls s.ops.genMin s.ops.genPrec s.ops.genMax n →
      (dstOf s + n + 1 ≤ s.cfg.memWords → exec .genRange s = .next (failedState s 5#4 0x1A#8 s.ops.genPrec))
      ∧ (s.cfg.memWords < dstOf s + n + 1 → exec .genRange s = .next (failedState s 6#4 0x05#8 s.ops.dst)))
    ∧ (∀ l, SweepsTo s.ops.genMin s.ops.genPrec s.ops.genMax l → s.cfg.memWords < dstOf s + l.length →
        exec .genRange s = .next (failedState s 6#4 0x05#8 s.ops.dst))

/-! ## The spectral peak detector (spec/43_spectral_detector.md) -/

/-- R150 to R158: DETECT writes one record of three words per whole frame, in frame order, and looks at no word of the
dropped tail. `frameRecord` writes the record out from R153 to R157; in a legal build its `GEAR_DIV` is 8.0 (R13). -/
def Obligations.DetectWritesRecords : Prop :=
  ∀ (s : State) (xs : List Word),
    s.status.err = false → DetectLegal s → frameNOf s ≤ slenOf s → RegionsOk s (3 * (slenOf s / frameNOf s)) →
    xs.length = slenOf s / frameNOf s * frameNOf s → HoldsSeries s.mem (srcOf s) xs → AllFinite xs →
    ∃ t, exec .detect s = .next t ∧ Succeeded s t (slenOf s / frameNOf s)
      ∧ HoldsSeries t.mem (dstOf s) (detections s (slenOf s / frameNOf s) xs)
      ∧ (detections s (slenOf s / frameNOf s) xs).length = 3 * (slenOf s / frameNOf s)
      ∧ (∀ fr k, fr < slenOf s / frameNOf s → k < 3 →
          readWord t.mem (dstOf s + 3 * fr + k) = (frameRecord s (frameOf (frameNOf s) fr xs))[k]?)
      ∧ (buildOk s.cfg = true → s.cfg.gearDiv = 0x4020000000000000#64)
      ∧ SameOutside s.mem t.mem (dstOf s) (3 * (slenOf s / frameNOf s))
      ∧ t.hidden.u1 = s.hidden.u1 ∧ t.hidden.u2 = s.hidden.u2

/-- R158, R160, R205: the lowest frame with a sample that is not finite stops DETECT at that sample; the records of the
frames before it stay and are counted. -/
def Obligations.DetectKeepsPartialRecords : Prop :=
  ∀ (s : State) (xs : List Word) (w : Word),
    s.status.err = false → DetectLegal s → RegionsOk s (3 * (slenOf s / frameNOf s)) →
    xs.length < slenOf s / frameNOf s * frameNOf s → HoldsSeries s.mem (srcOf s) xs → AllFinite xs →
    readWord s.mem (srcOf s + xs.length) = some w → isFinite w = false →
    ∃ t, exec .detect s = .next t
      ∧ Failed s t 4#4 0x03#8 (BitVec.ofNat 64 xs.length) (xs.length / frameNOf s)
      ∧ HoldsSeries t.mem (dstOf s) (detections s (xs.length / frameNOf s) xs)
      ∧ (∀ fr k, fr < xs.length / frameNOf s → k < 3 →
          readWord t.mem (dstOf s + 3 * fr + k) = (frameRecord s (frameOf (frameNOf s) fr xs))[k]?)
      ∧ (buildOk s.cfg = true → s.cfg.gearDiv = 0x4020000000000000#64)
      ∧ SameOutside s.mem t.mem (dstOf s) (3 * (xs.length / frameNOf s))
      ∧ t.hidden.u1 = s.hidden.u1 ∧ t.hidden.u2 = s.hidden.u2

/-- R162, R156, R157: a frame whose peak is below the threshold reports frequency +0.0, the peak as found and RPM +0.0. -/
def Obligations.NoiseGateReportsThePeak : Prop :=
  ∀ (s : State) (xs : List Word) (fr : Nat),
    s.status.err = false → buildOk s.cfg = true → DetectLegal s → frameNOf s ≤ slenOf s →
    RegionsOk s (3 * (slenOf s / frameNOf s)) →
    xs.length = slenOf s / frameNOf s * frameNOf s → HoldsSeries s.mem (srcOf s) xs → AllFinite xs →
    fr < slenOf s / frameNOf s →
    flt (framePeak s (frameOf (frameNOf s) fr xs)).1 s.ops.minPeak = true →
    ∃ t, exec .detect s = .next t ∧ readWord t.mem (dstOf s + 3 * fr) = some fzero
      ∧ readWord t.mem (dstOf s + 3 * fr + 1) = some (framePeak s (frameOf (frameNOf s) fr xs)).1
      ∧ readWord t.mem (dstOf s + 3 * fr + 2) = some fzero

/-- R155: the peak search answers the first of the greatest magnitudes among the scanned bins, those at or above `skip`
and below `floor(N / 2)`, or magnitude +0.0 and index 0 when none of them is above zero. -/
def Obligations.PeakIsTheFirstMaximum : Prop :=
  ∀ (skip : Word) (n : Nat) (mags : List Word), mags.length = n →
    (peakSearch skip n mags = (fzero, 0)
      ∧ ∀ j x, j < n / 2 → mags[j]? = some x → fge (u2f j) skip = true → fgt x fzero = false)
    ∨ ((peakSearch skip n mags).2 < n / 2 ∧ mags[(peakSearch skip n mags).2]? = some (peakSearch skip n mags).1
      ∧ fge (u2f (peakSearch skip n mags).2) skip = true ∧ fgt (peakSearch skip n mags).1 fzero = true
      ∧ ∀ j x, j < n / 2 → mags[j]? = some x → fge (u2f j) skip = true →
          fgt x (peakSearch skip n mags).1 = false
            ∧ (j < (peakSearch skip n mags).2 → fge x (peakSearch skip n mags).1 = false))

/-- R154: with legal operands `skip` is at least 1, so bin 0 is never scanned. -/
def Obligations.BinZeroIsNeverScanned : Prop :=
  ∀ s : State, DetectLegal s → fge (firstScanned s) fone = true ∧ fge (u2f 0) (firstScanned s) = false

/-- R153: for a finite answer of the transform the magnitude is a number and not negative. -/
def Obligations.MagnitudesAreNotNegative : Prop :=
  ∀ re im : Word, isFinite re = true → isFinite im = true →
    isNan (fsqrt (fadd (fmul re re) (fmul im im))) = false ∧ signBit (fsqrt (fadd (fmul re re) (fmul im im))) = false

/-- R159: SPECTRUM writes the raw magnitudes of the one frame at `OFFSET` and looks at no other word. -/
def Obligations.SpectrumWritesRawMagnitudes : Prop :=
  ∀ (s : State) (xs : List Word),
    s.status.err = false → FrameLegal s → offsetOf s + frameNOf s ≤ slenOf s → RegionsOk s (frameNOf s) →
    xs.length = frameNOf s → HoldsSeries s.mem (srcOf s + offsetOf s) xs → AllFinite xs →
    ∃ t, exec .spectrum s = .next t ∧ Succeeded s t (frameNOf s)
      ∧ HoldsSeries t.mem (dstOf s)
          ((xfRe s.cfg xs).zipWith (fun re im => fsqrt (fadd (fmul re re) (fmul im im))) (xfIm s.cfg xs))
      ∧ (xfRe s.cfg xs).length = frameNOf s ∧ (xfIm s.cfg xs).length = frameNOf s
      ∧ SameOutside s.mem t.mem (dstOf s) (frameNOf s)
      ∧ t.hidden.u1 = s.hidden.u1 ∧ t.hidden.u2 = s.hidden.u2

/-- R159, R195: a sample of the frame that is not finite stops SPECTRUM with nothing written. -/
def Obligations.SpectrumKeepsNothingOnAMalformedSample : Prop :=
  ∀ (s : State) (xs : List Word) (w : Word),
    s.status.err = false → FrameLegal s → offsetOf s + frameNOf s ≤ slenOf s → RegionsOk s (frameNOf s) →
    xs.length < frameNOf s → HoldsSeries s.mem (srcOf s + offsetOf s) xs → AllFinite xs →
    readWord s.mem (srcOf s + offsetOf s + xs.length) = some w → isFinite w = false →
    ∃ t, exec .spectrum s = .next t
      ∧ Failed s t 4#4 0x03#8 (BitVec.ofNat 64 (offsetOf s + xs.length)) 0 ∧ t.mem = s.mem
      ∧ t.hidden = { s.hidden with frame := t.hidden.frame }

/-! ## The normalizer (spec/44_normalizer.md) -/

/-- R180: NORMALIZE writes the clamped integer of each rescaled sample. -/
def Obligations.NormalizeRescales : Prop :=
  ∀ (s : State) (xs : List Word),
    s.status.err = false → NormalizeLegal s → 0 < slenOf s → RegionsOk s (slenOf s) →
    xs.length = slenOf s → HoldsSeries s.mem (srcOf s) xs → AllFinite xs →
    ∃ t, exec .normalize s = .next t ∧ Succeeded s t (slenOf s)
      ∧ HoldsSeries t.mem (dstOf s) (xs.map fun v =>
          let r := roundInt (fdiv (fmul v (u2f (dstmaxOf s + 1))) s.ops.nrmSrcmax)
          if flt r fzero = true then 0#64
          else if fgt r (u2f (dstmaxOf s)) = true then s.ops.nrmDstmax
          else BitVec.ofNat 64 (f2u r))
      ∧ SameOutside s.mem t.mem (dstOf s) (slenOf s) ∧ t.hidden = s.hidden

/-- R180, R205: a sample that is not finite stops NORMALIZE; the results before it stay and are counted. -/
def Obligations.NormalizeKeepsPartialResults : Prop :=
  ∀ (s : State) (xs : List Word) (w : Word),
    s.status.err = false → NormalizeLegal s → xs.length < slenOf s → RegionsOk s (slenOf s) →
    HoldsSeries s.mem (srcOf s) xs → AllFinite xs →
    readWord s.mem (srcOf s + xs.length) = some w → isFinite w = false →
    ∃ t, exec .normalize s = .next t ∧ Failed s t 4#4 0x03#8 (BitVec.ofNat 64 xs.length) xs.length
      ∧ HoldsSeries t.mem (dstOf s) (xs.map (normalized s.ops.nrmSrcmax (dstmaxOf s)))
      ∧ SameOutside s.mem t.mem (dstOf s) xs.length ∧ t.hidden = s.hidden

/-- R181: a finite sample of `src_max` or more maps to exactly `dst_max`, a negative one to exactly 0, and every result
lies in `[0, dst_max]`. -/
def Obligations.NormalizeClamps : Prop :=
  ∀ (smax v : Word) (dmax : Nat),
    isFinite smax = true → fgt smax fzero = true → dmax ≤ 2 ^ 32 - 1 → isFinite v = true →
    (fge v smax = true → normalized smax dmax v = BitVec.ofNat 64 dmax)
    ∧ (flt v fzero = true → normalized smax dmax v = 0#64)
    ∧ (normalized smax dmax v).toNat ≤ dmax

/-! ## Arithmetic (spec/00_scope.md R16 to R19) -/

/-- R17: sum, difference, product and quotient of finite operands are the exact value rounded to nearest, ties to even,
with an infinity on overflow and the sign of the operands on a zero. -/
def Obligations.ArithmeticIsCorrectlyRounded : Prop :=
  ∀ a b : Word, isFinite a = true → isFinite b = true →
    RoundsTo (scaled a + scaled b) 1 (fadd a b) ∧ RoundsTo (scaled a - scaled b) 1 (fsub a b)
    ∧ RoundsTo (scaled a * scaled b) one1074 (fmul a b)
    ∧ (scaled b ≠ 0 →
        RoundsTo (if signBit b = true then -(scaled a * one1074) else scaled a * one1074) (magUnits b) (fdiv a b))
    ∧ signBit (fmul a b) = (signBit a != signBit b)
    ∧ (scaled b ≠ 0 → signBit (fdiv a b) = (signBit a != signBit b))
    ∧ (scaled a + scaled b = 0 → signBit (fadd a b) = (signBit a && signBit b))
    ∧ (scaled a - scaled b = 0 → signBit (fsub a b) = (signBit a && !signBit b))

/-- R17: the square root of a positive finite operand is the real root rounded to nearest, ties to even. -/
def Obligations.SquareRootIsCorrectlyRounded : Prop :=
  ∀ a : Word, isFinite a = true → 0 < scaled a →
    isFinite (fsqrt a) = true ∧ signBit (fsqrt a) = false
    ∧ ∀ x : Word, isFinite x = true →
        |Real.sqrt (scaled a * one1074) - scaled (fsqrt a)| ≤ |Real.sqrt (scaled a * one1074) - scaled x|
        ∧ (|Real.sqrt (scaled a * one1074) - scaled (fsqrt a)| = |Real.sqrt (scaled a * one1074) - scaled x| →
            scaled x ≠ scaled (fsqrt a) → fracField (fsqrt a) % 2 = 0)

/-- R17: what the operations give on infinities, NaNs, zeros and negative operands of a root, the invalid cases and those
with a defined result; `fneg` flips the sign. Which NaN an invalid operation gives is free (log 2). -/
def Obligations.OperationsOnSpecialOperands : Prop :=
  ∀ a b : Word,
    (isNan a = true ∨ isNan b = true →
      isNan (fadd a b) = true ∧ isNan (fsub a b) = true ∧ isNan (fmul a b) = true ∧ isNan (fdiv a b) = true)
    ∧ (isNan a = true → isNan (fsqrt a) = true)
    ∧ (isInf a = true → isInf b = true →
        (signBit a ≠ signBit b → isNan (fadd a b) = true) ∧ (signBit a = signBit b → isNan (fsub a b) = true)
        ∧ isNan (fdiv a b) = true)
    ∧ (isInf a = true → scaled b = 0 → isNan (fmul a b) = true ∧ isNan (fmul b a) = true)
    ∧ (scaled a = 0 → scaled b = 0 → isNan (fdiv a b) = true)
    ∧ (isFinite a = true → scaled a ≠ 0 → scaled b = 0 →
        isInf (fdiv a b) = true ∧ signBit (fdiv a b) = (signBit a != signBit b))
    ∧ (isInf a = true → isFinite b = true →
        fadd a b = a ∧ fadd b a = a ∧ fsub a b = a ∧ fsub b a = fneg a)
    ∧ (isInf a = true → isInf b = true →
        (signBit a = signBit b → fadd a b = a) ∧ (signBit a ≠ signBit b → fsub a b = a))
    ∧ (isInf a = true → isNan b = false → scaled b ≠ 0 →
        isInf (fmul a b) = true ∧ signBit (fmul a b) = (signBit a != signBit b)
          ∧ isInf (fmul b a) = true ∧ signBit (fmul b a) = (signBit a != signBit b))
    ∧ (isInf a = true → isFinite b = true →
        isInf (fdiv a b) = true ∧ signBit (fdiv a b) = (signBit a != signBit b)
          ∧ scaled (fdiv b a) = 0 ∧ signBit (fdiv b a) = (signBit a != signBit b))
    ∧ (isInf a = true → signBit a = false → fsqrt a = a)
    ∧ fsqrt fzero = fzero
    ∧ (scaled a < 0 → isNan (fsqrt a) = true)
    ∧ (signBit (fneg a) = !signBit a ∧ magUnits (fneg a) = magUnits a)

/-- R18: `round_int` of every F64, with the rule's examples. -/
def Obligations.RoundIntIsNearestTiesUp : Prop :=
  (∀ a : Word, isFinite a = true →
    ∃ n : Int, isFinite (roundInt a) = true ∧ scaled (roundInt a) = n * one1074
      ∧ (2 * n - 1) * one1074 ≤ 2 * scaled a ∧ 2 * scaled a < (2 * n + 1) * one1074
      ∧ (n = 0 → roundInt a = if scaled a < 0 ∨ a = 0x8000000000000000#64 then 0x8000000000000000#64 else fzero))
  ∧ (∀ a : Word, isFinite a = false → roundInt a = a)
  ∧ roundInt 0x4004000000000000#64 = 0x4008000000000000#64
  ∧ roundInt 0xC004000000000000#64 = 0xC000000000000000#64
  ∧ roundInt 0x3FE0000000000000#64 = 0x3FF0000000000000#64
  ∧ roundInt 0xBFE0000000000000#64 = 0x8000000000000000#64
  ∧ roundInt 0x3FDFFFFFFFFFFFFF#64 = 0x0000000000000000#64
  ∧ roundInt 0xBFC999999999999A#64 = 0x8000000000000000#64

/-- R19: `fceil`, the comparisons, `u2f` and `f2u` on the domains the rule gives them, and the constants. -/
def Obligations.CeilingComparisonsAndConversions : Prop :=
  (∀ a : Word, isFinite a = true →
    ∃ n : Int, isFinite (fceil a) = true ∧ scaled (fceil a) = n * one1074
      ∧ (n - 1) * one1074 < scaled a ∧ scaled a ≤ n * one1074
      ∧ (n = 0 → scaled a < 0 → fceil a = 0x8000000000000000#64))
  ∧ (∀ a : Word, isFinite a = false → fceil a = a)
  ∧ (∀ a b : Word, isNan a = true ∨ isNan b = true →
      flt a b = false ∧ fle a b = false ∧ fgt a b = false ∧ fge a b = false ∧ feq a b = false)
  ∧ (∀ a b : Word, isFinite a = true → isFinite b = true →
      (flt a b = true ↔ scaled a < scaled b) ∧ (fle a b = true ↔ scaled a ≤ scaled b)
      ∧ (fgt a b = true ↔ scaled b < scaled a) ∧ (fge a b = true ↔ scaled b ≤ scaled a)
      ∧ (feq a b = true ↔ scaled a = scaled b))
  ∧ (∀ a b : Word, isFinite a = true → isInf b = true →
      flt a b = !signBit b ∧ fle a b = !signBit b ∧ fgt a b = signBit b ∧ fge a b = signBit b ∧ feq a b = false)
  ∧ (∀ a b : Word, isInf a = true → isFinite b = true →
      flt a b = signBit a ∧ fle a b = signBit a ∧ fgt a b = !signBit a ∧ fge a b = !signBit a ∧ feq a b = false)
  ∧ (∀ a b : Word, isInf a = true → isInf b = true →
      flt a b = (signBit a && !signBit b) ∧ fle a b = (signBit a || !signBit b)
      ∧ fgt a b = (!signBit a && signBit b) ∧ fge a b = (!signBit a || signBit b)
      ∧ feq a b = (signBit a == signBit b))
  ∧ (∀ n : Nat, n < 2 ^ 53 → isFinite (u2f n) = true ∧ scaled (u2f n) = n * one1074)
  ∧ (∀ a : Word, isFinite a = true → 0 ≤ scaled a → (one1074 : Int) ∣ scaled a → scaled a < 2 ^ 64 * one1074 →
      (f2u a : Int) * one1074 = scaled a)
  ∧ fpi = 0x400921FB54442D18#64 ∧ fsqrt2 = 0x3FF6A09E667F3BCD#64
  ∧ fone = 0x3FF0000000000000#64 ∧ ftwo = 0x4000000000000000#64 ∧ fzero = 0x0000000000000000#64

/-! ## Host scripts (spec/30_encoding.md) -/

/-- R89, R88, R224: each macro that issues a command writes the operands it names and then runs that command on them;
COEFFS writes the five coefficient registers, and CLRERR and CLRDONE clear the flags. That pending transactions stand in a
queue is the model's choice (log 3). -/
def Obligations.MacrosWriteOperandsThenIssue : Prop :=
  ∀ (s : State) (rest : List HostOp) (a b c d e : Word),
    (s.inbox = macroDesignLp a b ++ rest →
      Sys2Proof.core.run 3 s = exec .bqDesignLp { s with inbox := rest, ops := { s.ops with bqFs := a, bqFc := b } })
    ∧ (s.inbox = macroDesignHp a b ++ rest →
      Sys2Proof.core.run 3 s = exec .bqDesignHp { s with inbox := rest, ops := { s.ops with bqFs := a, bqFc := b } })
    ∧ (s.inbox = macroApply a b c ++ rest →
      Sys2Proof.core.run 4 s
        = exec .bqApply { s with inbox := rest, ops := { s.ops with src := a, slen := b, dst := c } })
    ∧ (s.inbox = macroDecimate a b c d ++ rest →
      Sys2Proof.core.run 5 s
        = exec .firDecimate { s with inbox := rest, ops := { s.ops with src := a, slen := b, dst := c, scale := d } })
    ∧ (s.inbox = macroGenRange a b c d ++ rest →
      Sys2Proof.core.run 5 s
        = exec .genRange { s with inbox := rest, ops := { s.ops with genMin := a, genMax := b, genPrec := c, dst := d } })
    ∧ (s.inbox = macroDetect a b c d e ++ rest →
      Sys2Proof.core.run 6 s
        = exec .detect
            { s with inbox := rest, ops := { s.ops with src := a, slen := b, dst := c, detFs := d, frameN := e } })
    ∧ (s.inbox = macroSpectrum a b c d e ++ rest →
      Sys2Proof.core.run 6 s
        = exec .spectrum
            { s with inbox := rest, ops := { s.ops with src := a, slen := b, offset := c, frameN := d, dst := e } })
    ∧ (s.inbox = macroNormalize a b c d e ++ rest →
      Sys2Proof.core.run 6 s
        = exec .normalize
            { s with inbox := rest, ops := { s.ops with src := a, slen := b, dst := c, nrmSrcmax := d, nrmDstmax := e } })
    ∧ (s.inbox = macroCoeffs a b c d e ++ rest →
      Sys2Proof.core.run 5 s = .next { s with inbox := rest, coeffs := { b0 := a, b1 := b, b2 := c, a1 := d, a2 := e } })
    ∧ (s.inbox = macroClrErr ++ rest →
      Sys2Proof.core.run 1 s = .next
        { s with
            inbox := rest, errinfo := 0#64
            status := { s.status with err := false, incomplete := false, errCode := 0#4, errReg := 0#8 } })
    ∧ (s.inbox = macroClrDone ++ rest →
      Sys2Proof.core.run 1 s = .next { s with inbox := rest, status := { s.status with done := false } })

end
end

