-- ==== Sys2Proof/Laws/State.lean ====
section
/-! SUPPORT. One lemma per field per update of the state, true by definition, so that no proof unfolds a record update. -/

namespace Sys2Proof.Machine

/-! ### raise -/

@[simp] theorem raise_status (r : Reject) (kept : Word) (s : State) : (raise r kept s).status = errorFlags r.error r.errReg kept := rfl
@[simp] theorem raise_errinfo (r : Reject) (kept : Word) (s : State) : (raise r kept s).errinfo = r.info := rfl
@[simp] theorem raise_dlen (r : Reject) (kept : Word) (s : State) : (raise r kept s).dlen = kept := rfl
@[simp] theorem raise_ops (r : Reject) (kept : Word) (s : State) : (raise r kept s).ops = s.ops := rfl
@[simp] theorem raise_coeffs (r : Reject) (kept : Word) (s : State) : (raise r kept s).coeffs = s.coeffs := rfl
@[simp] theorem raise_hidden (r : Reject) (kept : Word) (s : State) : (raise r kept s).hidden = s.hidden := rfl
@[simp] theorem raise_mem (r : Reject) (kept : Word) (s : State) : (raise r kept s).mem = s.mem := rfl
@[simp] theorem raise_cfg (r : Reject) (kept : Word) (s : State) : (raise r kept s).cfg = s.cfg := rfl
@[simp] theorem raise_inbox (r : Reject) (kept : Word) (s : State) : (raise r kept s).inbox = s.inbox := rfl
@[simp] theorem raise_readData (r : Reject) (kept : Word) (s : State) : (raise r kept s).readData = s.readData := rfl

/-! ### complete -/

@[simp] theorem complete_status (n : Nat) (s : State) : (complete n s).status = successFlags s.status := rfl
@[simp] theorem complete_errinfo (n : Nat) (s : State) : (complete n s).errinfo = s.errinfo := rfl
@[simp] theorem complete_dlen (n : Nat) (s : State) : (complete n s).dlen = BitVec.ofNat 64 n := rfl
@[simp] theorem complete_ops (n : Nat) (s : State) : (complete n s).ops = s.ops := rfl
@[simp] theorem complete_coeffs (n : Nat) (s : State) : (complete n s).coeffs = s.coeffs := rfl
@[simp] theorem complete_hidden (n : Nat) (s : State) : (complete n s).hidden = s.hidden := rfl
@[simp] theorem complete_mem (n : Nat) (s : State) : (complete n s).mem = s.mem := rfl
@[simp] theorem complete_cfg (n : Nat) (s : State) : (complete n s).cfg = s.cfg := rfl
@[simp] theorem complete_inbox (n : Nat) (s : State) : (complete n s).inbox = s.inbox := rfl
@[simp] theorem complete_readData (n : Nat) (s : State) : (complete n s).readData = s.readData := rfl

/-! ### accept -/

@[simp] theorem accept_status (s : State) : (accept s).status = beginFlags s.status := rfl
@[simp] theorem accept_errinfo (s : State) : (accept s).errinfo = s.errinfo := rfl
@[simp] theorem accept_dlen (s : State) : (accept s).dlen = 0#64 := rfl
@[simp] theorem accept_ops (s : State) : (accept s).ops = s.ops := rfl
@[simp] theorem accept_coeffs (s : State) : (accept s).coeffs = s.coeffs := rfl
@[simp] theorem accept_hidden (s : State) : (accept s).hidden = s.hidden := rfl
@[simp] theorem accept_mem (s : State) : (accept s).mem = s.mem := rfl
@[simp] theorem accept_cfg (s : State) : (accept s).cfg = s.cfg := rfl
@[simp] theorem accept_inbox (s : State) : (accept s).inbox = s.inbox := rfl
@[simp] theorem accept_readData (s : State) : (accept s).readData = s.readData := rfl

/-! ### withWork -/

@[simp] theorem withWork_status (m : Memory) (h : Hidden) (s : State) : (withWork m h s).status = s.status := rfl
@[simp] theorem withWork_errinfo (m : Memory) (h : Hidden) (s : State) : (withWork m h s).errinfo = s.errinfo := rfl
@[simp] theorem withWork_dlen (m : Memory) (h : Hidden) (s : State) : (withWork m h s).dlen = s.dlen := rfl
@[simp] theorem withWork_ops (m : Memory) (h : Hidden) (s : State) : (withWork m h s).ops = s.ops := rfl
@[simp] theorem withWork_coeffs (m : Memory) (h : Hidden) (s : State) : (withWork m h s).coeffs = s.coeffs := rfl
@[simp] theorem withWork_hidden (m : Memory) (h : Hidden) (s : State) : (withWork m h s).hidden = h := rfl
@[simp] theorem withWork_mem (m : Memory) (h : Hidden) (s : State) : (withWork m h s).mem = m := rfl
@[simp] theorem withWork_cfg (m : Memory) (h : Hidden) (s : State) : (withWork m h s).cfg = s.cfg := rfl
@[simp] theorem withWork_inbox (m : Memory) (h : Hidden) (s : State) : (withWork m h s).inbox = s.inbox := rfl
@[simp] theorem withWork_readData (m : Memory) (h : Hidden) (s : State) : (withWork m h s).readData = s.readData := rfl

/-! ### applyReset -/

@[simp] theorem applyReset_status (s : State) : (applyReset s).status = Status.clear := rfl
@[simp] theorem applyReset_errinfo (s : State) : (applyReset s).errinfo = 0#64 := rfl
@[simp] theorem applyReset_dlen (s : State) : (applyReset s).dlen = 0#64 := rfl
@[simp] theorem applyReset_ops (s : State) : (applyReset s).ops = OperandRegs.afterReset s.cfg := rfl
@[simp] theorem applyReset_coeffs (s : State) : (applyReset s).coeffs = Coeffs.zero := rfl
@[simp] theorem applyReset_hidden (s : State) : (applyReset s).hidden = s.hidden := rfl
@[simp] theorem applyReset_mem (s : State) : (applyReset s).mem = s.mem := rfl
@[simp] theorem applyReset_cfg (s : State) : (applyReset s).cfg = s.cfg := rfl
@[simp] theorem applyReset_inbox (s : State) : (applyReset s).inbox = s.inbox := rfl
@[simp] theorem applyReset_readData (s : State) : (applyReset s).readData = s.readData := rfl

/-! ### flags -/

@[simp] theorem beginFlags_done (f : Status) : (beginFlags f).done = false := rfl
@[simp] theorem beginFlags_err (f : Status) : (beginFlags f).err = f.err := rfl
@[simp] theorem beginFlags_incomplete (f : Status) : (beginFlags f).incomplete = false := rfl
@[simp] theorem beginFlags_errCode (f : Status) : (beginFlags f).errCode = f.errCode := rfl
@[simp] theorem beginFlags_errReg (f : Status) : (beginFlags f).errReg = f.errReg := rfl
@[simp] theorem successFlags_done (f : Status) : (successFlags f).done = true := rfl
@[simp] theorem successFlags_err (f : Status) : (successFlags f).err = f.err := rfl
@[simp] theorem successFlags_incomplete (f : Status) : (successFlags f).incomplete = f.incomplete := rfl
@[simp] theorem successFlags_errCode (f : Status) : (successFlags f).errCode = f.errCode := rfl
@[simp] theorem successFlags_errReg (f : Status) : (successFlags f).errReg = f.errReg := rfl
@[simp] theorem errorFlags_done (e : ErrorCode) (r : BitVec 8) (k : Word) : (errorFlags e r k).done = false := rfl
@[simp] theorem errorFlags_err (e : ErrorCode) (r : BitVec 8) (k : Word) : (errorFlags e r k).err = true := rfl
@[simp] theorem errorFlags_incomplete (e : ErrorCode) (r : BitVec 8) (k : Word) :
    (errorFlags e r k).incomplete = (k != 0#64) := rfl
@[simp] theorem errorFlags_errCode (e : ErrorCode) (r : BitVec 8) (k : Word) :
    (errorFlags e r k).errCode = errorCodeBits e := rfl
@[simp] theorem errorFlags_errReg (e : ErrorCode) (r : BitVec 8) (k : Word) : (errorFlags e r k).errReg = r := rfl

/-! ### operands of an accepted state -/

@[simp] theorem srcOf_accept (s : State) : srcOf (accept s) = srcOf s := rfl
@[simp] theorem slenOf_accept (s : State) : slenOf (accept s) = slenOf s := rfl
@[simp] theorem dstOf_accept (s : State) : dstOf (accept s) = dstOf s := rfl
@[simp] theorem scaleOf_accept (s : State) : scaleOf (accept s) = scaleOf s := rfl
@[simp] theorem offsetOf_accept (s : State) : offsetOf (accept s) = offsetOf s := rfl
@[simp] theorem frameNOf_accept (s : State) : frameNOf (accept s) = frameNOf s := rfl
@[simp] theorem detFsOf_accept (s : State) : detFsOf (accept s) = detFsOf s := rfl
@[simp] theorem dstmaxOf_accept (s : State) : dstmaxOf (accept s) = dstmaxOf s := rfl

end Sys2Proof.Machine
end

