-- ==== Sys2Proof/Laws/Control.lean ====
section
/-! SUPPORT. What the shared control operations can do: the gate of a command, its checks, the region check. -/

namespace Sys2Proof.Machine

/-! ## `issue` -/

theorem issue_of_err (s : State) (run : State → Result) (h : s.status.err = true) : issue s run = .next s := by
  simp [issue, h]

theorem issue_of_ok (s : State) (run : State → Result) (h : s.status.err = false) : issue s run = run (accept s) := by
  simp [issue, h]

/-- Everything `issue` can do. -/
theorem issue_cases (s : State) (run : State → Result) :
    (s.status.err = true ∧ issue s run = .next s) ∨ (s.status.err = false ∧ issue s run = run (accept s)) := by
  cases h : s.status.err
  · exact .inr ⟨rfl, issue_of_ok s run h⟩
  · exact .inl ⟨rfl, issue_of_err s run h⟩

/-! ## `checked` -/

theorem checked_pass (s : State) (checks : List (Bool × Reject)) (run : Result) (h : ∀ c ∈ checks, c.1 = false) :
    checked s checks run = run := by
  have : checks.find? Prod.fst = none := by
    rw [List.find?_eq_none]
    intro c hc
    simp [h c hc]
  simp [checked, this]

/-- The first failing check is the one that is raised. -/
theorem checked_first (s : State) (before after : List (Bool × Reject)) (r : Reject) (run : Result)
    (h : ∀ c ∈ before, c.1 = false) : checked s (before ++ (true, r) :: after) run = .next (raise r 0#64 s) := by
  have hb : before.find? Prod.fst = none := by
    rw [List.find?_eq_none]
    intro c hc
    simp [h c hc]
  simp [checked, List.find?_append, hb]

/-- Everything `checked` can do: raise one of its rejects, or run when every check passes. -/
theorem checked_cases (s : State) (checks : List (Bool × Reject)) (run : Result) :
    (∃ c ∈ checks, c.1 = true ∧ checked s checks run = .next (raise c.2 0#64 s))
      ∨ ((∀ c ∈ checks, c.1 = false) ∧ checked s checks run = run) := by
  cases h : checks.find? Prod.fst with
  | none =>
    have hp : ∀ c ∈ checks, c.1 = false := by simpa [List.find?_eq_none] using h
    exact .inr ⟨hp, checked_pass s checks run hp⟩
  | some c =>
    refine .inl ⟨c, List.mem_of_find?_eq_some h, List.find?_some h, ?_⟩
    simp [checked, h]

/-! ## The region check -/

/-- The regions R67 accepts: source and result inside `DMEM`, and disjoint when neither is empty. -/
theorem regionChecks_pass_iff (s : State) (w : Nat) :
    (∀ c ∈ regionChecks s w, c.1 = false) ↔
      srcOf s + slenOf s ≤ s.cfg.memWords ∧ dstOf s + w ≤ s.cfg.memWords
        ∧ (0 < slenOf s → 0 < w → srcOf s + slenOf s ≤ dstOf s ∨ dstOf s + w ≤ srcOf s) := by
  simp only [regionChecks, List.forall_mem_cons, List.not_mem_nil, false_implies, implies_true, and_true,
    decide_eq_false_iff_not, Bool.or_eq_false_iff, Bool.and_eq_false_iff, Bool.not_eq_false', Bool.or_eq_true,
    decide_eq_true_eq, not_lt]
  constructor
  · rintro ⟨h1, h2, h3⟩
    refine ⟨h1, h2, fun hs hw => ?_⟩
    rcases h3 with (h | h) | h
    · omega
    · omega
    · exact h
  · rintro ⟨h1, h2, h3⟩
    refine ⟨h1, h2, ?_⟩
    by_cases hs : 0 < slenOf s
    · by_cases hw : 0 < w
      · exact .inr (h3 hs hw)
      · exact .inl (.inr (by omega))
    · exact .inl (.inl (by omega))

@[simp] theorem regionChecks_accept (s : State) (w : Nat) : regionChecks (accept s) w = regionChecks s w := rfl

end Sys2Proof.Machine
end

