-- ==== Sys2Proof/Laws/Memory.lean ====
section
/-! SUPPORT. The laws of data memory: a read after a write, what a write leaves alone, and the canonical form. -/

namespace Sys2Proof.Machine

/-! ## One byte -/

@[simp] theorem getByte_setByte_same (m : Memory) (a : Nat) (v : Byte) : getByte (setByte m a v) a = some v := by
  induction m with
  | nil => simp [setByte, getByte]
  | cons c rest ih =>
    obtain ⟨b, u⟩ := c
    by_cases h1 : a < b
    · simp [setByte, h1, getByte]
    · by_cases h2 : a = b <;> simp [setByte, h1, h2, getByte, ih]

theorem getByte_setByte_ne (m : Memory) (a x : Nat) (v : Byte) (hx : x ≠ a) :
    getByte (setByte m a v) x = getByte m x := by
  induction m with
  | nil => simp [setByte, getByte, hx]
  | cons c rest ih =>
    obtain ⟨b, u⟩ := c
    by_cases h1 : a < b
    · simp [setByte, h1, getByte, hx]
    · by_cases h2 : a = b
      · subst h2; simp [setByte, getByte, hx]
      · simp [setByte, h1, h2, getByte, ih]

/-! ## The canonical form -/

/-- Every listed address is above `a`. -/
def Above (a : Nat) (m : Memory) : Prop := ∀ c ∈ m, a < c.1

theorem wf_cons (a : Nat) (v : Byte) (m : Memory) :
    Memory.wf ((a, v) :: m) = true ↔ Above a m ∧ Memory.wf m = true := by
  induction m generalizing a v with
  | nil => simp [Memory.wf, Above]
  | cons c rest ih =>
    obtain ⟨b, u⟩ := c
    have hb := ih b u
    simp only [Memory.wf, Bool.and_eq_true, decide_eq_true_eq]
    constructor
    · rintro ⟨hab, hw⟩
      refine ⟨?_, hw⟩
      intro c hc
      rcases List.mem_cons.1 hc with rfl | hc
      · exact hab
      · exact lt_trans hab ((hb.1 hw).1 c hc)
    · rintro ⟨h, hw⟩
      exact ⟨h (b, u) (by simp), hw⟩

theorem above_setByte (m : Memory) (a x : Nat) (v : Byte) (h : Above x m) (hx : x < a) : Above x (setByte m a v) := by
  induction m with
  | nil => simpa [setByte, Above] using hx
  | cons c rest ih =>
    obtain ⟨b, u⟩ := c
    have hb : x < b := h (b, u) (by simp)
    have hr : Above x rest := fun c hc => h c (by simp [hc])
    intro c hc
    simp only [setByte] at hc
    split at hc
    · simp only [List.mem_cons] at hc
      rcases hc with rfl | rfl | hc
      · exact hx
      · exact hb
      · exact hr c hc
    · split at hc
      · rcases List.mem_cons.1 hc with rfl | hc
        · exact hx
        · exact hr c hc
      · rcases List.mem_cons.1 hc with rfl | hc
        · exact hb
        · exact ih hr c hc

/-- A byte write keeps the canonical form. -/
theorem wf_setByte (m : Memory) (a : Nat) (v : Byte) (h : Memory.wf m = true) : Memory.wf (setByte m a v) = true := by
  induction m with
  | nil => simp [setByte, Memory.wf]
  | cons c rest ih =>
    obtain ⟨b, u⟩ := c
    have hbr := (wf_cons b u rest).1 h
    by_cases h1 : a < b
    · simp only [setByte, h1, if_true]
      refine (wf_cons a v _).2 ⟨?_, h⟩
      intro c hc
      rcases List.mem_cons.1 hc with rfl | hc
      · exact h1
      · exact lt_trans h1 (hbr.1 c hc)
    · by_cases h2 : a = b
      · subst h2
        simp only [setByte, lt_irrefl, if_false, if_true]
        exact (wf_cons a v rest).2 hbr
      · simp only [setByte, h1, h2, if_false]
        exact (wf_cons b u _).2 ⟨above_setByte rest a b v hbr.1 (by omega), ih hbr.2⟩

theorem wf_setBytes (m : Memory) (a : Nat) (bs : List Byte) (h : Memory.wf m = true) :
    Memory.wf (setBytes m a bs) = true := by
  induction bs generalizing m a with
  | nil => exact h
  | cons b bs ih => exact ih _ _ (wf_setByte m a b h)

/-- A word write keeps the canonical form. -/
theorem wf_writeWord (m : Memory) (a : Nat) (v : Word) (h : Memory.wf m = true) :
    Memory.wf (writeWord m a v) = true := wf_setBytes m _ _ h

/-- A write of words keeps the canonical form. -/
theorem wf_writeWords (m : Memory) (a : Nat) (ws : List Word) (h : Memory.wf m = true) :
    Memory.wf (writeWords m a ws) = true := by
  induction ws generalizing m a with
  | nil => exact h
  | cons w ws ih => exact ih _ _ (wf_writeWord m a w h)

/-- Canonical memories that read the same at every byte address are the same data. -/
theorem memory_ext (m m' : Memory) (h : Memory.wf m = true) (h' : Memory.wf m' = true)
    (heq : ∀ x, getByte m x = getByte m' x) : m = m' := by
  have none_below : ∀ (m : Memory) (x : Nat), (∀ c ∈ m, x < c.1) → getByte m x = none := by
    intro m x hm
    induction m with
    | nil => rfl
    | cons c rest ih =>
      obtain ⟨b, u⟩ := c
      have : x < b := hm (b, u) (by simp)
      simp only [getByte]
      rw [if_neg (by omega)]
      exact ih fun c hc => hm c (by simp [hc])
  induction m generalizing m' with
  | nil =>
    cases m' with
    | nil => rfl
    | cons c rest =>
      obtain ⟨b, u⟩ := c
      have := heq b
      simp [getByte] at this
  | cons c rest ih =>
    obtain ⟨b, u⟩ := c
    have hb := (wf_cons b u rest).1 h
    cases m' with
    | nil => have := heq b; simp [getByte] at this
    | cons c' rest' =>
      obtain ⟨b', u'⟩ := c'
      have hb' := (wf_cons b' u' rest').1 h'
      have hbb : b = b' := by
        rcases lt_trichotomy b b' with hlt | heq' | hlt
        · have := heq b
          rw [none_below ((b', u') :: rest') b] at this
          · simp [getByte] at this
          · intro c hc
            rcases List.mem_cons.1 hc with rfl | hc
            · exact hlt
            · exact lt_trans hlt (hb'.1 c hc)
        · exact heq'
        · have := heq b'
          rw [none_below ((b, u) :: rest) b'] at this
          · simp [getByte] at this
          · intro c hc
            rcases List.mem_cons.1 hc with rfl | hc
            · exact hlt
            · exact lt_trans hlt (hb.1 c hc)
      subst hbb
      have hu : u = u' := by simpa [getByte] using heq b
      subst hu
      congr 1
      refine ih rest' hb.2 hb'.2 ?_
      intro x
      by_cases hx : x = b
      · subst hx
        rw [none_below rest x hb.1, none_below rest' x hb'.1]
      · simpa [getByte, hx] using heq x

/-! ## Runs of bytes -/

theorem getByte_setBytes_out (m : Memory) (a x : Nat) (bs : List Byte) (hx : x < a ∨ a + bs.length ≤ x) :
    getByte (setBytes m a bs) x = getByte m x := by
  induction bs generalizing m a with
  | nil => rfl
  | cons b bs ih =>
    simp only [List.length_cons] at hx
    rw [setBytes, ih _ _ (by omega), getByte_setByte_ne _ _ _ _ (by omega)]

theorem getByte_setBytes_in (m : Memory) (a i : Nat) (bs : List Byte) (hi : i < bs.length) :
    getByte (setBytes m a bs) (a + i) = some bs[i] := by
  induction bs generalizing m a i with
  | nil => simp at hi
  | cons b bs ih =>
    cases i with
    | zero => rw [setBytes, getByte_setBytes_out _ _ _ _ (by omega)]; simp
    | succ i =>
      have := ih (setByte m a b) (a + 1) i (by simpa using hi)
      rw [setBytes, show a + (i + 1) = a + 1 + i by omega, this]
      simp

theorem getBytes_congr (m m' : Memory) (a n : Nat) (h : ∀ i < n, getByte m (a + i) = getByte m' (a + i)) :
    getBytes m a n = getBytes m' a n := by
  induction n generalizing a with
  | zero => rfl
  | succ n ih =>
    have h0 := h 0 (by omega)
    simp only [Nat.add_zero] at h0
    rw [getBytes, getBytes, h0, ih (a + 1)]
    intro i hi
    have := h (i + 1) (by omega)
    rwa [show a + (i + 1) = a + 1 + i by omega] at this

theorem getBytes_eq_some (m : Memory) (a : Nat) (bs : List Byte)
    (h : ∀ i, (hi : i < bs.length) → getByte m (a + i) = some bs[i]) : getBytes m a bs.length = some bs := by
  induction bs generalizing a with
  | nil => rfl
  | cons b bs ih =>
    have h0 := h 0 (by simp)
    simp only [Nat.add_zero, List.getElem_cons_zero] at h0
    have := ih (a + 1) (by
      intro i hi
      have := h (i + 1) (by simpa using hi)
      rwa [show a + (i + 1) = a + 1 + i by omega] at this)
    simp [getBytes, h0, this]

@[simp] theorem toBytes_length (n v : Nat) : (toBytes n v).length = n := by
  induction n generalizing v with
  | zero => rfl
  | succ n ih => simp [toBytes, ih]

theorem ofBytes_toBytes (n v : Nat) : ofBytes (toBytes n v) = v % 2 ^ (8 * n) := by
  induction n generalizing v with
  | zero => simp [toBytes, ofBytes, Nat.mod_one]
  | succ n ih =>
    rw [toBytes, ofBytes, ih, show 8 * (n + 1) = 8 + 8 * n by omega, pow_add, Nat.mod_mul]
    simp

/-! ## Words -/

@[simp] theorem readWord_writeWord_same (m : Memory) (a : Nat) (v : Word) : readWord (writeWord m a v) a = some v := by
  have h : getBytes (writeWord m a v) (8 * a) 8 = some (toBytes 8 v.toNat) := by
    have := getBytes_eq_some (writeWord m a v) (8 * a) (toBytes 8 v.toNat)
      (fun i hi => getByte_setBytes_in m (8 * a) i _ hi)
    simpa using this
  rw [readWord, h, Option.map_some, ofBytes_toBytes]
  congr 1
  apply BitVec.eq_of_toNat_eq
  simp [v.isLt]

theorem getByte_writeWord_out (m : Memory) (a x : Nat) (v : Word) (hx : x < 8 * a ∨ 8 * a + 8 ≤ x) :
    getByte (writeWord m a v) x = getByte m x :=
  getByte_setBytes_out m _ _ _ (by simpa using hx)

theorem readWord_congr (m m' : Memory) (a : Nat) (h : ∀ i < 8, getByte m (8 * a + i) = getByte m' (8 * a + i)) :
    readWord m a = readWord m' a := by
  rw [readWord, readWord, getBytes_congr m m' _ _ h]

theorem readWord_writeWord_ne (m : Memory) (a b : Nat) (v : Word) (h : b ≠ a) :
    readWord (writeWord m a v) b = readWord m b :=
  readWord_congr _ _ _ fun i hi => getByte_writeWord_out m a _ v (by omega)

/-- A write of words leaves every byte outside them alone. -/
theorem getByte_writeWords_out (m : Memory) (a x : Nat) (ws : List Word) (hx : x < 8 * a ∨ 8 * (a + ws.length) ≤ x) :
    getByte (writeWords m a ws) x = getByte m x := by
  induction ws generalizing m a with
  | nil => rfl
  | cons w ws ih =>
    simp only [List.length_cons] at hx
    rw [writeWords, ih _ _ (by omega), getByte_writeWord_out _ _ _ _ (by omega)]

/-- A write of words leaves every other word alone. -/
theorem readWord_writeWords_out (m : Memory) (a b : Nat) (ws : List Word) (hb : b < a ∨ a + ws.length ≤ b) :
    readWord (writeWords m a ws) b = readWord m b :=
  readWord_congr _ _ _ fun i hi => getByte_writeWords_out m a _ ws (by omega)

/-- A write of words is read back word by word. -/
theorem readWord_writeWords_in (m : Memory) (a i : Nat) (ws : List Word) (hi : i < ws.length) :
    readWord (writeWords m a ws) (a + i) = some ws[i] := by
  induction ws generalizing m a i with
  | nil => simp at hi
  | cons w ws ih =>
    cases i with
    | zero => rw [writeWords, readWord_writeWords_out _ _ _ _ (by omega)]; simp
    | succ i =>
      rw [writeWords, show a + (i + 1) = a + 1 + i by omega, ih (writeWord m a w) (a + 1) i (by simpa using hi)]
      simp

theorem writeWords_append (m : Memory) (a : Nat) (xs ys : List Word) :
    writeWords m a (xs ++ ys) = writeWords (writeWords m a xs) (a + xs.length) ys := by
  induction xs generalizing m a with
  | nil => rfl
  | cons x xs ih =>
    simp only [List.cons_append, writeWords, ih, List.length_cons]
    rw [show a + 1 + xs.length = a + (xs.length + 1) by omega]

/-- Each written word has all of its bytes. -/
theorem getByte_writeWord_in (m : Memory) (a i : Nat) (v : Word) (hi : i < 8) :
    (getByte (writeWord m a v) (8 * a + i)).isSome = true := by
  rw [writeWord, getByte_setBytes_in m (8 * a) i _ (by simpa using hi)]
  rfl

end Sys2Proof.Machine
end

