-- ==== Sys2Proof/Laws/Series.lean ====
section
/-! SUPPORT. What the production of a series does, said once: the elements are those of the memory the command started
with, and they are written side by side from `dst` on. -/

namespace Sys2Proof.Machine

/-- The two memories read the same in the `len` words from `src` on. -/
def AgreeOn (src len : Nat) (m m' : Memory) : Prop := ∀ j < len, readWord m (src + j) = readWord m' (src + j)

theorem agreeOn_refl (src len : Nat) (m : Memory) : AgreeOn src len m m := fun _ _ => rfl

/-- How a run of elements over one memory ended. -/
inductive ElementsEnd where
  | finished (h : Hidden)
  | malformed (index : Nat) (h : Hidden)
  | unwritten (address : Nat)

/-- The elements from `k` on computed on ONE memory, with nothing written: the words of each, and how it ended. -/
def elements (element : Nat → Memory → Hidden → Element) (m : Memory) : Nat → Nat → Hidden → List (List Word) × ElementsEnd
  | 0, _, h => ([], .finished h)
  | todo + 1, k, h =>
    match element k m h with
    | .value h' ws => (ws :: (elements element m todo (k + 1) h').1, (elements element m todo (k + 1) h').2)
    | .malformed i h' => ([], .malformed i h')
    | .unwritten a => ([], .unwritten a)

/-- The end of a series whose elements, from element `k` on, are `wss`. -/
def seriesEnd (dst width k : Nat) (m : Memory) (wss : List (List Word)) : ElementsEnd → SeriesEnd
  | .finished h => .finished (writeWords m (dst + width * k) wss.flatten) h
  | .malformed i h => .malformed i (k + wss.length) (writeWords m (dst + width * k) wss.flatten) h
  | .unwritten a => .unwritten a

theorem elements_length_le (element : Nat → Memory → Hidden → Element) (m : Memory) (todo k : Nat) (h : Hidden) :
    (elements element m todo k h).1.length ≤ todo := by
  induction todo generalizing k h with
  | zero => simp [elements]
  | succ todo ih =>
    simp only [elements]
    split <;> simp [ih]

theorem elements_length_finished (element : Nat → Memory → Hidden → Element) (m : Memory) (todo k : Nat) (h h' : Hidden)
    (he : (elements element m todo k h).2 = .finished h') : (elements element m todo k h).1.length = todo := by
  induction todo generalizing k h with
  | zero => simp [elements]
  | succ todo ih =>
    simp only [elements] at he ⊢
    split at he
    · rename_i h1 ws heq
      simpa [heq] using ih _ _ he
    · cases he
    · cases he

theorem elements_width (element : Nat → Memory → Hidden → Element) (m : Memory) (width todo k : Nat) (h : Hidden)
    (hw : ∀ k h h' ws, element k m h = .value h' ws → ws.length = width) :
    ∀ ws ∈ (elements element m todo k h).1, ws.length = width := by
  induction todo generalizing k h with
  | zero => simp [elements]
  | succ todo ih =>
    intro ws hws
    simp only [elements] at hws
    split at hws
    · rename_i h' ws' heq
      rcases List.mem_cons.1 hws with rfl | hws
      · exact hw _ _ _ _ heq
      · exact ih _ _ _ hws
    · simp at hws
    · simp at hws

theorem flatten_length (width : Nat) (wss : List (List Word)) (h : ∀ ws ∈ wss, ws.length = width) :
    wss.flatten.length = width * wss.length := by
  induction wss with
  | nil => simp
  | cons ws wss ih =>
    simp only [List.flatten_cons, List.length_append, List.length_cons]
    rw [ih fun x hx => h x (by simp [hx]), h ws (by simp)]
    ring

/-- Everything `series` does, for elements that read only the source region and a result region disjoint from it. -/
theorem series_eq (element : Nat → Memory → Hidden → Element) (src len dst width count : Nat) (m0 : Memory)
    (hread : ∀ k h m m', k < count → AgreeOn src len m m' → element k m h = element k m' h)
    (hw : ∀ k h m h' ws, element k m h = .value h' ws → ws.length = width)
    (hdisj : len = 0 ∨ width * count = 0 ∨ src + len ≤ dst ∨ dst + width * count ≤ src)
    (todo k : Nat) (m : Memory) (h : Hidden) (hk : k + todo = count) (hm : AgreeOn src len m0 m) :
    series element dst width todo k m h
      = seriesEnd dst width k m (elements element m0 todo k h).1 (elements element m0 todo k h).2 := by
  induction todo generalizing k m h with
  | zero => simp [series, elements, seriesEnd, writeWords]
  | succ todo ih =>
    have he : element k m h = element k m0 h := (hread k h m0 m (by omega) hm).symm
    simp only [series, elements]
    rw [he]
    cases hel : element k m0 h with
    | value h' ws =>
      have hl : ws.length = width := hw _ _ _ _ _ hel
      have hm' : AgreeOn src len m0 (writeWords m (dst + width * k) ws) := by
        intro j hj
        rw [readWord_writeWords_out]
        · exact hm j hj
        · rw [hl]
          have h1 : width * k + width ≤ width * count := by
            have : width * (k + 1) ≤ width * count := Nat.mul_le_mul_left _ (by omega)
            nlinarith
          rcases hdisj with h0 | h0 | h0 | h0
          · omega
          · have hw0 : width = 0 := by
              rcases Nat.mul_eq_zero.1 h0 with h0 | h0
              · exact h0
              · omega
            subst hw0
            omega
          · left; omega
          · right; omega
      have hi := ih (k + 1) (writeWords m (dst + width * k) ws) h' (by omega) hm'
      have hpos : dst + width * k + ws.length = dst + width * (k + 1) := by rw [hl]; ring
      simp only [hi]
      cases (elements element m0 todo (k + 1) h').2 with
      | finished h2 => simp [seriesEnd, writeWords_append, hpos]
      | malformed i h2 =>
        simp only [seriesEnd, List.flatten_cons, writeWords_append, hpos, List.length_cons]
        rw [show k + ((elements element m0 todo (k + 1) h').1.length + 1)
            = k + 1 + (elements element m0 todo (k + 1) h').1.length by omega]
      | unwritten a => simp [seriesEnd]
    | malformed i h' => simp [seriesEnd, writeWords]
    | unwritten a => simp [seriesEnd]

/-- `series` from the start of a command. -/
theorem series_start (element : Nat → Memory → Hidden → Element) (src len dst width count : Nat) (m : Memory) (h : Hidden)
    (hread : ∀ k h m m', k < count → AgreeOn src len m m' → element k m h = element k m' h)
    (hw : ∀ k h m h' ws, element k m h = .value h' ws → ws.length = width)
    (hdisj : len = 0 ∨ width * count = 0 ∨ src + len ≤ dst ∨ dst + width * count ≤ src) :
    series element dst width count 0 m h
      = seriesEnd dst width 0 m (elements element m count 0 h).1 (elements element m count 0 h).2 :=
  series_eq element src len dst width count m hread hw hdisj count 0 m h (by omega) (agreeOn_refl _ _ _)

/-- A property of memory that every word write in the result region keeps is kept by a series. -/
theorem series_keeps (P : Memory → Prop) (element : Nat → Memory → Hidden → Element) (dst width count : Nat)
    (hw : ∀ k h m h' ws, element k m h = .value h' ws → ws.length = width)
    (hP : ∀ m a v, dst ≤ a → a < dst + width * count → P m → P (writeWord m a v))
    (todo k : Nat) (m : Memory) (h : Hidden) (hk : k + todo = count) (hm : P m) :
    match series element dst width todo k m h with
    | .finished m' _ => P m'
    | .malformed _ kept m' _ => P m' ∧ kept < count
    | .unwritten _ => True := by
  have hws : ∀ (ws : List Word) (m : Memory) (a : Nat), dst ≤ a → a + ws.length ≤ dst + width * count → P m →
      P (writeWords m a ws) := by
    intro ws
    induction ws with
    | nil => exact fun _ _ _ _ hm => hm
    | cons w ws ih =>
      intro m a ha hb hm
      simp only [List.length_cons] at hb
      exact ih _ _ (by omega) (by omega) (hP m a w ha (by omega) hm)
  induction todo generalizing k m h with
  | zero => simpa [series] using hm
  | succ todo ih =>
    simp only [series]
    cases hel : element k m h with
    | value h' ws =>
      refine ih (k + 1) _ h' (by omega) (hws ws m _ (by omega) ?_ hm)
      rw [hw _ _ _ _ _ hel]
      have : width * (k + 1) ≤ width * count := Nat.mul_le_mul_left _ (by omega)
      nlinarith
    | malformed i h' => exact ⟨hm, by omega⟩
    | unwritten a => trivial

end Sys2Proof.Machine
end

