-- ==== Sys2Proof/Laws/Commands.lean ====
section
/-! SUPPORT. What the elements of the series-producing commands read, write and answer; the whole effect of a series; the
elements of each command over a series of finite samples, as lists. -/

namespace Sys2Proof.Machine
open Sys2Proof.Config

/-! ## Accepting a command does not change what its checks look at -/

theorem designChecks_accept (design : Build → Word → Word → Coeffs) (s : State) :
    designChecks design (accept s) = designChecks design s := rfl
theorem applyChecks_accept (s : State) : applyChecks (accept s) = applyChecks s := rfl
theorem decimateChecks_accept (s : State) : decimateChecks (accept s) = decimateChecks s := rfl
theorem rangeChecks_accept (s : State) : rangeChecks (accept s) = rangeChecks s := rfl
theorem detectChecks_accept (s : State) : detectChecks (accept s) = detectChecks s := rfl
theorem spectrumChecks_accept (s : State) : spectrumChecks (accept s) = spectrumChecks s := rfl
theorem normalizeChecks_accept (s : State) : normalizeChecks (accept s) = normalizeChecks s := rfl

/-- An error raised on the accepted state, with nothing kept. -/
theorem raise_accept (s : State) (e : ErrorCode) (r : BitVec 8) (v : Word) :
    raise { error := e, errReg := r, info := v } 0#64 (accept s) = failedState s (errorCodeBits e) r v := rfl

/-- A check that fails behind checks that pass is the one that is raised. -/
theorem checked_at (s : State) (before after : List (Bool × Reject)) (b : Bool) (r : Reject) (run : Result)
    (hb : b = true) (h : ∀ c ∈ before, c.1 = false) :
    checked s (before ++ (b, r) :: after) run = .next (raise r 0#64 s) := by
  subst hb
  exact checked_first s before after r run h

theorem scaleSupported_iff (s : State) : scaleSupported (scaleOf s) = true ↔ ScaleLegal s := by
  simp [scaleSupported, ScaleLegal, or_assoc]

theorem frameBad_iff (s : State) : frameBad s = true ↔ ¬FrameLegal s := by
  simp only [frameBad, FrameLegal, Bool.or_eq_true, beq_iff_eq, decide_eq_true_eq, Bool.not_eq_true']
  cases xfSupports s.cfg (frameNOf s) <;> simp
  omega

theorem frameBad_eq_false_iff (s : State) : frameBad s = false ↔ FrameLegal s := by
  rw [← Bool.not_eq_true, frameBad_iff, not_not]

/-- A series in memory, read word by word. -/
theorem holdsSeries_iff (m : Memory) (a : Nat) (xs : List Word) :
    HoldsSeries m a xs ↔ ∀ i < xs.length, readWord m (a + i) = xs[i]? := by
  constructor
  · intro h i hi
    rw [List.getElem?_eq_getElem hi]
    exact h i _ (List.getElem?_eq_getElem hi)
  · intro h i w hw
    rw [← hw]
    exact h i (List.getElem?_eq_some_iff.1 hw).1

/-- A finite series, read as a Boolean. -/
theorem allFinite_iff (xs : List Word) : AllFinite xs ↔ xs.all isFinite = true := by
  simp [AllFinite, List.all_eq_true]

/-! ## Samples -/

theorem readSample_congr (m m' : Memory) (src idx : Nat) (h : readWord m (src + idx) = readWord m' (src + idx)) :
    readSample m src idx = readSample m' src idx := by simp [readSample, h]

/-- Everything reading a sample can do. -/
theorem readSample_cases (m : Memory) (src idx : Nat) :
    (∃ w, readWord m (src + idx) = some w ∧ isFinite w = true ∧ readSample m src idx = .got w)
      ∨ (∃ w, readWord m (src + idx) = some w ∧ isFinite w = false ∧ readSample m src idx = .malformed idx)
      ∨ (readWord m (src + idx) = none ∧ readSample m src idx = .unwritten (src + idx)) := by
  unfold readSample
  cases hr : readWord m (src + idx) with
  | none => exact .inr (.inr ⟨rfl, rfl⟩)
  | some w =>
    cases hf : isFinite w
    · exact .inr (.inl ⟨w, rfl, hf, by simp [hf]⟩)
    · exact .inl ⟨w, rfl, hf, by simp [hf]⟩

theorem readSample_got (m : Memory) (src idx : Nat) (w : Word) (h : readWord m (src + idx) = some w)
    (hf : isFinite w = true) : readSample m src idx = .got w := by simp [readSample, h, hf]

theorem readSample_malformed (m : Memory) (src idx : Nat) (w : Word) (h : readWord m (src + idx) = some w)
    (hf : isFinite w = false) : readSample m src idx = .malformed idx := by simp [readSample, h, hf]

theorem malformed_of_readSample {m : Memory} {src idx i : Nat} (h : readSample m src idx = .malformed i) :
    i = idx ∧ ∃ w, readWord m (src + i) = some w ∧ isFinite w = false := by
  rcases readSample_cases m src idx with ⟨w, h1, h2, h3⟩ | ⟨w, h1, h2, h3⟩ | ⟨h1, h3⟩
  · rw [h3] at h; cases h
  · rw [h3] at h; cases h; exact ⟨rfl, w, h1, h2⟩
  · rw [h3] at h; cases h

theorem unwritten_of_readSample {m : Memory} {src idx a : Nat} (h : readSample m src idx = .unwritten a) :
    a = src + idx ∧ readWord m a = none := by
  rcases readSample_cases m src idx with ⟨w, h1, h2, h3⟩ | ⟨w, h1, h2, h3⟩ | ⟨h1, h3⟩
  · rw [h3] at h; cases h
  · rw [h3] at h; cases h
  · rw [h3] at h; cases h; exact ⟨rfl, h1⟩

/-! ## What an element reads and answers -/

/-- The elements of a command look at nothing but the source region, and are `width` words wide. -/
structure ElementOk (element : Nat → Memory → Hidden → Element) (src len count width : Nat) : Prop where
  agree : ∀ k h m m', k < count → AgreeOn src len m m' → element k m h = element k m' h
  width : ∀ k h m h' ws, element k m h = .value h' ws → ws.length = width
  unwritten : ∀ k h m a, k < count → element k m h = .unwritten a → src ≤ a ∧ a < src + len ∧ readWord m a = none
  malformed : ∀ k h m i h', k < count → element k m h = .malformed i h' →
    i < len ∧ ∃ w, readWord m (src + i) = some w ∧ isFinite w = false

theorem biquadElement_ok (k : Coeffs) (src len : Nat) : ElementOk (biquadElement k src) src len len 1 where
  agree n h m m' hn ha := by simp [biquadElement, readSample_congr m m' src n (ha n hn)]
  width n h m h' ws he := by
    unfold biquadElement at he
    split at he <;> cases he
    rfl
  unwritten n h m a hn he := by
    unfold biquadElement at he
    split at he <;> cases he
    rename_i hu
    obtain ⟨rfl, hr⟩ := unwritten_of_readSample hu
    exact ⟨by omega, by omega, hr⟩
  malformed n h m i h' hn he := by
    unfold biquadElement at he
    split at he <;> cases he
    rename_i hu
    obtain ⟨rfl, hr⟩ := malformed_of_readSample hu
    exact ⟨hn, hr⟩

theorem normalizeElement_ok (smax : Word) (dmax src len : Nat) :
    ElementOk (normalizeElement smax dmax src) src len len 1 where
  agree n h m m' hn ha := by simp [normalizeElement, readSample_congr m m' src n (ha n hn)]
  width n h m h' ws he := by
    unfold normalizeElement at he
    split at he <;> cases he
    rfl
  unwritten n h m a hn he := by
    unfold normalizeElement at he
    split at he <;> cases he
    rename_i hu
    obtain ⟨rfl, hr⟩ := unwritten_of_readSample hu
    exact ⟨by omega, by omega, hr⟩
  malformed n h m i h' hn he := by
    unfold normalizeElement at he
    split at he <;> cases he
    rename_i hu
    obtain ⟨rfl, hr⟩ := malformed_of_readSample hu
    exact ⟨hn, hr⟩

theorem copyElement_ok (src len : Nat) : ElementOk (copyElement src) src len len 1 where
  agree n h m m' hn ha := by simp [copyElement, ha n hn]
  width n h m h' ws he := by
    unfold copyElement at he
    split at he <;> cases he
    rfl
  unwritten n h m a hn he := by
    unfold copyElement at he
    split at he <;> cases he
    exact ⟨by omega, by omega, by assumption⟩
  malformed n h m i h' hn he := by
    unfold copyElement at he
    split at he <;> cases he

/-! ### The convolution -/

theorem convolve_congr (m m' : Memory) (src : Nat) (table : List Word) (idx : Nat) (acc : Word)
    (h : ∀ i < table.length, readWord m (src + (idx + i)) = readWord m' (src + (idx + i))) :
    convolve m src table idx acc = convolve m' src table idx acc := by
  induction table generalizing idx acc with
  | nil => rfl
  | cons t ts ih =>
    have h0 := h 0 (by simp)
    simp only [Nat.add_zero] at h0
    simp only [convolve]
    rw [readSample_congr m m' src idx h0]
    split
    · apply ih
      intro i hi
      have := h (i + 1) (by simpa using hi)
      rwa [show idx + (i + 1) = idx + 1 + i by omega] at this
    · rfl
    · rfl

theorem convolve_unwritten {m : Memory} {src : Nat} {table : List Word} {idx a : Nat} {acc : Word}
    (h : convolve m src table idx acc = .unwritten a) :
    src + idx ≤ a ∧ a < src + idx + table.length ∧ readWord m a = none := by
  induction table generalizing idx acc with
  | nil => cases h
  | cons t ts ih =>
    simp only [convolve] at h
    split at h
    · have := ih h
      simp only [List.length_cons]
      exact ⟨by omega, by omega, this.2.2⟩
    · cases h
    · rename_i hu
      cases h
      obtain ⟨rfl, hr⟩ := unwritten_of_readSample hu
      simp [hr]

theorem convolve_malformed {m : Memory} {src : Nat} {table : List Word} {idx i : Nat} {acc : Word}
    (h : convolve m src table idx acc = .malformed i) :
    idx ≤ i ∧ i < idx + table.length ∧ ∃ w, readWord m (src + i) = some w ∧ isFinite w = false := by
  induction table generalizing idx acc with
  | nil => cases h
  | cons t ts ih =>
    simp only [convolve] at h
    split at h
    · have := ih h
      simp only [List.length_cons]
      exact ⟨by omega, by omega, this.2.2⟩
    · rename_i hu
      cases h
      obtain ⟨rfl, hr⟩ := malformed_of_readSample hu
      exact ⟨by omega, by simp, hr⟩
    · cases h

/-- The convolution over finite samples is the sum of products of the table and the window. -/
theorem convolve_got (m : Memory) (src : Nat) (table : List Word) (x : Nat → Word) (idx : Nat) (acc : Word)
    (h : ∀ i < table.length, readWord m (src + (idx + i)) = some (x (idx + i)) ∧ isFinite (x (idx + i)) = true) :
    convolve m src table idx acc = .got (firSum table ((List.range table.length).map fun i => x (idx + i)) acc) := by
  induction table generalizing idx acc with
  | nil => rfl
  | cons t ts ih =>
    have h0 := h 0 (by simp)
    simp only [Nat.add_zero] at h0
    simp only [convolve, readSample_got m src idx _ h0.1 h0.2, List.length_cons, List.range_succ_eq_map, List.map_cons,
      List.map_map, firSum, Nat.add_zero]
    rw [ih (idx + 1)]
    · congr 3
      funext i
      simp only [Function.comp_apply, Nat.succ_eq_add_one]
      congr 1
      omega
    · intro i hi
      have := h (i + 1) (by simpa using hi)
      rwa [show idx + (i + 1) = idx + 1 + i by omega] at this

/-- The convolution stops at the first sample of the window that is not finite. -/
theorem convolve_stops (m : Memory) (src : Nat) (table : List Word) (x : Nat → Word) (idx j : Nat) (acc : Word) (w : Word)
    (hj : idx ≤ j) (hlt : j < idx + table.length)
    (h : ∀ i, idx ≤ i → i < j → readWord m (src + i) = some (x i) ∧ isFinite (x i) = true)
    (hw : readWord m (src + j) = some w) (hf : isFinite w = false) :
    convolve m src table idx acc = .malformed j := by
  induction table generalizing idx acc with
  | nil => simp at hlt; omega
  | cons t ts ih =>
    simp only [convolve]
    rcases Nat.eq_or_lt_of_le hj with rfl | hlt'
    · rw [readSample_malformed m src idx w hw hf]
    · obtain ⟨h1, h2⟩ := h idx (le_refl _) hlt'
      rw [readSample_got m src idx _ h1 h2]
      exact ih (idx + 1) _ (by omega) (by simp at hlt; omega) fun i hi hij => h i (by omega) hij

/-- A window of the decimator lies inside the series (spec/41_fir_decimator.md R122). -/
theorem window_lt {scale taps len k : Nat} (hs : 0 < scale) (hk : k < ceilDiv (len - taps) scale) :
    k * scale + taps < len := by
  unfold ceilDiv at hk
  have h1 : k * scale + scale ≤ len - taps + scale - 1 := by
    have := (Nat.le_div_iff_mul_le hs).1 (Nat.succ_le_of_lt hk)
    rw [Nat.succ_mul] at this
    exact this
  omega

/-- The number of outputs is the number of windows that end before the series does (R122). -/
theorem lt_ceilDiv_iff {scale taps len k : Nat} (hs : 0 < scale) :
    k < ceilDiv (len - taps) scale ↔ k * scale + taps < len := by
  constructor
  · exact window_lt hs
  · intro h
    unfold ceilDiv
    rw [Nat.lt_div_iff_mul_lt hs] at *
    · have : k * scale < len - taps := by omega
      omega

theorem firElement_ok (table : List Word) (scale src len : Nat) (hs : 0 < scale) :
    ElementOk (firElement table scale src) src len (ceilDiv (len - table.length) scale) 1 where
  agree n h m m' hn ha := by
    have hw := window_lt hs hn
    simp only [firElement]
    rw [convolve_congr m m' src table (n * scale) fzero fun i hi => ha _ (by omega)]
  width n h m h' ws he := by
    unfold firElement at he
    split at he <;> cases he
    rfl
  unwritten n h m a hn he := by
    have hw := window_lt hs hn
    unfold firElement at he
    split at he <;> cases he
    rename_i hu
    have := convolve_unwritten hu
    exact ⟨by omega, by omega, this.2.2⟩
  malformed n h m i h' hn he := by
    have hw := window_lt hs hn
    unfold firElement at he
    split at he <;> cases he
    rename_i hu
    have := convolve_malformed hu
    exact ⟨by omega, this.2.2⟩

theorem scale_pos_of_supported {n : Nat} (h : scaleSupported n = true) : 0 < n := by
  rcases Nat.eq_zero_or_pos n with rfl | h'
  · simp [scaleSupported] at h
  · exact h'

/-- The elements of either form of FIR_DECIMATE. -/
theorem decimateElement_ok (s : State) (h : scaleSupported (scaleOf s) = true) :
    ElementOk (decimateElement s) (srcOf s) (slenOf s) (firCount s) 1 := by
  by_cases h1 : scaleOf s = 1
  · simp only [decimateElement, firCount, h1, if_true]
    exact copyElement_ok _ _
  · simp only [decimateElement, firCount, h1, if_false]
    exact firElement_ok _ _ _ _ (scale_pos_of_supported h)

/-! ### Loading a frame -/

theorem loadFrame_congr (m m' : Memory) (src n base : Nat)
    (h : ∀ i < n, readWord m (src + (base + i)) = readWord m' (src + (base + i))) :
    loadFrame m src n base = loadFrame m' src n base := by
  induction n generalizing base with
  | zero => rfl
  | succ n ih =>
    have h0 := h 0 (by omega)
    simp only [Nat.add_zero] at h0
    simp only [loadFrame]
    rw [readSample_congr m m' src base h0, ih (base + 1)]
    intro i hi
    have := h (i + 1) (by omega)
    rwa [show base + (i + 1) = base + 1 + i by omega] at this

/-- Everything loading a frame can do. -/
theorem loadFrame_cases (m : Memory) (src n base : Nat) :
    (∃ xs, loadFrame m src n base = .full xs ∧ xs.length = n)
      ∨ (∃ xs i, loadFrame m src n base = .malformed xs i ∧ i = base + xs.length ∧ xs.length < n
          ∧ ∃ w, readWord m (src + i) = some w ∧ isFinite w = false)
      ∨ (∃ a, loadFrame m src n base = .unwritten a ∧ src + base ≤ a ∧ a < src + base + n ∧ readWord m a = none) := by
  induction n generalizing base with
  | zero => exact .inl ⟨[], rfl, rfl⟩
  | succ n ih =>
    rcases readSample_cases m src base with ⟨w, h1, h2, h3⟩ | ⟨w, h1, h2, h3⟩ | ⟨h1, h3⟩
    · rcases ih (base + 1) with ⟨xs, hx, hl⟩ | ⟨xs, i, hx, hi, hl, hw⟩ | ⟨a, hx, ha1, ha2, hr⟩
      · exact .inl ⟨w :: xs, by simp [loadFrame, h3, hx, consLoad], by simp [hl]⟩
      · exact .inr (.inl ⟨w :: xs, i, by simp [loadFrame, h3, hx, consLoad], by simp; omega, by simp; omega, hw⟩)
      · exact .inr (.inr ⟨a, by simp [loadFrame, h3, hx, consLoad], by omega, by omega, hr⟩)
    · exact .inr (.inl ⟨[], base, by simp [loadFrame, h3], by simp, by simp, w, h1, h2⟩)
    · exact .inr (.inr ⟨src + base, by simp [loadFrame, h3], by omega, by omega, h1⟩)

/-- A frame of finite samples loads whole. -/
theorem loadFrame_full (m : Memory) (src base : Nat) (xs : List Word) (h : HoldsSeries m (src + base) xs)
    (hf : AllFinite xs) : loadFrame m src xs.length base = .full xs := by
  induction xs generalizing base with
  | nil => rfl
  | cons x xs ih =>
    have h0 := h 0 x rfl
    simp only [List.length_cons, loadFrame]
    rw [readSample_got m src base x (by simpa using h0) (hf x (by simp)), ih (base + 1)]
    · rfl
    · intro i w hi
      have := h (i + 1) w (by simpa using hi)
      rwa [show src + base + (i + 1) = src + (base + 1) + i by omega] at this
    · exact fun y hy => hf y (by simp [hy])

/-- A load stops at the first sample that is not finite. -/
theorem loadFrame_malformed (m : Memory) (src n base : Nat) (xs : List Word) (w : Word)
    (h : HoldsSeries m (src + base) xs) (hf : AllFinite xs) (hn : xs.length < n)
    (hw : readWord m (src + (base + xs.length)) = some w) (hwf : isFinite w = false) :
    loadFrame m src n base = .malformed xs (base + xs.length) := by
  induction xs generalizing base n with
  | nil =>
    obtain ⟨n, rfl⟩ : ∃ k, n = k + 1 := ⟨n - 1, by simp at hn; omega⟩
    simp only [loadFrame]
    rw [readSample_malformed m src base w (by simpa using hw) hwf]
    rfl
  | cons x xs ih =>
    obtain ⟨n, rfl⟩ : ∃ k, n = k + 1 := ⟨n - 1, by simp at hn; omega⟩
    have h0 := h 0 x rfl
    simp only [loadFrame]
    rw [readSample_got m src base x (by simpa using h0) (hf x (by simp)), ih n (base + 1)]
    · simp only [consLoad, List.length_cons]
      rw [show base + 1 + xs.length = base + (xs.length + 1) by omega]
    · intro i w hi
      have := h (i + 1) w (by simpa using hi)
      rwa [show src + base + (i + 1) = src + (base + 1) + i by omega] at this
    · exact fun y hy => hf y (by simp [hy])
    · simpa using hn
    · rw [show base + 1 + xs.length = base + (x :: xs).length by simp; omega]
      exact hw

theorem frame_end_le {n len fr : Nat} (h : fr < len / n) : fr * n + n ≤ len := by
  have h1 : fr * n + n ≤ len / n * n := by
    have := Nat.mul_le_mul_right n (Nat.succ_le_of_lt h)
    rwa [Nat.succ_mul] at this
  have := Nat.div_mul_le_self len n
  omega

theorem detection_length (s : State) (mags : List Word) : (detection s mags).length = 3 := rfl

theorem detectElement_ok (s : State) : ElementOk (detectElement s) (srcOf s) (slenOf s) (frameCount s) 3 where
  agree n h m m' hn ha := by
    have := frame_end_le hn
    simp only [detectElement]
    rw [loadFrame_congr m m' (srcOf s) (frameNOf s) (n * frameNOf s) fun i hi => ha _ (by omega)]
  width n h m h' ws he := by
    unfold detectElement at he
    split at he <;> cases he
    rfl
  unwritten n h m a hn he := by
    have := frame_end_le hn
    unfold detectElement at he
    rcases loadFrame_cases m (srcOf s) (frameNOf s) (n * frameNOf s) with ⟨xs, hx, _⟩ | ⟨xs, i, hx, _⟩ | ⟨b, hx, h1, h2, h3⟩ <;>
      simp only [hx] at he <;> cases he
    exact ⟨by omega, by omega, h3⟩
  malformed n h m i h' hn he := by
    have := frame_end_le hn
    unfold detectElement at he
    rcases loadFrame_cases m (srcOf s) (frameNOf s) (n * frameNOf s) with
      ⟨xs, hx, _⟩ | ⟨xs, j, hx, hj, hl, hw⟩ | ⟨b, hx, h1, h2, h3⟩ <;>
      simp only [hx] at he <;> cases he
    exact ⟨by omega, hw⟩

/-! ## The whole effect of a series -/

/-- Why the elements over one memory stop: at an element that answers so. -/
theorem elements_end (element : Nat → Memory → Hidden → Element) (m : Memory) (todo k : Nat) (h : Hidden) :
    match (elements element m todo k h).2 with
    | .finished _ => (elements element m todo k h).1.length = todo
    | .malformed i h' => ∃ g, k + (elements element m todo k h).1.length < k + todo
        ∧ element (k + (elements element m todo k h).1.length) m g = .malformed i h'
    | .unwritten a => ∃ j g, j < k + todo ∧ element j m g = .unwritten a := by
  induction todo generalizing k h with
  | zero => simp [elements]
  | succ todo ih =>
    simp only [elements]
    cases hel : element k m h with
    | value h' ws =>
      have hi := ih (k + 1) h'
      simp only
      cases hend : (elements element m todo (k + 1) h').2 with
      | finished g => simp only [hend] at hi; simpa using hi
      | malformed i g =>
        simp only [hend] at hi
        obtain ⟨g', h1, h2⟩ := hi
        refine ⟨g', by simp only [List.length_cons]; omega, ?_⟩
        rw [List.length_cons, show k + ((elements element m todo (k + 1) h').1.length + 1)
          = k + 1 + (elements element m todo (k + 1) h').1.length by omega]
        exact h2
      | unwritten a =>
        simp only [hend] at hi
        obtain ⟨j, g', h1, h2⟩ := hi
        exact ⟨j, g', by omega, h2⟩
    | malformed i h' => exact ⟨h, by simp, by simpa using hel⟩
    | unwritten a => exact ⟨k, h, by omega, hel⟩

/-- The regions of a series command are disjoint where both are not empty (R67). -/
theorem regions_disjoint {s : State} {w : Nat} (h : RegionsOk s w) :
    slenOf s = 0 ∨ w = 0 ∨ srcOf s + slenOf s ≤ dstOf s ∨ dstOf s + w ≤ srcOf s := by
  rcases Nat.eq_zero_or_pos (slenOf s) with h0 | h0
  · exact .inl h0
  · rcases Nat.eq_zero_or_pos w with h1 | h1
    · exact .inr (.inl h1)
    · exact .inr (.inr (h.2.2 h0 h1))

/-- A series command past its checks: everything its loop does, by the elements over the memory it started with. -/
theorem series_run {element : Nat → Memory → Hidden → Element} {s : State} {count width : Nat} (h : Hidden)
    (hok : ElementOk element (srcOf s) (slenOf s) count width) (hr : RegionsOk s (width * count)) :
    series element (dstOf s) width count 0 s.mem h
      = seriesEnd (dstOf s) width 0 s.mem (elements element s.mem count 0 h).1 (elements element s.mem count 0 h).2 :=
  series_start element (srcOf s) (slenOf s) (dstOf s) width count s.mem h hok.agree (fun k h m h' ws => hok.width k h m h' ws)
    (regions_disjoint hr)

/-! ## The elements of each command over a finite series -/

/-- BQ_APPLY: the recursion of R105 over the list. -/
theorem elements_biquad (k : Coeffs) (src : Nat) (m : Memory) (xs : List Word) (n more : Nat) (h : Hidden)
    (hx : HoldsSeries m (src + n) xs) (hf : AllFinite xs) :
    ∃ h', h'.frame = h.frame ∧ h'.re = h.re ∧ h'.im = h.im ∧ h'.mag = h.mag ∧
      elements (biquadElement k src) m (xs.length + more) n h
        = ((biquadRun k xs h.u1 h.u2).map (fun y => [y])
            ++ (elements (biquadElement k src) m more (n + xs.length) h').1,
           (elements (biquadElement k src) m more (n + xs.length) h').2) := by
  induction xs generalizing n h with
  | nil => exact ⟨h, rfl, rfl, rfl, rfl, by simp [biquadRun]⟩
  | cons x xs ih =>
    have h0 := hx 0 x rfl
    have hs := readSample_got m src n x (by simpa using h0) (hf x (by simp))
    obtain ⟨h', f1, f2, f3, f4, he⟩ := ih (n + 1) { h with u1 := biquadState k x h.u1 h.u2, u2 := h.u1 }
      (by
        intro i w hi
        have := hx (i + 1) w (by simpa using hi)
        rwa [show src + n + (i + 1) = src + (n + 1) + i by omega] at this)
      (fun y hy => hf y (by simp [hy]))
    refine ⟨h', f1, f2, f3, f4, ?_⟩
    rw [List.length_cons, show xs.length + 1 + more = xs.length + more + 1 by omega]
    simp only [elements, biquadElement, hs]
    simp only [show n + (xs.length + 1) = n + 1 + xs.length by omega]
    rw [he]
    rfl

/-- NORMALIZE: one result word per sample. -/
theorem elements_normalize (smax : Word) (dmax src : Nat) (m : Memory) (xs : List Word) (n more : Nat) (h : Hidden)
    (hx : HoldsSeries m (src + n) xs) (hf : AllFinite xs) :
    elements (normalizeElement smax dmax src) m (xs.length + more) n h
      = ((xs.map (normalized smax dmax)).map (fun y => [y])
          ++ (elements (normalizeElement smax dmax src) m more (n + xs.length) h).1,
         (elements (normalizeElement smax dmax src) m more (n + xs.length) h).2) := by
  induction xs generalizing n with
  | nil => simp
  | cons x xs ih =>
    have h0 := hx 0 x rfl
    have hs := readSample_got m src n x (by simpa using h0) (hf x (by simp))
    have he := ih (n + 1)
      (by
        intro i w hi
        have := hx (i + 1) w (by simpa using hi)
        rwa [show src + n + (i + 1) = src + (n + 1) + i by omega] at this)
      (fun y hy => hf y (by simp [hy]))
    rw [List.length_cons, show xs.length + 1 + more = xs.length + more + 1 by omega]
    simp only [elements, normalizeElement, hs]
    simp only [show n + (xs.length + 1) = n + 1 + xs.length by omega]
    rw [he]
    rfl

/-- The identity of FIR_DECIMATE: every word as it is. -/
theorem elements_copy (src : Nat) (m : Memory) (xs : List Word) (n : Nat) (h : Hidden) (hx : HoldsSeries m (src + n) xs) :
    elements (copyElement src) m xs.length n h = (xs.map (fun y => [y]), .finished h) := by
  induction xs generalizing n with
  | nil => rfl
  | cons x xs ih =>
    have h0 := hx 0 x rfl
    simp only [Nat.add_zero] at h0
    have he := ih (n + 1)
      (by
        intro i w hi
        have := hx (i + 1) w (by simpa using hi)
        rwa [show src + n + (i + 1) = src + (n + 1) + i by omega] at this)
    simp only [List.length_cons, elements]
    simp only [copyElement, h0]
    rw [he]
    rfl

/-- FIR_DECIMATE: the outputs whose windows are finite. -/
theorem elements_fir (table : List Word) (scale src : Nat) (m : Memory) (x : Nat → Word) (todo n more : Nat) (h : Hidden)
    (hx : ∀ k, n ≤ k → k < n + todo → ∀ i < table.length,
      readWord m (src + (k * scale + i)) = some (x (k * scale + i)) ∧ isFinite (x (k * scale + i)) = true) :
    elements (firElement table scale src) m (todo + more) n h
      = ((List.range' n todo).map (fun k =>
            [roundInt (firSum table ((List.range table.length).map fun i => x (k * scale + i)) fzero)])
          ++ (elements (firElement table scale src) m more (n + todo) h).1,
         (elements (firElement table scale src) m more (n + todo) h).2) := by
  induction todo generalizing n with
  | zero => simp
  | succ todo ih =>
    have hs := convolve_got m src table x (n * scale) fzero fun i hi => hx n (le_refl _) (by omega) i hi
    have he := ih (n + 1) fun k hk1 hk2 => hx k (by omega) (by omega)
    rw [show todo + 1 + more = todo + more + 1 by omega]
    simp only [elements]
    simp only [firElement, hs]
    rw [he]
    simp only [List.range'_succ, List.map_cons, List.cons_append, show n + (todo + 1) = n + 1 + todo by omega]

/-- DETECT: the records of the frames that are finite; the histories of the biquad stay. -/
theorem elements_detect (s : State) (m : Memory) (xs : List Word) (todo n more : Nat) (h : Hidden)
    (hx : HoldsSeries m (srcOf s) xs) (hf : AllFinite xs) (hl : (n + todo) * frameNOf s ≤ xs.length) :
    ∃ h', h'.u1 = h.u1 ∧ h'.u2 = h.u2 ∧
      elements (detectElement s) m (todo + more) n h
        = ((List.range' n todo).map (fun fr => detection s (roundedMagnitudes s.cfg (frameOf (frameNOf s) fr xs)))
            ++ (elements (detectElement s) m more (n + todo) h').1,
           (elements (detectElement s) m more (n + todo) h').2) := by
  induction todo generalizing n h with
  | zero => exact ⟨h, rfl, rfl, by simp⟩
  | succ todo ih =>
    have hn : n * frameNOf s + frameNOf s ≤ xs.length := by
      have h1 : (n + 1) * frameNOf s ≤ (n + (todo + 1)) * frameNOf s := Nat.mul_le_mul_right _ (by omega)
      rw [Nat.succ_mul] at h1
      omega
    have hlen : (frameOf (frameNOf s) n xs).length = frameNOf s := by
      simp only [frameOf, List.length_take, List.length_drop]
      omega
    have hload := loadFrame_full m (srcOf s) (n * frameNOf s) (frameOf (frameNOf s) n xs)
      (by
        intro i w hi
        have hi' : i < frameNOf s := by
          have := (List.getElem?_eq_some_iff.1 hi).1
          omega
        simp only [frameOf, List.getElem?_take, hi', if_true, List.getElem?_drop] at hi
        have := hx _ w hi
        rwa [show srcOf s + (n * frameNOf s + i) = srcOf s + n * frameNOf s + i by omega] at this)
      (fun y hy => hf y (List.mem_of_mem_drop (List.mem_of_mem_take hy)))
    rw [hlen] at hload
    obtain ⟨h', f1, f2, he⟩ := ih (n + 1)
      (withSpectrum s.cfg (frameOf (frameNOf s) n xs) (roundedMagnitudes s.cfg (frameOf (frameNOf s) n xs)) h)
      (by rw [show n + 1 + todo = n + (todo + 1) by omega]; exact hl)
    refine ⟨h', f1, f2, ?_⟩
    rw [show todo + 1 + more = todo + more + 1 by omega]
    simp only [elements]
    simp only [detectElement, hload]
    rw [he]
    simp only [List.range'_succ, List.map_cons, List.cons_append, show n + (todo + 1) = n + 1 + todo by omega]

end Sys2Proof.Machine
end

