-- ==== Sys2Proof/Laws/Effect.lean ====
section
/-! SUPPORT. Everything a command can do, said once: fail a check, succeed, stop at a malformed sample, or meet a word that
holds no value. -/

namespace Sys2Proof.Machine
open Sys2Proof.Config

/-! ## The hidden state of a series -/

/-- What every element keeps of the hidden state, a series keeps. -/
theorem elements_hidden (P : Hidden → Prop) (element : Nat → Memory → Hidden → Element) (m : Memory)
    (hv : ∀ k h h' ws, element k m h = .value h' ws → P h → P h')
    (hm : ∀ k h h' i, element k m h = .malformed i h' → P h → P h') (todo k : Nat) (h : Hidden) (hp : P h) :
    match (elements element m todo k h).2 with
    | .finished h' => P h'
    | .malformed _ h' => P h'
    | .unwritten _ => True := by
  induction todo generalizing k h with
  | zero => simpa [elements] using hp
  | succ todo ih =>
    simp only [elements]
    cases hel : element k m h with
    | value h' ws => exact ih (k + 1) h' (hv _ _ _ _ hel hp)
    | malformed i h' => exact hm _ _ _ _ hel hp
    | unwritten a => trivial

theorem overwrite_length (b xs : List Word) (n : Nat) (hb : b.length ≤ n) (hx : xs.length ≤ n) :
    (overwrite b xs).length ≤ n := by
  simp only [overwrite, List.length_append, List.length_drop]
  omega

theorem array_length (n : Nat) (xs : List Word) : (array n xs).length = n := by
  simp only [array, List.length_take, List.length_append, List.length_replicate]
  omega

@[simp] theorem xfRe_length (b : Build) (frame : List Word) : (xfRe b frame).length = frame.length := array_length _ _
@[simp] theorem xfIm_length (b : Build) (frame : List Word) : (xfIm b frame).length = frame.length := array_length _ _

@[simp] theorem rawMagnitudes_length (b : Build) (frame : List Word) : (rawMagnitudes b frame).length = frame.length := by
  simp [rawMagnitudes]

@[simp] theorem roundedMagnitudes_length (b : Build) (frame : List Word) :
    (roundedMagnitudes b frame).length = frame.length := by simp [roundedMagnitudes]

theorem buffersOk_withFrame {n : Nat} {h : Hidden} (xs : List Word) (hx : xs.length ≤ n) (hb : BuffersOk n h) :
    BuffersOk n (withFrame xs h) := ⟨overwrite_length _ _ _ hb.frame hx, hb.re, hb.im, hb.mag⟩

theorem buffersOk_withSpectrum {n : Nat} {h : Hidden} (b : Build) (frame mags : List Word) (hf : frame.length ≤ n)
    (hm : mags.length ≤ n) (hb : BuffersOk n h) : BuffersOk n (withSpectrum b frame mags h) :=
  ⟨overwrite_length _ _ _ hb.frame hf, overwrite_length _ _ _ hb.re (by simpa using hf),
    overwrite_length _ _ _ hb.im (by simpa using hf), overwrite_length _ _ _ hb.mag hm⟩

/-! ## Everything a command can do -/

/-- A check of the command fails: an error with nothing kept and nothing else changed. -/
def FailsCheck (i : Instr) (s : State) (r : Result) : Prop :=
  ∃ e : Reject, r = .next (raise e 0#64 (accept s)) ∧ e.error ≠ .malformedSample ∧ e.error ≠ .illegalCommand
    ∧ (e.error = .unsupportedScale → i = .firDecimate ∧ scaleSupported (scaleOf s) = false)

/-- The command succeeds with `count` results. -/
def Completes (i : Instr) (s : State) (r : Result) : Prop :=
  ∃ (count : Nat) (ws : List Word) (h : Hidden) (c : Coeffs),
    r = .next (complete count { accept s with mem := writeWords s.mem (dstOf s) ws, hidden := h, coeffs := c })
      ∧ ws.length = elementWidth i * count ∧ (ws = [] ∨ dstOf s + ws.length ≤ s.cfg.memWords)
      ∧ count ≤ s.cfg.memWords
      ∧ (c = s.coeffs ∨ (i = .bqDesignLp ∧ c = lowPass s.cfg s.ops.bqFs s.ops.bqFc)
          ∨ (i = .bqDesignHp ∧ c = highPass s.cfg s.ops.bqFs s.ops.bqFc))
      ∧ (BuffersOk s.cfg.frameMax s.hidden → BuffersOk s.cfg.frameMax h)

/-- The command stops at element `index` of the series, which is not a finite number, with `kept` results written. -/
def StopsMalformed (i : Instr) (s : State) (r : Result) : Prop :=
  ∃ (index kept : Nat) (ws : List Word) (h : Hidden),
    r = .next (raise (rejectSample index) (BitVec.ofNat 64 kept)
        (withWork (writeWords s.mem (dstOf s) ws) h (accept s)))
      ∧ ws.length = elementWidth i * kept ∧ (ws = [] ∨ dstOf s + ws.length ≤ s.cfg.memWords)
      ∧ kept ≤ s.cfg.memWords ∧ index < slenOf s
      ∧ (∃ w, readWord s.mem (srcOf s + index) = some w ∧ isFinite w = false)
      ∧ (i = .bqApply ∨ (i = .firDecimate ∧ scaleOf s ≠ 1) ∨ i = .detect ∨ i = .normalize ∨ (i = .spectrum ∧ kept = 0))
      ∧ (BuffersOk s.cfg.frameMax s.hidden → BuffersOk s.cfg.frameMax h)

/-- The command meets a word of its source region that holds no value. -/
def MeetsUnwritten (i : Instr) (s : State) (r : Result) : Prop :=
  ∃ a, r = .refused (.unwrittenWord a) ∧ srcOf s ≤ a ∧ a < srcOf s + slenOf s ∧ readWord s.mem a = none
    ∧ (i = .bqApply ∨ i = .firDecimate ∨ i = .detect ∨ i = .normalize ∨ i = .spectrum)

/-- Everything an accepted command can do. -/
def Effect (i : Instr) (s : State) (r : Result) : Prop :=
  FailsCheck i s r ∨ Completes i s r ∨ StopsMalformed i s r ∨ MeetsUnwritten i s r

theorem regionsOk_of_checks {s : State} {w : Nat} (h : ∀ c ∈ regionChecks s w, c.1 = false) : RegionsOk s w :=
  (regionChecks_pass_iff s w).1 h

theorem checks_of_regionsOk {s : State} {w : Nat} (h : RegionsOk s w) : ∀ c ∈ regionChecks s w, c.1 = false :=
  (regionChecks_pass_iff s w).2 h

/-- A series command past its checks. -/
theorem series_effect (i : Instr) (s : State) {element : Nat → Memory → Hidden → Element} (count : Nat) (h : Hidden)
    (hok : ElementOk element (srcOf s) (slenOf s) count (elementWidth i)) (hr : RegionsOk s (elementWidth i * count))
    (hi : i = .bqApply ∨ i = .firDecimate ∨ i = .detect ∨ i = .normalize)
    (hfir : i = .firDecimate → scaleOf s = 1 → ∀ k m h j h', element k m h ≠ .malformed j h')
    (hbuf : BuffersOk s.cfg.frameMax s.hidden → BuffersOk s.cfg.frameMax h)
    (hv : ∀ k g g' ws, element k s.mem g = .value g' ws → BuffersOk s.cfg.frameMax g → BuffersOk s.cfg.frameMax g')
    (hm : ∀ k g g' j, element k s.mem g = .malformed j g' → BuffersOk s.cfg.frameMax g → BuffersOk s.cfg.frameMax g') :
    Effect i s (finish count (accept s) (series element (dstOf s) (elementWidth i) count 0 s.mem h)) := by
  rw [series_run h hok hr]
  have hend := elements_end element s.mem count 0 h
  have hhid := fun hb => elements_hidden (fun g => BuffersOk s.cfg.frameMax g) element s.mem hv hm count 0 h (hbuf hb)
  have hw := elements_width element s.mem (elementWidth i) count 0 h (fun k g g' ws => hok.width k g s.mem g' ws)
  have hle := elements_length_le element s.mem count 0 h
  have hwid : 1 ≤ elementWidth i := by rcases hi with rfl | rfl | rfl | rfl <;> decide
  have hfl := flatten_length (elementWidth i) (elements element s.mem count 0 h).1 hw
  have hmul : elementWidth i * (elements element s.mem count 0 h).1.length ≤ elementWidth i * count :=
    Nat.mul_le_mul_left _ hle
  have hmem := hr.2.1
  have hge : ∀ n, n ≤ elementWidth i * n := fun n => Nat.le_mul_of_pos_left n hwid
  cases he : (elements element s.mem count 0 h).2 with
  | finished g =>
    simp only [he] at hend hhid
    refine .inr (.inl ⟨count, (elements element s.mem count 0 h).1.flatten, g, s.coeffs, ?_, ?_, ?_, ?_, .inl rfl, hhid⟩)
    · simp [seriesEnd, finish, withWork]
    · rw [hfl, hend]
    · right; rw [hfl]; omega
    · have := hge count; omega
  | malformed j g =>
    simp only [he, Nat.zero_add] at hend hhid
    obtain ⟨g', hlt, hel⟩ := hend
    have hmal := hok.malformed _ _ _ _ _ hlt hel
    refine .inr (.inr (.inl ⟨j, (elements element s.mem count 0 h).1.length,
      (elements element s.mem count 0 h).1.flatten, g, ?_, hfl, ?_, ?_, hmal.1, hmal.2, ?_, hhid⟩))
    · simp [seriesEnd, finish]
    · right; rw [hfl]; omega
    · have := hge (elements element s.mem count 0 h).1.length; omega
    · rcases hi with rfl | rfl | rfl | rfl
      · simp
      · by_cases h1 : scaleOf s = 1
        · exact absurd hel (hfir rfl h1 _ _ _ _ _)
        · simp [h1]
      · simp
      · simp
  | unwritten a =>
    simp only [he, Nat.zero_add] at hend
    obtain ⟨k, g, hk, hel⟩ := hend
    have hu := hok.unwritten _ _ _ _ hk hel
    refine .inr (.inr (.inr ⟨a, by simp [seriesEnd, finish], hu.1, hu.2.1, hu.2.2, ?_⟩))
    rcases hi with rfl | rfl | rfl | rfl <;> simp

theorem effect_design (i : Instr) (design : Build → Word → Word → Coeffs) (s : State)
    (hi : (i = .bqDesignLp ∧ design = lowPass) ∨ (i = .bqDesignHp ∧ design = highPass)) :
    Effect i s (runDesign design (accept s)) := by
  unfold runDesign
  rcases checked_cases (accept s) (designChecks design (accept s)) (.next (complete 0
    { accept s with coeffs := design (accept s).cfg (accept s).ops.bqFs (accept s).ops.bqFc })) with ⟨c, hc, h1, h2⟩ | ⟨hc, h2⟩
  · rw [h2]
    refine .inl ⟨c.2, rfl, ?_⟩
    simp only [designChecks, List.mem_cons, List.not_mem_nil, or_false] at hc
    rcases hc with rfl | rfl | rfl <;> simp [rejectOperand]
  · rw [h2]
    refine .inr (.inl ⟨0, [], s.hidden, design s.cfg s.ops.bqFs s.ops.bqFc, rfl, ?_, .inl rfl, by omega, ?_, id⟩)
    · rcases hi with ⟨rfl, -⟩ | ⟨rfl, -⟩ <;> rfl
    · rcases hi with ⟨rfl, rfl⟩ | ⟨rfl, rfl⟩
      · exact .inr (.inl ⟨rfl, rfl⟩)
      · exact .inr (.inr ⟨rfl, rfl⟩)

theorem biquad_buffers (k : Coeffs) (src : Nat) (m : Memory) (n : Nat) :
    (∀ j g g' ws, biquadElement k src j m g = .value g' ws → BuffersOk n g → BuffersOk n g')
      ∧ (∀ j g g' i, biquadElement k src j m g = .malformed i g' → BuffersOk n g → BuffersOk n g') := by
  refine ⟨fun j g g' ws he hb => ?_, fun j g g' i he hb => ?_⟩ <;> unfold biquadElement at he <;> split at he <;> cases he
  · exact ⟨hb.frame, hb.re, hb.im, hb.mag⟩
  · exact hb

theorem effect_apply (s : State) : Effect .bqApply s (runApply (accept s)) := by
  unfold runApply
  rcases checked_cases (accept s) (applyChecks (accept s)) (finish (slenOf (accept s)) (accept s)
    (series (biquadElement (accept s).coeffs (srcOf (accept s))) (dstOf (accept s)) 1 (slenOf (accept s)) 0 (accept s).mem
      (freshHistory (accept s).hidden))) with ⟨c, hc, h1, h2⟩ | ⟨hc, h2⟩
  · rw [h2]
    refine .inl ⟨c.2, rfl, ?_⟩
    simp only [applyChecks, regionChecks, List.mem_cons, List.mem_append, List.not_mem_nil, or_false] at hc
    rcases hc with (rfl | rfl | rfl | rfl | rfl | rfl) | rfl | rfl <;> simp [rejectOperand]
  · rw [h2]
    have hr : RegionsOk s (slenOf s) := regionsOk_of_checks fun c h => hc c (by
      simp only [applyChecks, List.mem_append]; exact .inr h)
    exact series_effect .bqApply s (slenOf s) (freshHistory s.hidden) (biquadElement_ok _ _ _)
      (by simpa [elementWidth] using hr) (by simp) (by simp) (fun hb => ⟨hb.frame, hb.re, hb.im, hb.mag⟩)
      (biquad_buffers _ _ _ _).1 (biquad_buffers _ _ _ _).2

theorem effect_normalize (s : State) : Effect .normalize s (runNormalize (accept s)) := by
  unfold runNormalize
  rcases checked_cases (accept s) (normalizeChecks (accept s)) (finish (slenOf (accept s)) (accept s)
    (series (normalizeElement (accept s).ops.nrmSrcmax (dstmaxOf (accept s)) (srcOf (accept s))) (dstOf (accept s)) 1
      (slenOf (accept s)) 0 (accept s).mem (accept s).hidden)) with ⟨c, hc, h1, h2⟩ | ⟨hc, h2⟩
  · rw [h2]
    refine .inl ⟨c.2, rfl, ?_⟩
    simp only [normalizeChecks, regionChecks, List.mem_cons, List.mem_append, List.not_mem_nil, or_false] at hc
    rcases hc with (rfl | rfl | rfl) | rfl | rfl <;> simp [rejectOperand]
  · rw [h2]
    have hr : RegionsOk s (slenOf s) := regionsOk_of_checks fun c h => hc c (by
      simp only [normalizeChecks, List.mem_append]; exact .inr h)
    refine series_effect .normalize s (slenOf s) s.hidden (normalizeElement_ok _ _ _ _)
      (by simpa [elementWidth] using hr) (by simp) (by simp) id ?_ ?_
    · intro k g g' ws he hb
      unfold normalizeElement at he
      split at he <;> cases he
      exact hb
    · intro k g g' ws he hb
      unfold normalizeElement at he
      split at he <;> cases he
      exact hb

theorem decimate_hidden (s : State) (k : Nat) (m : Memory) (g g' : Hidden) :
    (∀ ws, decimateElement s k m g = .value g' ws → g' = g) ∧ (∀ j, decimateElement s k m g = .malformed j g' → g' = g) := by
  unfold decimateElement
  split
  · unfold copyElement
    exact ⟨fun ws he => by split at he <;> cases he; rfl, fun j he => by split at he <;> cases he⟩
  · unfold firElement
    exact ⟨fun ws he => by split at he <;> cases he; rfl, fun j he => by split at he <;> cases he; rfl⟩

theorem effect_decimate (s : State) : Effect .firDecimate s (runDecimate (accept s)) := by
  unfold runDecimate
  rcases checked_cases (accept s) (decimateChecks (accept s)) (finish (firCount (accept s)) (accept s)
    (series (decimateElement (accept s)) (dstOf (accept s)) 1 (firCount (accept s)) 0 (accept s).mem
      (accept s).hidden)) with ⟨c, hc, h1, h2⟩ | ⟨hc, h2⟩
  · rw [h2]
    refine .inl ⟨c.2, rfl, ?_⟩
    simp only [decimateChecks, regionChecks, List.mem_cons, List.mem_append, List.not_mem_nil, or_false] at hc
    rcases hc with (rfl | rfl | rfl) | rfl | rfl <;> simp [rejectOperand]
    simpa using h1
  · rw [h2]
    have hr : RegionsOk s (firCount s) := regionsOk_of_checks fun c h => hc c (by
      simp only [decimateChecks, List.mem_append]; exact .inr h)
    have hs : scaleSupported (scaleOf s) = true := by
      have := hc _ (by simp only [decimateChecks, List.mem_append, List.mem_cons]; exact .inl (.inl rfl))
      simpa using this
    refine series_effect .firDecimate s (firCount s) s.hidden (decimateElement_ok s hs)
      (by simpa [elementWidth] using hr) (by simp) ?_ id ?_ ?_
    · intro _ h1 k m g j g'
      change decimateElement s k m g ≠ _
      simp only [decimateElement, h1, if_true, copyElement]
      split <;> simp
    · intro k g g' ws he hb
      rw [(decimate_hidden s k s.mem g g').1 ws he]
      exact hb
    · intro k g g' j he hb
      rw [(decimate_hidden s k s.mem g g').2 j he]
      exact hb

theorem effect_detect (s : State) : Effect .detect s (runDetect (accept s)) := by
  unfold runDetect
  rcases checked_cases (accept s) (detectChecks (accept s)) (finish (frameCount (accept s)) (accept s)
    (series (detectElement (accept s)) (dstOf (accept s)) 3 (frameCount (accept s)) 0 (accept s).mem
      (accept s).hidden)) with ⟨c, hc, h1, h2⟩ | ⟨hc, h2⟩
  · rw [h2]
    refine .inl ⟨c.2, rfl, ?_⟩
    simp only [detectChecks, regionChecks, List.mem_cons, List.mem_append, List.not_mem_nil, or_false] at hc
    rcases hc with (rfl | rfl | rfl | rfl | rfl) | rfl | rfl <;> simp [rejectOperand]
  · rw [h2]
    have hr : RegionsOk s (3 * frameCount s) := regionsOk_of_checks fun c h => hc c (by
      simp only [detectChecks, List.mem_append]; exact .inr h)
    have hfr : FrameLegal s := (frameBad_eq_false_iff s).1 (hc (frameBad s, _) (by
      simp only [detectChecks, List.mem_append, List.mem_cons]; exact .inl (.inl rfl)))
    refine series_effect .detect s (frameCount s) s.hidden (detectElement_ok s) hr (by simp) (by simp) id ?_ ?_
    · intro k g g' ws he hb
      change detectElement s k s.mem g = _ at he
      unfold detectElement at he
      rcases loadFrame_cases s.mem (srcOf s) (frameNOf s) (k * frameNOf s) with ⟨xs, hx, hl⟩ | ⟨xs, i, hx, _⟩ | ⟨b, hx, _⟩ <;>
        simp only [hx] at he <;> cases he
      exact buffersOk_withSpectrum _ _ _ (by rw [hl]; exact hfr.2.1) (by simp [hl]; exact hfr.2.1) hb
    · intro k g g' j he hb
      change detectElement s k s.mem g = _ at he
      unfold detectElement at he
      rcases loadFrame_cases s.mem (srcOf s) (frameNOf s) (k * frameNOf s) with
        ⟨xs, hx, hl⟩ | ⟨xs, i, hx, _, hl, _⟩ | ⟨b, hx, _⟩ <;>
        simp only [hx] at he <;> cases he
      exact buffersOk_withFrame _ (by have := hfr.2.1; omega) hb

theorem effect_spectrum (s : State) : Effect .spectrum s (runSpectrum (accept s)) := by
  unfold runSpectrum
  rcases checked_cases (accept s) (spectrumChecks (accept s)) (finishSpectrum (accept s)
    (loadFrame (accept s).mem (srcOf (accept s)) (frameNOf (accept s)) (offsetOf (accept s)))) with ⟨c, hc, h1, h2⟩ | ⟨hc, h2⟩
  · rw [h2]
    refine .inl ⟨c.2, rfl, ?_⟩
    simp only [spectrumChecks, regionChecks, List.mem_cons, List.mem_append, List.not_mem_nil, or_false] at hc
    rcases hc with (rfl | rfl) | rfl | rfl <;> simp [rejectOperand]
  · rw [h2]
    have hr : RegionsOk s (frameNOf s) := regionsOk_of_checks fun c h => hc c (by
      simp only [spectrumChecks, List.mem_append]; exact .inr h)
    have hfr : FrameLegal s := (frameBad_eq_false_iff s).1 (hc (frameBad s, _) (by
      simp only [spectrumChecks, List.mem_append, List.mem_cons]; exact .inl (.inl rfl)))
    have hin : offsetOf s + frameNOf s ≤ slenOf s := by
      have := hc (decide (slenOf s < offsetOf s + frameNOf s), rejectOperand .insufficientSamples .slen (accept s)) (by
        simp only [spectrumChecks, List.mem_append, List.mem_cons]; exact .inl (.inr (.inl rfl)))
      simp only [decide_eq_false_iff_not, not_lt] at this
      exact this
    have hm := hr.2.1
    simp only [accept_mem, srcOf_accept, frameNOf_accept, offsetOf_accept]
    rcases loadFrame_cases s.mem (srcOf s) (frameNOf s) (offsetOf s) with
      ⟨xs, hx, hl⟩ | ⟨xs, i, hx, hi, hl, hw⟩ | ⟨a, hx, ha1, ha2, hr'⟩
    · rw [hx]
      refine .inr (.inl ⟨frameNOf s, rawMagnitudes s.cfg xs, withSpectrum s.cfg xs (rawMagnitudes s.cfg xs) s.hidden,
        s.coeffs, rfl, by simp [elementWidth, hl], .inr (by simpa [hl] using hm), by omega, .inl rfl, ?_⟩)
      exact buffersOk_withSpectrum _ _ _ (by rw [hl]; exact hfr.2.1) (by simp [hl]; exact hfr.2.1)
    · rw [hx]
      exact .inr (.inr (.inl ⟨i, 0, [], withFrame xs s.hidden, rfl, rfl, .inl rfl, by omega, by omega, hw, by simp,
        buffersOk_withFrame _ (by have := hfr.2.1; omega)⟩))
    · rw [hx]
      exact .inr (.inr (.inr ⟨a, rfl, by omega, by omega, hr', by simp⟩))

/-- The sweep collects no more than there is room for. -/
theorem sweep_length {lo p : Word} {room : Nat} {f : Word} {l : List Word} (h : sweep lo p room f = .collected l) :
    l.length ≤ room := by
  induction room generalizing f l with
  | zero =>
    simp only [sweep] at h
    split at h <;> cases h
    simp
  | succ room ih =>
    simp only [sweep] at h
    split at h
    · split at h
      · cases hs : sweep lo p room (sweepStep p f) with
        | collected l' =>
          rw [hs] at h
          cases h
          have := ih hs
          simp only [List.length_cons]
          omega
        | noRoom => rw [hs] at h; cases h
        | noProgress => rw [hs] at h; cases h
      · cases h
    · cases h
      simp

theorem effect_range (s : State) : Effect .genRange s (runRange (accept s)) := by
  unfold runRange
  rcases checked_cases (accept s) (rangeChecks (accept s)) (finishSweep (accept s) (sweepOf (accept s))) with
    ⟨c, hc, h1, h2⟩ | ⟨hc, h2⟩
  · rw [h2]
    refine .inl ⟨c.2, rfl, ?_⟩
    simp only [rangeChecks, List.mem_cons, List.not_mem_nil, or_false] at hc
    rcases hc with rfl | rfl | rfl | rfl <;> simp [rejectOperand]
  · rw [h2]
    have hd : dstOf s ≤ s.cfg.memWords := by
      have := hc (decide (s.cfg.memWords < dstOf s), rejectOperand .badAddress .dst (accept s)) (by
        simp only [rangeChecks, List.mem_cons]; exact .inr (.inr (.inr (.inl rfl))))
      simpa using this
    cases hs : sweepOf (accept s) with
    | collected l =>
      have hl : l.length ≤ s.cfg.memWords - dstOf s := by
        unfold sweepOf at hs
        split at hs
        · exact sweep_length hs
        · cases hs; simp
      refine .inr (.inl ⟨l.length, l.reverse, s.hidden, s.coeffs, rfl, by simp [elementWidth], .inr ?_, by omega, .inl rfl, id⟩)
      rw [List.length_reverse]
      omega
    | noRoom => exact .inl ⟨_, rfl, by simp [rejectOperand]⟩
    | noProgress => exact .inl ⟨_, rfl, by simp [rejectOperand]⟩

/-- Everything an accepted command can do. -/
theorem exec_effect (i : Instr) (s : State) (h : s.status.err = false) : Effect i s (exec i s) := by
  cases i <;>
    simp only [exec, execBqDesignLp, execBqDesignHp, execBqApply, execFirDecimate, execGenRange, execDetect, execSpectrum,
      execNormalize, issue_of_ok _ _ h]
  · exact effect_design _ _ _ (.inl ⟨rfl, rfl⟩)
  · exact effect_design _ _ _ (.inr ⟨rfl, rfl⟩)
  · exact effect_apply s
  · exact effect_decimate s
  · exact effect_range s
  · exact effect_detect s
  · exact effect_spectrum s
  · exact effect_normalize s

/-- While ERR is 1 a command does nothing (R87). -/
theorem exec_of_err (i : Instr) (s : State) (h : s.status.err = true) : exec i s = .next s := by
  cases i <;> exact issue_of_err _ _ h

end Sys2Proof.Machine
end

