-- ==== Sys2Proof/Laws/Transactions.lean ====
section
/-! SUPPORT. Everything a step and a transaction of the host can do, and what keeps the form of data memory. -/

namespace Sys2Proof.Machine
open Sys2Proof.Config

theorem memWords_le {b : Build} (h : buildOk b = true) : b.memWords ≤ 2 ^ 32 := by
  simp only [buildOk, Bool.and_eq_true, decide_eq_true_eq] at h
  omega

theorem toNat_of_le {n : Nat} (h : n ≤ 2 ^ 32) : (BitVec.ofNat 64 n).toNat = n := by
  rw [BitVec.toNat_ofNat]; exact Nat.mod_eq_of_lt (by omega)

/-- Everything a step can do. -/
theorem step_inv {s t : State} (h : step s = .next t) : (s.inbox = [] ∧ t = s) ∨ ∃ op rest, s.inbox = op :: rest ∧ perform op { s with inbox := rest } = .next t := by
  unfold step at h
  split at h
  · rename_i h0; cases h; exact .inl ⟨h0, rfl⟩
  · rename_i op rest h0; exact .inr ⟨op, rest, h0, h⟩

/-- All that one transaction can do. -/
theorem perform_inv {op : HostOp} {s t : State} (h : perform op s = .next t) :
    (∃ n, op = .regRead n ∧ t = { s with readData := some (regRead s n) })
    ∨ (∃ a v, op = .memRead a ∧ t = { s with readData := some v })
    ∨ (∃ a v, op = .memWrite a v ∧ a < s.cfg.memWords ∧ t = { s with mem := writeWord s.mem a v })
    ∨ (op = .rst ∧ t = applyReset s)
    ∨ (∃ n v, op = .regWrite n v ∧ regOfNumber n = none ∧ t = s)
    ∨ (∃ r v, op = .regWrite (regNumber r) v ∧ r ≠ .cmd ∧ t = regPut r v s)
    ∨ (∃ w, op = commandWrite w ∧ decode w = none ∧ ((s.status.err = true ∧ t = s) ∨ (s.status.err = false ∧ t = raise (rejectCommand w) 0#64 (accept s))))
    ∨ (∃ w i, op = commandWrite w ∧ decode w = some i ∧ exec i s = .next t) := by
  have hreg : ∀ n r, regOfNumber n = some r → n = regNumber r := by decide +kernel
  cases op with
  | regRead n => cases h; exact .inl ⟨n, rfl, rfl⟩
  | memRead a =>
    simp only [perform, hostMemRead] at h
    split at h
    · split at h <;> cases h
      exact .inr (.inl ⟨a, _, rfl, rfl⟩)
    · cases h
  | memWrite a v =>
    simp only [perform, hostMemWrite] at h
    split at h <;> cases h
    exact .inr (.inr (.inl ⟨a, v, rfl, by assumption, rfl⟩))
  | rst => cases h; exact .inr (.inr (.inr (.inl ⟨rfl, rfl⟩)))
  | regWrite n v =>
    simp only [perform, hostRegWrite] at h
    cases hn : regOfNumber n with
    | none => simp only [hn] at h; cases h; exact .inr (.inr (.inr (.inr (.inl ⟨n, v, rfl, hn, rfl⟩))))
    | some r =>
      have := hreg n r hn
      subst this
      simp only [hn] at h
      split at h
      · rename_i hc
        subst hc
        unfold command at h
        split at h
        · rename_i i hd
          exact .inr (.inr (.inr (.inr (.inr (.inr (.inr ⟨v, i, rfl, hd, h⟩))))))
        · rename_i hd
          refine .inr (.inr (.inr (.inr (.inr (.inr (.inl ⟨v, rfl, hd, ?_⟩))))))
          rcases issue_cases s (fun t => .next (raise (rejectCommand v) 0#64 t)) with ⟨h1, h2⟩ | ⟨h1, h2⟩ <;> unfold illegalCommand at h <;> rw [h2] at h <;> cases h
          · exact .inl ⟨h1, rfl⟩
          · exact .inr ⟨h1, rfl⟩
      · cases h
        exact .inr (.inr (.inr (.inr (.inr (.inl ⟨r, v, rfl, by assumption, rfl⟩)))))

theorem regPut_mem (r : Reg) (v : Word) (s : State) : (regPut r v s).mem = s.mem := by
  cases r <;> try rfl
  simp only [regPut, writeStatus, writeStatusErr, writeStatusDone]
  split <;> split <;> rfl
theorem regPut_cfg (r : Reg) (v : Word) (s : State) : (regPut r v s).cfg = s.cfg := by
  cases r <;> try rfl
  simp only [regPut, writeStatus, writeStatusErr, writeStatusDone]
  split <;> split <;> rfl
theorem regPut_hidden (r : Reg) (v : Word) (s : State) : (regPut r v s).hidden = s.hidden := by
  cases r <;> try rfl
  simp only [regPut, writeStatus, writeStatusErr, writeStatusDone]
  split <;> split <;> rfl
theorem regPut_dlen (r : Reg) (v : Word) (s : State) : (regPut r v s).dlen = s.dlen := by
  cases r <;> try rfl
  simp only [regPut, writeStatus, writeStatusErr, writeStatusDone]
  split <;> split <;> rfl

theorem exec_ops {i : Instr} {s t : State} (h : exec i s = .next t) : t.ops = s.ops := by
  cases he : s.status.err with
  | true => rw [exec_of_err i s he] at h; cases h; rfl
  | false =>
    rcases exec_effect i s he with ⟨e, h1, -⟩ | ⟨n, ws, g, c, h1, h2, h3, h4, -⟩ | ⟨j, n, ws, g, h1, h2, h3, h4, -⟩ | ⟨a, h1, -⟩ <;> rw [h1] at h <;> cases h <;> rfl

theorem memoryOk_writeWord {n : Nat} {m : Memory} (a : Nat) (v : Word) (ha : a < n) (h : MemoryOk n m) : MemoryOk n (writeWord m a v) := by
  refine ⟨wf_writeWord _ _ _ h.canonical, fun x hx => ?_, fun b i hi => ?_⟩
  · rw [getByte_writeWord_out _ _ _ _ (by omega)]; exact h.bounded x hx
  · by_cases hab : b = a
    · subst hab
      have h1 := getByte_writeWord_in m b i v hi
      have h0 := getByte_writeWord_in m b 0 v (by omega)
      simp only [Nat.add_zero] at h0
      rw [h1, h0]
    · rw [getByte_writeWord_out _ _ _ _ (by omega), getByte_writeWord_out _ _ _ _ (by omega)]
      exact h.whole b i hi

theorem memoryOk_writeWords {n : Nat} {m : Memory} (a : Nat) (ws : List Word) (ha : ws = [] ∨ a + ws.length ≤ n) (h : MemoryOk n m) : MemoryOk n (writeWords m a ws) := by
  induction ws generalizing m a with
  | nil => exact h
  | cons w ws ih =>
    rcases ha with ha | ha
    · cases ha
    · simp only [List.length_cons] at ha
      exact ih (a + 1) (.inr (by omega)) (memoryOk_writeWord a w (by omega) h)


/-! ## Runs of the machine -/

theorem coreRun_next (M : Host.Core) (k : Nat) {s t : M.State} (h : M.step s = .next t) : M.run (k + 1) s = M.run k t := by
  simp only [Host.Core.run, h]

theorem coreRun_one (M : Host.Core) (s : M.State) : M.run 1 s = M.step s := by
  simp only [Host.Core.run]
  cases M.step s <;> rfl

theorem run_next (k : Nat) {s t : State} (h : step s = .next t) :
    Sys2Proof.core.run (k + 1) s = Sys2Proof.core.run k t := coreRun_next Sys2Proof.core k h

theorem run_one (s : State) : Sys2Proof.core.run 1 s = step s := coreRun_one Sys2Proof.core s

theorem step_pending {s : State} {op : HostOp} {rest : List HostOp} (h : s.inbox = op :: rest) :
    step s = perform op { s with inbox := rest } := by simp [step, h]

/-- A run that starts with a register write of a script. -/
theorem run_put (k : Nat) {s : State} {r : Reg} {v : Word} {rest : List HostOp} (hr : r ≠ .cmd)
    (h : s.inbox = lineWR r v :: rest) :
    Sys2Proof.core.run (k + 1) s = Sys2Proof.core.run k (regPut r v { s with inbox := rest }) := by
  apply run_next
  rw [step_pending h]
  cases r <;> first | exact absurd rfl hr | rfl

/-- A run that ends with a command of a script. -/
theorem run_issue {s : State} {i : Instr} {rest : List HostOp} (h : s.inbox = lineCMD i :: rest) :
    Sys2Proof.core.run 1 s = exec i { s with inbox := rest } := by
  rw [run_one, step_pending h]
  cases i <;> rfl

end Sys2Proof.Machine
end

