-- ==== Sys2Proof/Laws/Completion.lean ====
section
/-! SUPPORT. Commands past their checks: when the checks of each command pass, what it then runs, and what the end of a
series leaves. -/

namespace Sys2Proof.Machine
open Sys2Proof.Config

theorem finish_code {n : Nat} {s t : State} {e : SeriesEnd} (he : s.status.err = false) (h : finish n s e = .next t)
    (ht : t.status.err = true) : t.status.errCode = 4#4 := by
  cases e <;> simp only [finish] at h <;> cases h
  · simp [he] at ht
  · rfl

theorem pass_apply {s : State} (h1 : coeffsFinite s.coeffs = true) (h2 : 0 < slenOf s) (hr : RegionsOk s (slenOf s)) :
    ∀ c ∈ applyChecks s, c.1 = false := by
  simp only [coeffsFinite, Bool.and_eq_true] at h1
  have := checks_of_regionsOk hr
  intro c hc
  simp only [applyChecks, List.mem_append] at hc
  rcases hc with hc | hc
  · revert c; simp [h1]; omega
  · exact this c hc

theorem pass_normalize {s : State} (h1 : NormalizeLegal s) (h2 : 0 < slenOf s) (hr : RegionsOk s (slenOf s)) :
    ∀ c ∈ normalizeChecks s, c.1 = false := by
  obtain ⟨h3, h4, h5⟩ := h1
  have := checks_of_regionsOk hr
  intro c hc
  simp only [normalizeChecks, List.mem_append] at hc
  rcases hc with hc | hc
  · revert c; simp [h3, h4]; omega
  · exact this c hc

theorem pass_decimate {s : State} (h1 : ScaleLegal s) (h2 : 0 < slenOf s) (h3 : scaleOf s ≠ 1 → (tapsOf s).length ≤ slenOf s)
    (hr : RegionsOk s (firCount s)) : ∀ c ∈ decimateChecks s, c.1 = false := by
  have := checks_of_regionsOk hr
  intro c hc
  simp only [decimateChecks, List.mem_append] at hc
  rcases hc with hc | hc
  · revert c; simp [(scaleSupported_iff s).2 h1]; exact ⟨by omega, fun h => h3 h⟩
  · exact this c hc

theorem pass_detect {s : State} (h1 : DetectLegal s) (h2 : frameNOf s ≤ slenOf s) (hr : RegionsOk s (3 * (slenOf s / frameNOf s))) :
    ∀ c ∈ detectChecks s, c.1 = false := by
  obtain ⟨h1, h4, h5, h6, h7, h8⟩ := h1
  have := checks_of_regionsOk hr
  intro c hc
  simp only [detectChecks, List.mem_append] at hc
  rcases hc with hc | hc
  · revert c; simp [(frameBad_eq_false_iff s).2 h1, h6, h7, h8]; omega
  · exact this c hc

theorem pass_spectrum {s : State} (h1 : FrameLegal s) (h2 : offsetOf s + frameNOf s ≤ slenOf s) (hr : RegionsOk s (frameNOf s)) :
    ∀ c ∈ spectrumChecks s, c.1 = false := by
  have := checks_of_regionsOk hr
  intro c hc
  simp only [spectrumChecks, List.mem_append] at hc
  rcases hc with hc | hc
  · revert c; simp [(frameBad_eq_false_iff s).2 h1]; omega
  · exact this c hc

theorem exec_apply {s : State} (he : s.status.err = false) (hp : ∀ c ∈ applyChecks s, c.1 = false) :
    exec .bqApply s = finish (slenOf s) (accept s)
      (series (biquadElement s.coeffs (srcOf s)) (dstOf s) 1 (slenOf s) 0 s.mem (freshHistory s.hidden)) := by
  rw [exec, execBqApply, issue_of_ok _ _ he, runApply, applyChecks_accept, checked_pass _ _ _ hp]; rfl

theorem exec_normalize {s : State} (he : s.status.err = false) (hp : ∀ c ∈ normalizeChecks s, c.1 = false) :
    exec .normalize s = finish (slenOf s) (accept s)
      (series (normalizeElement s.ops.nrmSrcmax (dstmaxOf s) (srcOf s)) (dstOf s) 1 (slenOf s) 0 s.mem s.hidden) := by
  rw [exec, execNormalize, issue_of_ok _ _ he, runNormalize, normalizeChecks_accept, checked_pass _ _ _ hp]; rfl

theorem exec_decimate {s : State} (he : s.status.err = false) (hp : ∀ c ∈ decimateChecks s, c.1 = false) :
    exec .firDecimate s = finish (firCount s) (accept s)
      (series (decimateElement s) (dstOf s) 1 (firCount s) 0 s.mem s.hidden) := by
  rw [exec, execFirDecimate, issue_of_ok _ _ he, runDecimate, decimateChecks_accept, checked_pass _ _ _ hp]; rfl

theorem exec_detect {s : State} (he : s.status.err = false) (hp : ∀ c ∈ detectChecks s, c.1 = false) :
    exec .detect s = finish (frameCount s) (accept s)
      (series (detectElement s) (dstOf s) 3 (frameCount s) 0 s.mem s.hidden) := by
  rw [exec, execDetect, issue_of_ok _ _ he, runDetect, detectChecks_accept, checked_pass _ _ _ hp]; rfl

theorem exec_spectrum {s : State} (he : s.status.err = false) (hp : ∀ c ∈ spectrumChecks s, c.1 = false) :
    exec .spectrum s = finishSpectrum (accept s) (loadFrame s.mem (srcOf s) (frameNOf s) (offsetOf s)) := by
  rw [exec, execSpectrum, issue_of_ok _ _ he, runSpectrum, spectrumChecks_accept, checked_pass _ _ _ hp]; rfl

theorem holds_writeWords (m : Memory) (a : Nat) (ws : List Word) : HoldsSeries (writeWords m a ws) a ws := by
  intro i w hi
  obtain ⟨hl, rfl⟩ := List.getElem?_eq_some_iff.1 hi
  exact readWord_writeWords_in m a i ws hl

theorem same_writeWords (m : Memory) (a n : Nat) (ws : List Word) (h : ws.length = n) : SameOutside m (writeWords m a ws) a n := by
  subst h
  exact fun x hx => getByte_writeWords_out m a x ws hx

theorem succeeded_complete (s : State) (n : Nat) (m : Memory) (h : Hidden) :
    Succeeded s (complete n (withWork m h (accept s))) n := rfl

theorem failed_raise (s : State) (i n : Nat) (m : Memory) (h : Hidden) (hn : n < 2^64) :
    Failed s (raise (rejectSample i) (BitVec.ofNat 64 n) (withWork m h (accept s))) 4#4 0x03#8 (BitVec.ofNat 64 i) n := by
  have : ((BitVec.ofNat 64 n) != 0#64) = decide (0 < n) := by
    rw [Bool.eq_iff_iff, bne_iff_ne, decide_eq_true_iff, Ne, ← BitVec.toNat_inj]
    simp only [BitVec.toNat_ofNat, Nat.mod_eq_of_lt hn]
    simp
  simp [Failed, raise, rejectSample, errorFlags, this, withWork, accept, errorCodeBits]
  rfl

theorem flatten_singles (ws : List Word) : (ws.map fun y => [y]).flatten = ws := by
  induction ws <;> simp_all

theorem biquadRun_length (k : Coeffs) (xs : List Word) (a b : Word) : (biquadRun k xs a b).length = xs.length := by
  induction xs generalizing a b with
  | nil => rfl
  | cons x xs ih => simp [biquadRun, ih]

theorem firCount_eq {s : State} (h : scaleOf s ≠ 1) : firCount s = ceilDiv (slenOf s - (tapsOf s).length) (scaleOf s) := by
  simp [firCount, h]

theorem firOutputs_eq (t : List Word) (sc n : Nat) (x : Nat → Word) : firOutputs t sc n x = (List.range' 0 n).map (fun k =>
            roundInt (firSum t ((List.range t.length).map fun i => x (k * sc + i)) fzero)) := by
  simp [firOutputs, List.range_eq_range']

theorem firOutputs_length (t : List Word) (sc n : Nat) (x : Nat → Word) : (firOutputs t sc n x).length = n := by
  simp [firOutputs]

theorem frameMags_eq (s : State) (frame : List Word) : frameMags s frame = roundedMagnitudes s.cfg frame := by
  simp only [frameMags, roundedMagnitudes, rawMagnitudes, List.map_zipWith]
  rfl

/-- The record of R153 to R157 is the one DETECT computes. -/
theorem frameRecord_eq (s : State) (frame : List Word) :
    frameRecord s frame = detection s (roundedMagnitudes s.cfg frame) := by
  rw [← frameMags_eq]
  rfl

theorem detections_eq (s : State) (n : Nat) (xs : List Word) : detections s n xs = ((List.range' 0 n).map (fun fr => detection s (roundedMagnitudes s.cfg (frameOf (frameNOf s) fr xs)))).flatten := by
  simp [detections, List.range_eq_range', List.flatMap_def, frameRecord_eq]

theorem flatMap_length {α : Type} (w n : Nat) (f : Nat → List α) (h : ∀ i, (f i).length = w) :
    ((List.range n).flatMap f).length = w * n := by
  induction n with
  | zero => rfl
  | succ n ih => rw [List.range_succ, List.flatMap_append, List.length_append, ih, List.flatMap_singleton, h, Nat.mul_succ]

theorem frameRecord_length (s : State) (frame : List Word) : (frameRecord s frame).length = 3 := rfl

/-- One word of the records: word `k` of frame `fr`'s. -/
theorem detections_getElem (s : State) (n : Nat) (xs : List Word) (fr k : Nat) (hfr : fr < n) (hk : k < 3) :
    (detections s n xs)[3 * fr + k]? = (frameRecord s (frameOf (frameNOf s) fr xs))[k]? := by
  unfold detections
  induction n generalizing fr with
  | zero => omega
  | succ n ih =>
    rw [List.range_succ, List.flatMap_append, List.flatMap_singleton]
    have hl : ((List.range n).flatMap fun fr => frameRecord s (frameOf (frameNOf s) fr xs)).length = 3 * n :=
      flatMap_length 3 n _ fun fr => frameRecord_length s _
    rcases Nat.lt_or_ge fr n with h | h
    · rw [List.getElem?_append_left (by omega), ih fr h]
    · obtain rfl : fr = n := by omega
      rw [List.getElem?_append_right (by omega), hl, Nat.add_sub_cancel_left]

theorem detections_length (s : State) (n : Nat) (xs : List Word) : (detections s n xs).length = 3 * n := by
  rw [detections_eq, flatten_length 3]
  · simp
  · intro ws h
    obtain ⟨a, -, rfl⟩ := List.mem_map.1 h
    rfl

/-! ## The sweep -/

theorem sweep_collects {lo p : Word} {f : Word} {l : List Word} (h : SweepsTo lo p f l) (room : Nat) (hr : l.length ≤ room) :
    sweep lo p room f = .collected l := by
  induction h generalizing room with
  | stop f h => cases room <;> simp [sweep, h]
  | step f l h hg rest ih =>
    simp only [List.length_cons] at hr
    obtain ⟨r, rfl⟩ : ∃ r, room = r + 1 := ⟨room - 1, by omega⟩
    simp [sweep, h, sweepStep, hg, ih r (by omega), consSweep]

theorem sweep_full {lo p : Word} {f : Word} {l : List Word} (h : SweepsTo lo p f l) (room : Nat) (hr : room < l.length) :
    sweep lo p room f = .noRoom := by
  induction h generalizing room with
  | stop f h => simp at hr
  | step f l h hg rest ih =>
    simp only [List.length_cons] at hr
    cases room with
    | zero => simp [sweep, h]
    | succ r => simp [sweep, h, sweepStep, hg, ih r (by omega), consSweep]

theorem sweep_stalls {lo p : Word} {f : Word} {n : Nat} (h : SweepStalls lo p f n) (room : Nat) :
    sweep lo p room f = if n < room then .noProgress else .noRoom := by
  induction h generalizing room with
  | here f h hg => cases room <;> simp [sweep, h, sweepStep, hg]
  | later f n h hg rest ih =>
    cases room with
    | zero => simp [sweep, h]
    | succ r =>
      simp [sweep, h, sweepStep, hg, ih r]
      split <;> rfl

theorem sweepOf_eq (s : State) : sweepOf s = sweep s.ops.genMin s.ops.genPrec (s.cfg.memWords - dstOf s) s.ops.genMax := by
  unfold sweepOf
  split
  · rfl
  · rename_i h
    cases hm : s.cfg.memWords - dstOf s <;> simp [sweep, h]

theorem pass_range {s : State} (h1 : isFinite s.ops.genMin = true) (h2 : isFinite s.ops.genMax = true)
    (h3 : isFinite s.ops.genPrec = true) (h4 : dstOf s ≤ s.cfg.memWords) : ∀ c ∈ rangeChecks s, c.1 = false := by
  simp [rangeChecks, h1, h2, h3]; omega

theorem exec_range {s : State} (he : s.status.err = false) (hp : ∀ c ∈ rangeChecks s, c.1 = false) :
    exec .genRange s = finishSweep (accept s) (sweepOf s) := by
  rw [exec, execGenRange, issue_of_ok _ _ he, runRange, rangeChecks_accept, checked_pass _ _ _ hp]; rfl

end Sys2Proof.Machine
end

