-- ==== Sys2Proof/Laws/Float.lean ====
section
/-! SUPPORT. What rounding to binary64 does: the result is representable, no representable magnitude is nearer, a tie goes
to the even one, and representable magnitudes are kept. -/

namespace Sys2Proof.Machine
open Sys2Proof.Config

/-! ## Encodings -/

/-- The magnitude, in units, of the F64 whose bits 62:0 are `bits`. -/
def magOfBits (bits : Nat) : Nat :=
  if bits / 2 ^ 52 = 0 then bits % 2 ^ 52 else (2 ^ 52 + bits % 2 ^ 52) * 2 ^ (bits / 2 ^ 52 - 1)

/-- A magnitude some F64 of unbounded exponent has: a significand of 53 bits times a power of two. -/
def Representable (y : Nat) : Prop := ∃ m j, m < 2 ^ 53 ∧ y = m * 2 ^ j

theorem packF64_toNat (neg : Bool) (bits : Nat) (h : bits < 2 ^ 63) :
    (packF64 neg bits).toNat = if neg then 2 ^ 63 + bits else bits := by
  unfold packF64
  rw [BitVec.toNat_ofNat, Nat.mod_eq_of_lt]
  cases neg
  · simp only [Bool.false_eq_true, if_false]; omega
  · simp only [if_true]; omega

@[simp] theorem signBit_packF64 (neg : Bool) (bits : Nat) (h : bits < 2 ^ 63) : signBit (packF64 neg bits) = neg := by
  cases neg
  · simp [signBit, packF64_toNat _ _ h]; omega
  · simp [signBit, packF64_toNat _ _ h]

theorem expField_packF64 (neg : Bool) (bits : Nat) (h : bits < 2 ^ 63) : expField (packF64 neg bits) = bits / 2 ^ 52 := by
  rw [expField, packF64_toNat _ _ h]
  cases neg <;> simp only [Bool.false_eq_true, if_false, if_true] <;> omega

theorem fracField_packF64 (neg : Bool) (bits : Nat) (h : bits < 2 ^ 63) : fracField (packF64 neg bits) = bits % 2 ^ 52 := by
  rw [fracField, packF64_toNat _ _ h]
  cases neg <;> simp only [Bool.false_eq_true, if_false, if_true] <;> omega

theorem magUnits_packF64 (neg : Bool) (bits : Nat) (h : bits < 2 ^ 63) : magUnits (packF64 neg bits) = magOfBits bits := by
  rw [magUnits, expField_packF64 _ _ h, fracField_packF64 _ _ h, magOfBits]

theorem infBits_lt : infBits < 2 ^ 63 := by decide

theorem isFinite_packF64 (neg : Bool) (bits : Nat) (h : bits ≤ infBits) :
    isFinite (packF64 neg bits) = decide (bits < infBits) := by
  have hb : bits < 2 ^ 63 := lt_of_le_of_lt h infBits_lt
  rw [isFinite, expField_packF64 _ _ hb, Bool.eq_iff_iff, decide_eq_true_iff, bne_iff_ne]
  unfold infBits at h ⊢
  omega

theorem isNan_packF64 (neg : Bool) (bits : Nat) (h : bits ≤ infBits) : isNan (packF64 neg bits) = false := by
  have hb : bits < 2 ^ 63 := lt_of_le_of_lt h infBits_lt
  rw [isNan, expField_packF64 _ _ hb, fracField_packF64 _ _ hb]
  simp only [infBits] at h
  simp only [Bool.and_eq_false_iff, beq_eq_false_iff_ne, bne_eq_false_iff_eq]
  omega


theorem expField_lt (w : Word) : expField w < 2 ^ 11 := Nat.mod_lt _ (by decide)

theorem fracField_lt (w : Word) : fracField w < 2 ^ 52 := Nat.mod_lt _ (by decide)

theorem representable_zero : Representable 0 := ⟨0, 0, by decide, rfl⟩

/-- Every F64's magnitude is representable. -/
theorem representable_magUnits (w : Word) : Representable (magUnits w) := by
  have h := fracField_lt w
  unfold magUnits
  split
  · exact ⟨fracField w, 0, by omega, by simp⟩
  · exact ⟨2 ^ 52 + fracField w, expField w - 1, by omega, rfl⟩

/-- The magnitude that `k` and a significand `f` encode. -/
theorem magOfBits_eq (k f : Nat) (hf : f ≤ 2 ^ 53) (hk : k = 0 ∨ 2 ^ 52 ≤ f) : magOfBits (k * 2 ^ 52 + f) = f * 2 ^ k := by
  unfold magOfBits
  rcases Nat.lt_or_ge f (2 ^ 52) with h1 | h1
  · have hk0 : k = 0 := by omega
    subst hk0
    rw [if_pos (by omega)]
    simp; omega
  · rcases Nat.lt_or_ge f (2 ^ 53) with h2 | h2
    · have hd : (k * 2 ^ 52 + f) / 2 ^ 52 = k + 1 := by omega
      have hm : (k * 2 ^ 52 + f) % 2 ^ 52 = f - 2 ^ 52 := by omega
      rw [hd, hm, if_neg (by omega), show k + 1 - 1 = k by omega, show 2 ^ 52 + (f - 2 ^ 52) = f by omega]
    · have hf2 : f = 2 ^ 53 := by omega
      subst hf2
      have hd : (k * 2 ^ 52 + 2 ^ 53) / 2 ^ 52 = k + 2 := by omega
      have hm : (k * 2 ^ 52 + 2 ^ 53) % 2 ^ 52 = 0 := by omega
      rw [hd, hm, if_neg (by omega), show k + 2 - 1 = k + 1 by omega, pow_succ]
      ring

/-- Encodings in rising order have magnitudes in rising order. -/
theorem magOfBits_strictMono {b c : Nat} (h : b < c) : magOfBits b < magOfBits c := by
  have hb : b % 2 ^ 52 < 2 ^ 52 := Nat.mod_lt _ (by decide)
  have hup : magOfBits b < 2 ^ 52 * 2 ^ (b / 2 ^ 52) := by
    unfold magOfBits
    split
    · rename_i h0; rw [h0]; simpa using hb
    · rename_i h0
      obtain ⟨e, he⟩ := Nat.exists_eq_succ_of_ne_zero h0
      have hpow : 2 ^ 52 * 2 ^ (e + 1) = (2 ^ 52 + 2 ^ 52) * 2 ^ e := by rw [pow_succ 2 e]; ring
      rw [he, Nat.succ_sub_one, Nat.succ_eq_add_one, hpow]
      exact Nat.mul_lt_mul_of_pos_right (by omega) (by positivity)
  rcases Nat.lt_or_ge (b / 2 ^ 52) (c / 2 ^ 52) with he | he
  · refine lt_of_lt_of_le hup ?_
    have hc : c / 2 ^ 52 ≠ 0 := by omega
    rw [magOfBits, if_neg hc]
    exact Nat.mul_le_mul (by omega) (Nat.pow_le_pow_right (by decide) (by omega))
  · have heq : b / 2 ^ 52 = c / 2 ^ 52 := le_antisymm (Nat.div_le_div_right h.le) he
    have hlt : b % 2 ^ 52 < c % 2 ^ 52 := by omega
    unfold magOfBits
    rw [heq]
    split
    · exact hlt
    · exact Nat.mul_lt_mul_of_pos_right (by omega) (by positivity)

theorem magOfBits_injective {b c : Nat} (h : magOfBits b = magOfBits c) : b = c := by
  rcases Nat.lt_trichotomy b c with hl | he | hl
  · exact absurd h (magOfBits_strictMono hl).ne
  · exact he
  · exact absurd h (magOfBits_strictMono hl).ne'

/-- Bits 62:0 of a word. -/
def lowBits (w : Word) : Nat := w.toNat % 2 ^ 63

theorem lowBits_lt (w : Word) : lowBits w < 2 ^ 63 := Nat.mod_lt _ (by decide)

theorem magUnits_eq_magOfBits (w : Word) : magUnits w = magOfBits (lowBits w) := by
  have h1 : lowBits w / 2 ^ 52 = expField w := by unfold lowBits expField; omega
  have h2 : lowBits w % 2 ^ 52 = fracField w := by unfold lowBits fracField; omega
  rw [magUnits, magOfBits, h1, h2]

theorem isFinite_iff (w : Word) : isFinite w = true ↔ lowBits w < infBits := by
  have h1 : lowBits w / 2 ^ 52 = expField w := by unfold lowBits expField; omega
  have h2 := lowBits_lt w
  simp only [isFinite, bne_iff_ne, ne_eq, infBits]
  omega

theorem isInf_iff (w : Word) : isInf w = true ↔ lowBits w = infBits := by
  have h1 : lowBits w / 2 ^ 52 = expField w := by unfold lowBits expField; omega
  have h2 : lowBits w % 2 ^ 52 = fracField w := by unfold lowBits fracField; omega
  have h3 := lowBits_lt w
  simp only [isInf, Bool.and_eq_true, beq_iff_eq, infBits]
  omega

theorem isNan_iff (w : Word) : isNan w = true ↔ infBits < lowBits w := by
  have h1 : lowBits w / 2 ^ 52 = expField w := by unfold lowBits expField; omega
  have h2 : lowBits w % 2 ^ 52 = fracField w := by unfold lowBits fracField; omega
  have h3 := lowBits_lt w
  simp only [isNan, Bool.and_eq_true, beq_iff_eq, bne_iff_ne, ne_eq, infBits]
  omega

/-- A word is its sign and its low bits. -/
theorem packF64_lowBits (w : Word) : packF64 (signBit w) (lowBits w) = w := by
  apply BitVec.eq_of_toNat_eq
  rw [packF64_toNat _ _ (lowBits_lt w)]
  have := w.isLt
  by_cases h : 2 ^ 63 ≤ w.toNat
  · simp only [signBit, h, decide_true, if_true, lowBits]; omega
  · simp only [signBit, h, decide_false, Bool.false_eq_true, if_false, lowBits]; omega

theorem lowBits_packF64 (neg : Bool) (bits : Nat) (h : bits < 2 ^ 63) : lowBits (packF64 neg bits) = bits := by
  rw [lowBits, packF64_toNat _ _ h]
  cases neg <;> simp only [Bool.false_eq_true, if_false, if_true] <;> omega

theorem scaled_packF64 (neg : Bool) (bits : Nat) (h : bits < 2 ^ 63) :
    scaled (packF64 neg bits) = if neg then -(magOfBits bits : Int) else magOfBits bits := by
  rw [scaled, signBit_packF64 _ _ h, magUnits_packF64 _ _ h]

/-- The NaN an operation produces is a NaN. -/
theorem isNan_nanResult (op : FloatOp) (a b : Word) : isNan (nanResult op a b) = true := by
  have hp := (freeNan op a b).payload.isLt
  have hb : infBits + ((freeNan op a b).payload.val + 1) < 2 ^ 63 := by unfold infBits; omega
  rw [isNan_iff, nanResult, lowBits_packF64 _ _ hb]
  omega

theorem isFinite_nanResult (op : FloatOp) (a b : Word) : isFinite (nanResult op a b) = false := by
  have h := (isNan_iff _).1 (isNan_nanResult op a b)
  cases hf : isFinite (nanResult op a b)
  · rfl
  · have := (isFinite_iff _).1 hf
    omega

theorem isNan_of_isFinite {w : Word} (h : isFinite w = true) : isNan w = false := by
  have h1 := (isFinite_iff w).1 h
  cases hn : isNan w
  · rfl
  · have := (isNan_iff w).1 hn
    omega

theorem isInf_of_isFinite {w : Word} (h : isFinite w = true) : isInf w = false := by
  have h1 := (isFinite_iff w).1 h
  cases hn : isInf w
  · rfl
  · have := (isInf_iff w).1 hn
    omega

/-! ## Rounding -/

/-- The exponent of the last place of `num / den`. -/
def lastPlace (num den : Nat) : Nat := (num / den).log2 - 52

theorem roundMag_eq (num den : Nat) : roundMag num den =
    min infBits (lastPlace num den * 2 ^ 52 + tieEven (num / (den * 2 ^ lastPlace num den))
      (num % (den * 2 ^ lastPlace num den)) (den * 2 ^ lastPlace num den)) := rfl

/-- The significand of `num / den`, cut off: at most 53 bits, and 53 bits unless it is subnormal. -/
theorem significand_bounds (num den : Nat) :
    num / (den * 2 ^ lastPlace num den) < 2 ^ 53
      ∧ (lastPlace num den = 0 ∨ 2 ^ 52 ≤ num / (den * 2 ^ lastPlace num den)) := by
  rw [← Nat.div_div_eq_div_mul]
  set q := num / den with hq
  have hk : lastPlace num den = q.log2 - 52 := rfl
  rw [hk]
  by_cases h0 : q = 0
  · simp [h0]
  · have hlo : 2 ^ q.log2 ≤ q := Nat.log2_self_le h0
    have hhi : q < 2 ^ (q.log2 + 1) := Nat.lt_log2_self
    rcases Nat.lt_or_ge q.log2 52 with hl | hl
    · have hz : q.log2 - 52 = 0 := by omega
      rw [hz, pow_zero, Nat.div_one]
      refine ⟨lt_of_lt_of_le hhi (Nat.pow_le_pow_right (by decide) (by omega)), .inl rfl⟩
    · refine ⟨?_, .inr ?_⟩
      · rw [Nat.div_lt_iff_lt_mul (by positivity), ← pow_add]
        exact lt_of_lt_of_le hhi (Nat.pow_le_pow_right (by decide) (by omega))
      · rw [Nat.le_div_iff_mul_le (by positivity), ← pow_add]
        exact le_trans (Nat.pow_le_pow_right (by decide) (by omega)) hlo

theorem tieEven_cases (f r step : Nat) :
    (tieEven f r step = f ∧ 2 * r ≤ step ∧ (2 * r = step → f % 2 = 0))
      ∨ (tieEven f r step = f + 1 ∧ step ≤ 2 * r ∧ (2 * r = step → f % 2 = 1)) := by
  unfold tieEven
  split
  · rename_i h; right; refine ⟨rfl, ?_, ?_⟩ <;> omega
  · rename_i h; left; refine ⟨rfl, ?_, ?_⟩ <;> omega

/-- No representable magnitude lies strictly between two neighbouring significands. -/
theorem representable_gap {y f k : Nat} (hy : Representable y) (hk : k = 0 ∨ 2 ^ 52 ≤ f) :
    y ≤ f * 2 ^ k ∨ (f + 1) * 2 ^ k ≤ y := by
  obtain ⟨m, j, hm, rfl⟩ := hy
  rcases Nat.lt_or_ge j k with hjk | hjk
  · left
    have hf : 2 ^ 52 ≤ f := by omega
    have h1 : m * 2 ^ j ≤ 2 ^ 53 * 2 ^ j := Nat.mul_le_mul_right _ hm.le
    have h2 : (2 : Nat) ^ 53 * 2 ^ j = 2 ^ 52 * 2 ^ (j + 1) := by rw [pow_succ 2 j]; ring
    have h3 : (2 : Nat) ^ 52 * 2 ^ (j + 1) ≤ f * 2 ^ k := Nat.mul_le_mul hf (Nat.pow_le_pow_right (by decide) hjk)
    omega
  · obtain ⟨d, rfl⟩ := Nat.exists_eq_add_of_le hjk
    rw [pow_add, show m * (2 ^ k * 2 ^ d) = m * 2 ^ d * 2 ^ k by ring]
    rcases Nat.lt_or_ge f (m * 2 ^ d) with h | h
    · right; exact Nat.mul_le_mul_right _ h
    · left; exact Nat.mul_le_mul_right _ h

/-- Everything rounding does: with `f` steps of `2^k` and remainder `r`, the result encodes `f` or `f + 1` steps, or it is
an infinity. -/
theorem roundMag_spec (num den : Nat) (hden : 0 < den) :
    ∃ k f r : Nat, num = (f * 2 ^ k) * den + r ∧ r < den * 2 ^ k ∧ f < 2 ^ 53 ∧ (k = 0 ∨ 2 ^ 52 ≤ f)
      ∧ roundMag num den = min infBits (k * 2 ^ 52 + tieEven f r (den * 2 ^ k))
      ∧ magOfBits (k * 2 ^ 52 + tieEven f r (den * 2 ^ k)) = tieEven f r (den * 2 ^ k) * 2 ^ k := by
  have hb := significand_bounds num den
  set k := lastPlace num den with hk
  have hstep : 0 < den * 2 ^ k := by positivity
  refine ⟨k, num / (den * 2 ^ k), num % (den * 2 ^ k), ?_, Nat.mod_lt _ hstep, hb.1, hb.2, rfl, ?_⟩
  · have := Nat.div_add_mod num (den * 2 ^ k)
    rw [show num / (den * 2 ^ k) * 2 ^ k * den = den * 2 ^ k * (num / (den * 2 ^ k)) by ring]
    exact this.symm
  · refine magOfBits_eq _ _ ?_ ?_
    · rcases tieEven_cases (num / (den * 2 ^ k)) (num % (den * 2 ^ k)) (den * 2 ^ k) with h | h <;> omega
    · rcases hb.2 with h | h
      · exact .inl h
      · right
        rcases tieEven_cases (num / (den * 2 ^ k)) (num % (den * 2 ^ k)) (den * 2 ^ k) with h' | h' <;> omega

theorem roundMag_le (num den : Nat) : roundMag num den ≤ infBits := by rw [roundMag_eq]; exact min_le_left _ _

theorem roundMag_lt (num den : Nat) : roundMag num den < 2 ^ 63 := lt_of_le_of_lt (roundMag_le _ _) infBits_lt

/-- The nearer neighbour on a line: of the neighbours `v` and `v + s` of `v + r`, the one on `r`'s side of the half is not
farther than any `y` outside the gap, and a `y` as near that is not it makes a tie. -/
theorem nearest_of_gap (v s r y : Int) (hr0 : 0 ≤ r) (hr : r < s) (hy : y ≤ v ∨ v + s ≤ y) :
    (2 * r ≤ s → |v + r - v| ≤ |v + r - y| ∧ (|v + r - v| = |v + r - y| → y ≠ v → 2 * r = s))
      ∧ (s ≤ 2 * r → |v + r - (v + s)| ≤ |v + r - y| ∧ (|v + r - (v + s)| = |v + r - y| → y ≠ v + s → 2 * r = s)) := by
  have h1 : |v + r - v| = r := by rw [show v + r - v = r by ring, abs_of_nonneg hr0]
  have h2 : |v + r - (v + s)| = s - r := by rw [show v + r - (v + s) = -(s - r) by ring, abs_neg, abs_of_nonneg (by omega)]
  rw [h1, h2]
  rcases hy with hy | hy
  · have h3 : |v + r - y| = v + r - y := abs_of_nonneg (by omega)
    rw [h3]
    refine ⟨fun h => ⟨by omega, fun h4 h5 => by omega⟩, fun h => ⟨by omega, fun h4 h5 => by omega⟩⟩
  · have h3 : |v + r - y| = -(v + r - y) := abs_of_nonpos (by omega)
    rw [h3]
    refine ⟨fun h => ⟨by omega, fun h4 h5 => by omega⟩, fun h => ⟨by omega, fun h4 h5 => by omega⟩⟩

/-- Rounding to nearest: no representable magnitude is nearer to `num / den` than the result, and one that is as near
leaves the result an even encoding. -/
theorem roundMag_nearest (num den : Nat) (hden : 0 < den) (hfin : roundMag num den < infBits) (y : Nat)
    (hy : Representable y) :
    |(num : Int) - den * magOfBits (roundMag num den)| ≤ |(num : Int) - den * y|
      ∧ (|(num : Int) - den * magOfBits (roundMag num den)| = |(num : Int) - den * y| →
          y ≠ magOfBits (roundMag num den) → roundMag num den % 2 = 0) := by
  obtain ⟨k, f, r, hnum, hr, hf, hk, hround, hmag⟩ := roundMag_spec num den hden
  have hbits : roundMag num den = k * 2 ^ 52 + tieEven f r (den * 2 ^ k) := by rw [hround] at hfin ⊢; omega
  rw [hbits, hmag]
  have hgap : (den : Int) * y ≤ den * (f * 2 ^ k) ∨ (den : Int) * (f * 2 ^ k) + den * 2 ^ k ≤ den * y := by
    rcases representable_gap hy hk with h | h
    · left; exact_mod_cast Nat.mul_le_mul_left den h
    · right
      have h1 := Nat.mul_le_mul_left den h
      rw [show den * ((f + 1) * 2 ^ k) = den * (f * 2 ^ k) + den * 2 ^ k by ring] at h1
      exact_mod_cast h1
  have hnumI : (num : Int) = den * (f * 2 ^ k) + r := by
    rw [hnum]; push_cast; ring
  have core := nearest_of_gap (den * (f * 2 ^ k)) (den * 2 ^ k) r (den * y) (Int.natCast_nonneg r)
    (by exact_mod_cast hr) hgap
  have hne : ∀ z : Nat, y ≠ z → (den : Int) * y ≠ den * z := by
    intro z hz h
    apply hz
    have hd : (den : Int) ≠ 0 := by exact_mod_cast hden.ne'
    exact_mod_cast mul_left_cancel₀ hd h
  rcases tieEven_cases f r (den * 2 ^ k) with ⟨ht, h2, heven⟩ | ⟨ht, h2, hodd⟩
  · rw [ht, hnumI]
    obtain ⟨c1, c2⟩ := core.1 (by exact_mod_cast h2)
    push_cast
    refine ⟨c1, fun h hy' => ?_⟩
    have hn := hne _ hy'
    push_cast at hn
    have htie : 2 * r = den * 2 ^ k := by exact_mod_cast c2 h hn
    have := heven htie
    omega
  · rw [ht, hnumI]
    obtain ⟨c1, c2⟩ := core.2 (by exact_mod_cast h2)
    have hup : (den : Int) * (((f + 1) * 2 ^ k : Nat) : Int) = den * (f * 2 ^ k) + den * 2 ^ k := by push_cast; ring
    rw [hup]
    refine ⟨c1, fun h hy' => ?_⟩
    have hn := hne _ hy'
    rw [hup] at hn
    have htie : 2 * r = den * 2 ^ k := by exact_mod_cast c2 h hn
    have := hodd htie
    omega

/-- A magnitude that fits is kept: rounding an exact multiple of an encoding gives that encoding. -/
theorem roundMag_exact (bits den : Nat) (hden : 0 < den) (hb : bits < infBits) :
    roundMag (magOfBits bits * den) den = bits := by
  have hrep : Representable (magOfBits bits) := by
    have h63 : bits < 2 ^ 63 := lt_trans hb infBits_lt
    have := representable_magUnits (packF64 false bits)
    rwa [magUnits_packF64 _ _ h63] at this
  obtain ⟨k, f, r, hnum, hr, hf, hk, hround, hmag⟩ := roundMag_spec (magOfBits bits * den) den hden
  have hp : 0 < 2 ^ k := by positivity
  have hval : magOfBits bits = f * 2 ^ k ∧ r = 0 := by
    rcases representable_gap hrep hk with h | h
    · have h1 : magOfBits bits * den ≤ f * 2 ^ k * den := Nat.mul_le_mul_right _ h
      have h2 : r = 0 := by omega
      refine ⟨?_, h2⟩
      have h3 : magOfBits bits * den = f * 2 ^ k * den := by omega
      exact Nat.eq_of_mul_eq_mul_right hden h3
    · exfalso
      have h1 : (f + 1) * 2 ^ k * den ≤ magOfBits bits * den := Nat.mul_le_mul_right _ h
      have h2 : (f + 1) * 2 ^ k * den = f * 2 ^ k * den + den * 2 ^ k := by ring
      omega
  have ht : tieEven f r (den * 2 ^ k) = f := by
    have hs : 0 < den * 2 ^ k := by positivity
    rw [hval.2, tieEven, if_neg (by omega)]
  rw [ht] at hround hmag
  have hbits : k * 2 ^ 52 + f = bits := magOfBits_injective (by rw [hmag, hval.1])
  rw [hround, hbits]
  omega

/-- Rounding is not below a representable magnitude that the exact value reaches. -/
theorem roundMag_ge (num den bits : Nat) (hden : 0 < den) (hb : bits ≤ infBits)
    (h : magOfBits bits * den ≤ num) : bits ≤ roundMag num den := by
  obtain ⟨k, f, r, hnum, hr, hf, hk, hround, hmag⟩ := roundMag_spec num den hden
  rw [hround]
  refine le_min hb ?_
  by_contra hlt
  have hmono := magOfBits_strictMono (Nat.lt_of_not_le hlt)
  rw [hmag] at hmono
  have h63 : bits < 2 ^ 63 := lt_of_le_of_lt hb infBits_lt
  have hrep : Representable (magOfBits bits) := by
    have := representable_magUnits (packF64 false bits)
    rwa [magUnits_packF64 _ _ h63] at this
  have htie : f ≤ tieEven f r (den * 2 ^ k) := by
    rcases tieEven_cases f r (den * 2 ^ k) with h' | h' <;> omega
  have hfl : f * 2 ^ k < magOfBits bits := lt_of_le_of_lt (Nat.mul_le_mul_right _ htie) hmono
  rcases representable_gap hrep hk with h' | h'
  · omega
  · have h1 : (f + 1) * 2 ^ k * den ≤ num := le_trans (Nat.mul_le_mul_right _ h') h
    have h2 : (f + 1) * 2 ^ k * den = f * 2 ^ k * den + den * 2 ^ k := by ring
    omega

/-- Rounding is not above a representable magnitude that the exact value does not exceed. -/
theorem roundMag_le_of (num den bits : Nat) (hden : 0 < den) (hb : bits ≤ infBits)
    (h : num ≤ magOfBits bits * den) : roundMag num den ≤ bits := by
  obtain ⟨k, f, r, hnum, hr, hf, hk, hround, hmag⟩ := roundMag_spec num den hden
  rw [hround]
  refine le_trans (min_le_right _ _) ?_
  by_contra hlt
  have hmono := magOfBits_strictMono (Nat.lt_of_not_le hlt)
  rw [hmag] at hmono
  have h63 : bits < 2 ^ 63 := lt_of_le_of_lt hb infBits_lt
  have hrep : Representable (magOfBits bits) := by
    have := representable_magUnits (packF64 false bits)
    rwa [magUnits_packF64 _ _ h63] at this
  rcases representable_gap hrep hk with h' | h'
  · have h1 : magOfBits bits * den ≤ f * 2 ^ k * den := Nat.mul_le_mul_right _ h'
    have hr0 : r = 0 := by omega
    have ht : tieEven f r (den * 2 ^ k) = f := by
      have hs : 0 < den * 2 ^ k := by positivity
      rw [hr0, tieEven, if_neg (by omega)]
    rw [ht] at hmono
    have : f * 2 ^ k ≤ magOfBits bits := by
      have h2 : f * 2 ^ k * den ≤ magOfBits bits * den := by omega
      exact Nat.le_of_mul_le_mul_right h2 hden
    omega
  · have ht : tieEven f r (den * 2 ^ k) ≤ f + 1 := by
      rcases tieEven_cases f r (den * 2 ^ k) with h'' | h'' <;> omega
    have : tieEven f r (den * 2 ^ k) * 2 ^ k ≤ (f + 1) * 2 ^ k := Nat.mul_le_mul_right _ ht
    omega

/-- The rounded magnitude is more than the exact one less one part in `2^52`, where it is not exact in units. -/
theorem roundMag_lower (num den : Nat) (hden : 0 < den) (hfin : roundMag num den < infBits) :
    ∃ k, 2 ^ k * den > num - magOfBits (roundMag num den) * den ∧ (k = 0 ∨ 2 ^ 52 * 2 ^ k * den ≤ num) := by
  obtain ⟨k, f, r, hnum, hr, hf, hk, hround, hmag⟩ := roundMag_spec num den hden
  have hbits : roundMag num den = k * 2 ^ 52 + tieEven f r (den * 2 ^ k) := by rw [hround] at hfin ⊢; omega
  refine ⟨k, ?_, ?_⟩
  · rw [hbits, hmag]
    have htie : f ≤ tieEven f r (den * 2 ^ k) := by
      rcases tieEven_cases f r (den * 2 ^ k) with h' | h' <;> omega
    have h1 : f * 2 ^ k * den ≤ tieEven f r (den * 2 ^ k) * 2 ^ k * den :=
      Nat.mul_le_mul_right _ (Nat.mul_le_mul_right _ htie)
    have h2 : den * 2 ^ k = 2 ^ k * den := by ring
    omega
  · rcases hk with h | h
    · exact .inl h
    · right
      have : 2 ^ 52 * 2 ^ k * den ≤ f * 2 ^ k * den := Nat.mul_le_mul_right _ (Nat.mul_le_mul_right _ h)
      omega

end Sys2Proof.Machine
end

