-- ==== Sys2Proof/Laws/PerInstr.lean ====
section
/-! SUPPORT. A statement about every command as syntax, one lemma per constructor: its encoded word is a legal command word
(spec/30_encoding.md R80, R82) that decodes to it. -/

namespace Sys2Proof.Laws.EncodedWordLegal

/-- The encoded word of a well-formed command is legal and decodes to that command. -/
def Statement (i : Instr) : Prop := i.wf = true → commandWordWf (encode i) = true ∧ decode (encode i) = some i

theorem bqDesignLp : Statement .bqDesignLp := fun _ => by decide
theorem bqDesignHp : Statement .bqDesignHp := fun _ => by decide
theorem bqApply : Statement .bqApply := fun _ => by decide
theorem firDecimate : Statement .firDecimate := fun _ => by decide
theorem genRange : Statement .genRange := fun _ => by decide
theorem detect : Statement .detect := fun _ => by decide
theorem spectrum : Statement .spectrum := fun _ => by decide
theorem normalize : Statement .normalize := fun _ => by decide

end Sys2Proof.Laws.EncodedWordLegal
end

