-- ==== Sys2Proof/Laws/Rounding.lean ====
section
/-! SUPPORT. What the arithmetic operations answer on finite operands: the exact value, correctly rounded. -/

namespace Sys2Proof.Machine
open Sys2Proof.Config

/-! ## The exact value, rounded -/

/-- In the topmost binade, with steps of `q = 2 * h`, rounding reaches `2^53` steps exactly from half a step below. -/
theorem top_binade (f r e q h : Nat) (hq : q = 2 * h) (hf : f < 2 ^ 53) (hr : r < q)
    (he : (e = f ∧ 2 * r ≤ q ∧ (2 * r = q → f % 2 = 0)) ∨ (e = f + 1 ∧ q ≤ 2 * r ∧ (2 * r = q → f % 2 = 1))) :
    2 ^ 53 ≤ e ↔ (2 ^ 53 - 1) * q + h ≤ f * q + r := by
  rcases Nat.lt_or_ge f (2 ^ 53 - 1) with hlt | hge
  · have h1 : (f + 1) * q ≤ (2 ^ 53 - 1) * q := Nat.mul_le_mul_right _ hlt
    have h2 : (f + 1) * q = f * q + q := by ring
    generalize f * q = a at *
    constructor
    · intro h3
      omega
    · intro h3
      omega
  · have hf' : f = 2 ^ 53 - 1 := by omega
    subst hf'
    generalize (2 ^ 53 - 1) * q = a at *
    constructor
    · intro h3
      omega
    · intro h3
      by_contra hc
      rcases he with ⟨h4, h5, h6⟩ | ⟨h4, h5, h6⟩
      · have := h6 (by omega)
        omega
      · omega

/-- The least magnitude that rounds to an infinity. -/
theorem roundMag_eq_infBits_iff (num den : Nat) (hden : 0 < den) :
    roundMag num den = infBits ↔ overflowUnits * den ≤ num := by
  obtain ⟨k, f, r, hnum, hr, hf, hk, hround, hmag⟩ := roundMag_spec num den hden
  have hinf : magOfBits infBits = 2 ^ 2098 := by
    rw [show infBits = 2046 * 2 ^ 52 + 2 ^ 52 by decide, magOfBits_eq 2046 (2 ^ 52) (by decide) (.inr (le_refl _)), ← pow_add]
  have hT : overflowUnits = (2 ^ 53 - 1) * 2 ^ 2045 + 2 ^ 2044 := by
    rw [overflowUnits, show (2 : Nat) ^ 2045 = 2 * 2 ^ 2044 by rw [← pow_succ']]
    generalize (2 : Nat) ^ 2044 = a
    omega
  have hT2 : overflowUnits + 2 ^ 2044 = 2 ^ 2098 := by
    rw [hT, show (2 : Nat) ^ 2098 = 2 ^ 54 * 2 ^ 2044 by rw [← pow_add], show (2 : Nat) ^ 2045 = 2 * 2 ^ 2044 by rw [← pow_succ']]
    generalize (2 : Nat) ^ 2044 = a
    omega
  set e := tieEven f r (den * 2 ^ k) with he
  have hiff : roundMag num den = infBits ↔ 2 ^ 2098 ≤ e * 2 ^ k := by
    rw [hround, ← hmag, ← hinf]
    constructor
    · intro h
      have h1 : infBits ≤ k * 2 ^ 52 + e := by omega
      rcases Nat.eq_or_lt_of_le h1 with h2 | h2
      · rw [← h2]
      · exact (magOfBits_strictMono h2).le
    · intro h
      have h1 : infBits ≤ k * 2 ^ 52 + e := by
        by_contra hc
        exact absurd (magOfBits_strictMono (Nat.lt_of_not_le hc)) (Nat.not_lt.2 h)
      omega
  rw [hiff]
  have hef := tieEven_cases f r (den * 2 ^ k)
  rw [← he] at hef
  clear_value e
  rcases Nat.lt_trichotomy k 2045 with hlt | rfl | hgt
  · have h1 : e * 2 ^ k ≤ 2 ^ 53 * 2 ^ 2044 :=
      Nat.mul_le_mul (by omega) (Nat.pow_le_pow_right (by decide) (by omega))
    have h2 : (2 : Nat) ^ 53 * 2 ^ 2044 < 2 ^ 2098 := by rw [← pow_add]; exact Nat.pow_lt_pow_right (by decide) (by decide)
    have h3 : num < 2 ^ 53 * 2 ^ 2044 * den := by
      have : num < (f + 1) * 2 ^ k * den := by
        rw [hnum, show (f + 1) * 2 ^ k * den = f * 2 ^ k * den + den * 2 ^ k by ring]
        omega
      exact lt_of_lt_of_le this (Nat.mul_le_mul_right _ (Nat.mul_le_mul (by omega)
        (Nat.pow_le_pow_right (by decide) (by omega))))
    have h4 : (2 : Nat) ^ 53 * 2 ^ 2044 ≤ overflowUnits := by
      unfold overflowUnits
      exact Nat.mul_le_mul_right _ (by decide)
    have h5 := Nat.mul_le_mul_right den h4
    constructor <;> intro h <;> omega
  · have h98 : (2 : Nat) ^ 2098 = 2 ^ 53 * 2 ^ 2045 := by rw [← pow_add]
    rw [h98, Nat.mul_le_mul_right_iff (by positivity)]
    have hTd : overflowUnits * den = (2 ^ 53 - 1) * (den * 2 ^ 2045) + den * 2 ^ 2044 := by rw [hT]; ring
    rw [hTd, hnum, show f * 2 ^ 2045 * den = f * (den * 2 ^ 2045) by ring]
    exact top_binade f r e _ _ (by rw [show (2 : Nat) ^ 2045 = 2 * 2 ^ 2044 by rw [← pow_succ']]; ring) hf hr hef
  · have hf52 : 2 ^ 52 ≤ f := by omega
    have h1 : (2 : Nat) ^ 2098 ≤ f * 2 ^ k := by
      rw [show (2 : Nat) ^ 2098 = 2 ^ 52 * 2 ^ 2046 by rw [← pow_add]]
      exact Nat.mul_le_mul hf52 (Nat.pow_le_pow_right (by decide) (by omega))
    have h2 : f * 2 ^ k ≤ e * 2 ^ k := Nat.mul_le_mul_right _ (by omega)
    have h3 : overflowUnits * den ≤ 2 ^ 2098 * den := Nat.mul_le_mul_right _ (by omega)
    have h4 : 2 ^ 2098 * den ≤ f * 2 ^ k * den := Nat.mul_le_mul_right _ h1
    constructor <;> intro h <;> omega

theorem fracField_packF64_mod_two (neg : Bool) (bits : Nat) (h : bits < 2 ^ 63) :
    fracField (packF64 neg bits) % 2 = bits % 2 := by
  rw [fracField_packF64 _ _ h]
  omega

/-- A signed exact value rounded and packed. -/
theorem roundsTo_pack (neg : Bool) (num den : Nat) (hden : 0 < den) :
    RoundsTo (if neg then -(num : Int) else num) den (packF64 neg (roundMag num den)) := by
  have hle := roundMag_le num den
  have hlt := roundMag_lt num den
  refine ⟨isNan_packF64 _ _ hle, ?_, ?_, ?_, ?_⟩
  · rw [isInf_iff, lowBits_packF64 _ _ hlt, roundMag_eq_infBits_iff _ _ hden]
    cases neg <;> simp
  · intro hfin x hx
    rw [isFinite_packF64 _ _ hle, decide_eq_true_iff] at hfin
    have hrep := representable_magUnits x
    obtain ⟨n1, n2⟩ := roundMag_nearest num den hden hfin (magUnits x) hrep
    obtain ⟨z1, -⟩ := roundMag_nearest num den hden hfin 0 representable_zero
    rw [scaled_packF64 _ _ hlt, fracField_packF64_mod_two _ _ hlt]
    set w := magOfBits (roundMag num den) with hw
    have key : ∀ same : Bool,
        |(num : Int) - den * w| ≤ |(num : Int) - den * (if same then (magUnits x : Int) else -(magUnits x : Int))|
        ∧ (|(num : Int) - den * w| = |(num : Int) - den * (if same then (magUnits x : Int) else -(magUnits x : Int))| →
            (if same then (magUnits x : Int) else -(magUnits x : Int)) ≠ w → roundMag num den % 2 = 0) := by
      intro same
      cases same
      · simp only [Bool.false_eq_true, if_false]
        by_cases h0 : magUnits x = 0
        · rw [h0] at n1 n2 ⊢
          simp only [Int.natCast_zero, neg_zero] at n1 n2 ⊢
          refine ⟨n1, fun h1 h2 => n2 h1 ?_⟩
          exact_mod_cast h2
        · have hpos : (0 : Int) < den * magUnits x := by positivity
          have e : |(num : Int) - den * -(magUnits x : Int)| = num + den * magUnits x := by
            rw [show (num : Int) - den * -(magUnits x : Int) = num + den * magUnits x by ring]
            exact abs_of_nonneg (by omega)
          have z : |(num : Int) - den * ((0 : Nat) : Int)| = num := by simp
          rw [e]
          rw [z] at z1
          exact ⟨by omega, fun h => by omega⟩
      · simp only [if_true]
        exact ⟨n1, fun h1 h2 => n2 h1 (by exact_mod_cast h2)⟩
    have hsx : scaled x = if signBit x then -(magUnits x : Int) else magUnits x := rfl
    cases neg
    · have := key (!signBit x)
      simp only [Bool.false_eq_true, if_false]
      cases hs : signBit x <;> simp only [hs, Bool.not_false, Bool.not_true, if_true, if_false, Bool.false_eq_true] at this hsx <;>
        rw [hsx] <;> exact this
    · have := key (signBit x)
      simp only [if_true]
      have flip : ∀ y : Int, |-(num : Int) - den * y| = |(num : Int) - den * -y| := by
        intro y
        rw [← abs_neg]
        congr 1
        ring
      rw [flip, flip, neg_neg]
      cases hs : signBit x <;> simp only [hs, if_true, if_false, Bool.false_eq_true] at this hsx <;> rw [hsx]
      · refine ⟨this.1, fun h1 h2 => this.2 h1 (by omega)⟩
      · rw [neg_neg]
        refine ⟨this.1, fun h1 h2 => this.2 h1 (by omega)⟩
  · intro h
    rw [signBit_packF64 _ _ hlt]
    cases neg
    · simp at h; omega
    · rfl
  · intro h
    rw [signBit_packF64 _ _ hlt]
    cases neg
    · rfl
    · simp at h; omega

/-! ## The sign -/

/-- Flipping bit 63 adds or takes away `2^63`. -/
theorem xor_top (l : Nat) (h : l < 2 ^ 63) : l ^^^ 2 ^ 63 = 2 ^ 63 + l ∧ (2 ^ 63 + l) ^^^ 2 ^ 63 = l := by
  have h1 : l ^^^ 2 ^ 63 = 2 ^ 63 + l := by
    apply Nat.eq_of_testBit_eq
    intro i
    rw [Nat.testBit_xor, Nat.testBit_two_pow]
    rcases Nat.lt_trichotomy i 63 with hi | hi | hi
    · rw [Nat.testBit_two_pow_add_gt hi]
      have : decide (63 = i) = false := by simp; omega
      rw [this, Bool.xor_false]
    · subst hi
      rw [Nat.testBit_two_pow_add_eq]
      simp [Nat.testBit_lt_two_pow h]
    · have h2 : l < 2 ^ i := lt_trans h (Nat.pow_lt_pow_right (by decide) hi)
      have h3 : 2 ^ 63 + l < 2 ^ i := lt_of_lt_of_le (by omega : 2 ^ 63 + l < 2 ^ 64) (Nat.pow_le_pow_right (by decide) hi)
      rw [Nat.testBit_lt_two_pow h2, Nat.testBit_lt_two_pow h3]
      simp
      omega
  refine ⟨h1, ?_⟩
  rw [← h1, Nat.xor_assoc, Nat.xor_self, Nat.xor_zero]

/-- `fneg` flips the sign and keeps the rest. -/
theorem fneg_eq (a : Word) : fneg a = packF64 (!signBit a) (lowBits a) := by
  have hl := lowBits_lt a
  apply BitVec.eq_of_toNat_eq
  rw [packF64_toNat _ _ hl]
  conv_lhs => rw [fneg, ← packF64_lowBits a, BitVec.toNat_xor, packF64_toNat _ _ hl]
  have hx := xor_top _ hl
  cases signBit a
  · simpa using hx.1
  · simpa using hx.2

@[simp] theorem signBit_fneg (a : Word) : signBit (fneg a) = !signBit a := by
  rw [fneg_eq, signBit_packF64 _ _ (lowBits_lt a)]

@[simp] theorem lowBits_fneg (a : Word) : lowBits (fneg a) = lowBits a := by
  rw [fneg_eq, lowBits_packF64 _ _ (lowBits_lt a)]

@[simp] theorem magUnits_fneg (a : Word) : magUnits (fneg a) = magUnits a := by
  rw [magUnits_eq_magOfBits, magUnits_eq_magOfBits, lowBits_fneg]

@[simp] theorem scaled_fneg (a : Word) : scaled (fneg a) = -scaled a := by
  rw [scaled, scaled, signBit_fneg, magUnits_fneg]
  cases signBit a <;> simp

theorem isFinite_congr {a b : Word} (h : lowBits a = lowBits b) : isFinite a = isFinite b := by
  rw [Bool.eq_iff_iff, isFinite_iff, isFinite_iff, h]

@[simp] theorem isFinite_fneg (a : Word) : isFinite (fneg a) = isFinite a := isFinite_congr (lowBits_fneg a)

/-! ## The operations on finite operands -/

/-- The exact sum. -/
theorem addNumbers_finite {a b : Word} (ha : isFinite a = true) (hb : isFinite b = true) :
    addNumbers a b = packF64 (if scaled a + scaled b = 0 then signBit a && signBit b else decide (scaled a + scaled b < 0))
      (roundMag (scaled a + scaled b).natAbs 1) := by
  simp [addNumbers, isInf_of_isFinite ha, isInf_of_isFinite hb]

theorem fadd_finite {a b : Word} (ha : isFinite a = true) (hb : isFinite b = true) : fadd a b = addNumbers a b := by
  simp [fadd, isNan_of_isFinite ha, isNan_of_isFinite hb, isInf_of_isFinite ha]

theorem fsub_finite {a b : Word} (ha : isFinite a = true) (hb : isFinite b = true) : fsub a b = addNumbers a (fneg b) := by
  simp [fsub, isNan_of_isFinite ha, isNan_of_isFinite hb, isInf_of_isFinite ha]

theorem fmul_finite {a b : Word} (ha : isFinite a = true) (hb : isFinite b = true) :
    fmul a b = packF64 (signBit a != signBit b) (roundMag (magUnits a * magUnits b) one1074) := by
  simp [fmul, isNan_of_isFinite ha, isNan_of_isFinite hb, isInf_of_isFinite ha, isInf_of_isFinite hb]

theorem fdiv_finite {a b : Word} (ha : isFinite a = true) (hb : isFinite b = true) (h0 : magUnits b ≠ 0) :
    fdiv a b = packF64 (signBit a != signBit b) (roundMag (magUnits a * one1074) (magUnits b)) := by
  simp [fdiv, isNan_of_isFinite ha, isNan_of_isFinite hb, isInf_of_isFinite ha, isInf_of_isFinite hb, h0]

theorem one1074_pos : 0 < one1074 := by
  unfold one1074
  positivity

theorem roundsTo_int (n : Int) (neg : Bool) (h : n = 0 ∨ neg = decide (n < 0)) (den : Nat) (hd : 0 < den) :
    RoundsTo n den (packF64 neg (roundMag n.natAbs den)) := by
  have := roundsTo_pack neg n.natAbs den hd
  have e : (if neg = true then -(n.natAbs : Int) else (n.natAbs : Int)) = n := by
    rcases h with rfl | rfl
    · simp
    · by_cases hn : n < 0
      · rw [decide_eq_true hn, if_pos rfl]
        omega
      · rw [decide_eq_false hn, if_neg (by decide)]
        omega
  rwa [e] at this

theorem roundsTo_addNumbers {a b : Word} (ha : isFinite a = true) (hb : isFinite b = true) :
    RoundsTo (scaled a + scaled b) 1 (addNumbers a b) := by
  rw [addNumbers_finite ha hb]
  apply roundsTo_int _ _ _ _ (by decide)
  by_cases h : scaled a + scaled b = 0
  · exact .inl h
  · right; simp [h]

theorem scaled_eq_zero_iff (a : Word) : scaled a = 0 ↔ magUnits a = 0 := by
  unfold scaled; split <;> omega

theorem natAbs_scaled (a : Word) : (scaled a).natAbs = magUnits a := by
  unfold scaled; split <;> simp

theorem scaled_mul (a b : Word) : scaled a * scaled b = if signBit a != signBit b then -((magUnits a * magUnits b : Nat) : Int) else ((magUnits a * magUnits b : Nat) : Int) := by
  unfold scaled
  cases signBit a <;> cases signBit b <;> simp

/-! ## Infinities -/

theorem isNan_of_isInf {w : Word} (h : isInf w = true) : isNan w = false := by
  cases hn : isNan w
  · rfl
  · have := (isInf_iff w).1 h
    have := (isNan_iff w).1 hn
    omega

theorem magUnits_ne_zero_of_isInf {w : Word} (h : isInf w = true) : magUnits w ≠ 0 := by
  intro h0
  rw [magUnits_eq_magOfBits, (isInf_iff w).1 h] at h0
  have := magOfBits_strictMono (b := 0) (c := infBits) (by decide)
  omega

theorem isInf_packF64_infBits (neg : Bool) : isInf (packF64 neg infBits) = true := by
  rw [isInf_iff, lowBits_packF64 _ _ infBits_lt]

@[simp] theorem isInf_fneg (w : Word) : isInf (fneg w) = isInf w := by
  rw [Bool.eq_iff_iff, isInf_iff, isInf_iff, lowBits_fneg]

end Sys2Proof.Machine
end

