-- ==== Sys2Proof/Tests/Slice0.lean ====
section
/-! SUPPORT. The model's own tests: the legality checks, decoding, one or two single steps per command with the results of
spec/95_test_vectors.md, and for every statement with hypotheses a concrete state that meets them. -/

namespace Sys2Proof.Tests
set_option Elab.async false
open Sys2Proof Sys2Proof.Machine Sys2Proof.Config

/-! ## Helpers -/

/-- 1.0 to 8.0, the frame `FA` of spec/95_test_vectors.md P2. -/
def upTo8 : List Word :=
  [0x3FF0000000000000#64, 0x4000000000000000#64, 0x4008000000000000#64, 0x4010000000000000#64, 0x4014000000000000#64, 0x4018000000000000#64, 0x401C000000000000#64, 0x4020000000000000#64]

/-- The test configuration `T` of spec/95_test_vectors.md, with the answers of V-BQ-1, P2 and V-SPC-1. -/
def testBuild : Build :=
  { memWords := 64, frameMax := 1024, xfSizes := [1, 4, 8, 1024]
    xfTable :=
      [{ frame := upTo8, re := [0x0000000000000000#64, 0x0000000000000000#64, 0x0000000000000000#64, 0x403E000000000000#64, 0x0000000000000000#64, 0x403E000000000000#64], im := [0x0000000000000000#64, 0x0000000000000000#64, 0x0000000000000000#64, 0xC044000000000000#64, 0x0000000000000000#64, 0x4044000000000000#64] },
       { frame := upTo8.reverse, re := [0x0000000000000000#64, 0x0000000000000000#64, 0x4008000000000000#64, 0x0000000000000000#64, 0x0000000000000000#64, 0x0000000000000000#64, 0x4008000000000000#64], im := [0x0000000000000000#64, 0x0000000000000000#64, 0x4010000000000000#64, 0x0000000000000000#64, 0x0000000000000000#64, 0x0000000000000000#64, 0xC010000000000000#64] },
       { frame := [0x3FF0000000000000#64, 0x0000000000000000#64, 0xBFF0000000000000#64, 0x0000000000000000#64], re := [0x0000000000000000#64, 0x4000000000000000#64, 0x0000000000000000#64, 0x4000000000000000#64], im := [] }]
    tanTable := [(0x3FE921FB54442D18#64, 0x3FF0000000000000#64)]
    fir2 := [0x3FD0000000000000#64, 0x3FE0000000000000#64, 0x3FD0000000000000#64], fir3 := [0x3FE0000000000000#64, 0x3FE0000000000000#64]
    fir4 := [0x3FE0000000000000#64, 0x3FE0000000000000#64], fir8 := List.replicate 8 0x3FC0000000000000#64
    minPeakReset := 0x408F400000000000#64, gearDiv := 0x4020000000000000#64 }

/-- A machine of the test configuration with these registers, and these words from address 0 on. -/
def start (regs : List (Reg × Word)) (xs : List Word) : State :=
  regs.foldl (fun s p => regPut p.1 p.2 s) { State.ofBuild testBuild with mem := writeWords [] 0 xs }

/-- The machine with one transaction pending. -/
def pending (op : HostOp) (s : State) : State := { s with inbox := [op] }

/-- The outcome is a next state that passes the test. -/
def ends (r : Result) (p : State → Bool) : Bool :=
  match r with
  | .next t => p t
  | .fault _ => false
  | .refused _ => false

theorem exists_of_ends {r : Result} {p : State → Bool} (h : ends r p = true) : ∃ t, r = .next t ∧ p t = true := by
  cases r with
  | next t => exact ⟨t, rfl, h⟩
  | fault e => cases h
  | refused e => cases h

/-- `STATUS`, `ERRINFO`, `DLEN` and these words from `a` on read so. -/
def reads (status errinfo dlen : Word) (a : Nat) (xs : List Word) (t : State) : Bool :=
  regRead t 0x01#5 == status && regRead t 0x02#5 == errinfo && regRead t 0x06#5 == dlen
    && decide (∀ i < xs.length, readWord t.mem (a + i) = xs[i]?)

/-! ## Legality (spec/30_encoding.md R80, R82; spec/20_memory.md R64) -/

theorem test_rsvd_not_zero : rsvdZero 0x0000000100000004#64 = false := by decide
theorem test_opcode_zero : opcodeLegal 0x0000000000000000#64 = false := by decide
theorem test_opcode_nine : opcodeLegal 0x0000000000000009#64 = false := by decide
theorem test_command_word_ff : commandWordWf 0x00000000000000FF#64 = false := by decide
theorem test_command_word_eight : commandWordWf 0x0000000000000008#64 = true := by decide
theorem test_read_past_memory : HostOp.wf 64 (.memRead 64) = false := by decide
theorem test_write_past_memory : HostOp.wf 64 (.memWrite 64 0#64) = false := by decide

/-! ## Decoding: V-DEC-1, V-DEC-2 -/

theorem test_decode_0x1 : decode 0x0000000000000001#64 = some .bqDesignLp := by decide
theorem test_decode_0x2 : decode 0x0000000000000002#64 = some .bqDesignHp := by decide
theorem test_decode_0x3 : decode 0x0000000000000003#64 = some .bqApply := by decide
theorem test_decode_0x4 : decode 0x0000000000000004#64 = some .firDecimate := by decide
theorem test_decode_0x5 : decode 0x0000000000000005#64 = some .genRange := by decide
theorem test_decode_0x6 : decode 0x0000000000000006#64 = some .detect := by decide
theorem test_decode_0x7 : decode 0x0000000000000007#64 = some .spectrum := by decide
theorem test_decode_0x8 : decode 0x0000000000000008#64 = some .normalize := by decide
theorem test_decode_table_word : decodeTableWord 64 0x6 = some .detect ∧ decodeTableWord 64 0x106 = none := by decide
theorem test_fetch_word :
    ends (step ((start [] []).withFetchWord 64 0x4)) (reads 0x070202#64 0#64 0#64 0 []) = true := by decide +kernel
theorem test_illegal_word :
    ends (perform (commandWrite 0x0000000100000004#64) (start [] [])) (reads 0xFF0702#64 0x0000000100000004#64 0#64 0 [])
      = true := by decide +kernel

/-! ## Arithmetic: V-NUM-1, V-NUM-2, V-SRC-6 -/

theorem test_round_int :
    roundInt 0x400BFFFFFFFFFFFF#64 = 0x4008000000000000#64 ∧ roundInt 0x432FFFFFFFFFFFFF#64 = 0x4330000000000000#64
      ∧ roundInt 0xBFF8000000000000#64 = 0xBFF0000000000000#64 := by decide +kernel
theorem test_fceil :
    fceil 0xC002000000000000#64 = 0xC000000000000000#64 ∧ fceil 0xBFD0000000000000#64 = 0x8000000000000000#64
      ∧ fceil 0x404C200000000000#64 = 0x404C800000000000#64 := by decide +kernel
theorem test_rpm_arithmetic :
    fdiv 0x4064000000000000#64 0x4020000000000000#64 = 0x4034000000000000#64
      ∧ fmul 0x4034000000000000#64 secPerMin = 0x4092C00000000000#64 := by decide +kernel

/-! ## Host scripts: R88, R89 -/

theorem test_script_lines :
    readScript "WR SRC, 0 ; first word\nCMD FIR_DECIMATE\nMW 3, f64:-0.25"
      = some [lineWR .src 0#64, lineCMD .firDecimate, lineMW 3 0xBFD0000000000000#64] := by decide +kernel
theorem test_script_macro :
    readScript "DESIGN.LP f64:4, 0x3FF0000000000000"
      = some (macroDesignLp 0x4010000000000000#64 0x3FF0000000000000#64) := by decide +kernel

/-! ## The commands, on the vectors of spec/95_test_vectors.md -/

/-- V-BQ-1. -/
theorem test_bqDesignLp :
    ends (exec .bqDesignLp (start [(.bqFs, 0x4010000000000000#64), (.bqFc, 0x3FF0000000000000#64)] []))
      (fun t => reads 0x1#64 0#64 0#64 0 [] t && t.coeffs ==
        { b0 := 0x3FD2BEC333018867#64, b1 := 0x3FE2BEC333018867#64, b2 := 0x3FD2BEC333018867#64
          a1 := 0#64, a2 := 0x3FC5F619980C4336#64 }) = true := by decide +kernel

/-- V-BQ-3: the cutoff equals Nyquist. -/
theorem test_bqDesignLp_nyquist :
    ends (exec .bqDesignLp (start [(.bqFs, 0x4010000000000000#64), (.bqFc, 0x4000000000000000#64)] []))
      (fun t => reads 0x110102#64 0x4000000000000000#64 0#64 0 [] t && t.coeffs == Coeffs.zero) = true := by decide +kernel

/-- V-BQ-1. -/
theorem test_bqDesignHp :
    ends (exec .bqDesignHp (start [(.bqFs, 0x4010000000000000#64), (.bqFc, 0x3FF0000000000000#64)] []))
      (fun t => reads 0x1#64 0#64 0#64 0 [] t && t.coeffs ==
        { b0 := 0x3FD2BEC333018867#64, b1 := 0xBFE2BEC333018867#64, b2 := 0x3FD2BEC333018867#64
          a1 := 0#64, a2 := 0x3FC5F619980C4336#64 }) = true := by decide +kernel

/-- A state for BQ_APPLY: the coefficients of V-BQ-4, these words at 0 and the result at 16. -/
def applyState (xs : List Word) : State :=
  start [(.b0, 0x3FD0000000000000#64), (.b1, 0x3FE0000000000000#64), (.b2, 0x3FD0000000000000#64), (.a1, 0xBFE0000000000000#64), (.a2, 0x3FD0000000000000#64),
    (.slen, BitVec.ofNat 64 xs.length), (.dst, 16#64)] xs

/-- V-BQ-4. -/
theorem test_bqApply_impulse :
    ends (exec .bqApply (applyState [0x3FF0000000000000#64, 0x0000000000000000#64, 0x0000000000000000#64, 0x0000000000000000#64, 0x0000000000000000#64]))
      (reads 0x1#64 0#64 5#64 16 [0x3FD0000000000000#64, 0x3FE4000000000000#64, 0x3FE0000000000000#64, 0x3FB8000000000000#64, 0xBFB4000000000000#64]) = true := by
  decide +kernel

/-- V-BQ-9: a NaN in the first sample keeps nothing. -/
theorem test_bqApply_malformed :
    ends (exec .bqApply (applyState [0x7FF8000000000000#64])) (reads 0x030402#64 0#64 0#64 0 [0x7FF8000000000000#64]) = true := by
  decide +kernel

/-- A state for FIR_DECIMATE at this scale: these words at 0 and the result at 30. -/
def firState (scale : Word) (xs : List Word) : State :=
  start [(.slen, BitVec.ofNat 64 xs.length), (.dst, 30#64), (.scale, scale)] xs

/-- V-FIR-8: a NaN at index 4 keeps the first output. -/
theorem test_firDecimate_partial :
    ends (exec .firDecimate (firState 2#64 [0x4010000000000000#64, 0x4020000000000000#64, 0x4028000000000000#64, 0x4030000000000000#64, 0x7FF8000000000000#64, 0x4038000000000000#64, 0x403C000000000000#64, 0x4040000000000000#64]))
      (reads 0x030406#64 4#64 1#64 30 [0x4020000000000000#64]) = true := by
  decide +kernel

/-- V-FIR-3: sums of 1.5, 4.5 and 7.5, ties up. -/
theorem test_firDecimate_ties :
    ends (exec .firDecimate (firState 3#64 (upTo8 ++ [0x4022000000000000#64, 0x4024000000000000#64])))
      (reads 0x1#64 0#64 3#64 30 [0x4000000000000000#64, 0x4014000000000000#64, 0x4020000000000000#64]) = true := by
  decide +kernel

/-- A state for GEN_RANGE with the list at this address. -/
def rangeState (lo hi prec dst : Word) : State := start [(.genMin, lo), (.genMax, hi), (.genPrec, prec), (.dst, dst)] []

/-- V-GEN-1. -/
theorem test_genRange :
    ends (exec .genRange (rangeState 0x4024000000000000#64 0x4059000000000000#64 0x3FD0000000000000#64 48#64))
      (reads 0x1#64 0#64 9#64 48 [0x4028000000000000#64, 0x402E000000000000#64, 0x4033000000000000#64, 0x4039000000000000#64, 0x4040800000000000#64, 0x4045800000000000#64, 0x404C800000000000#64, 0x4052C00000000000#64, 0x4059000000000000#64]) = true := by
  decide +kernel

/-- V-GEN-5: no progress at 3.0. -/
theorem test_genRange_no_progress :
    ends (exec .genRange (rangeState 0x3FF0000000000000#64 0x4008000000000000#64 0x3FD0000000000000#64 0#64))
      (reads 0x1A0502#64 0x3FD0000000000000#64 0#64 0 []) = true := by decide +kernel

/-- The registers of P2: frames of 8 at 0, records at 32. -/
def detectRegs : List (Reg × Word) :=
  [(.slen, 16#64), (.dst, 32#64), (.detFs, 64#64), (.frameN, 8#64), (.ignoreHz, 0x4020000000000000#64), (.minPeak, 0x4034000000000000#64)]

/-- The start of P2. -/
def detectState : State := start detectRegs (upTo8 ++ upTo8.reverse)

/-- P2: a detection, and a frame behind the noise gate. -/
theorem test_detect :
    ends (exec .detect detectState)
      (reads 0x1#64 0#64 2#64 32 [0x4038000000000000#64, 0x4049000000000000#64, 0x4066800000000000#64, 0x0000000000000000#64, 0x4014000000000000#64, 0x0000000000000000#64]) = true := by
  decide +kernel

/-- V-DET-11: a NaN at element 11 keeps the record of frame 0. -/
theorem test_detect_partial :
    ends (exec .detect (start detectRegs (upTo8 ++ [0x4020000000000000#64, 0x401C000000000000#64, 0x4018000000000000#64, 0x7FF8000000000000#64, 0x4010000000000000#64, 0x4008000000000000#64, 0x4000000000000000#64, 0x3FF0000000000000#64])))
      (reads 0x030406#64 11#64 1#64 32 [0x4038000000000000#64, 0x4049000000000000#64, 0x4066800000000000#64]) = true := by
  decide +kernel

/-- A state for SPECTRUM: one frame of 4 at this offset, magnitudes at 32. -/
def spectrumState (offset : Word) (xs : List Word) : State :=
  start [(.slen, BitVec.ofNat 64 xs.length), (.dst, 32#64), (.offset, offset), (.frameN, 4#64)] xs

/-- V-SPC-1, behind one element that is not looked at (V-SPC-3). -/
theorem test_spectrum :
    ends (exec .spectrum (spectrumState 1#64 [0x7FF8000000000000#64, 0x3FF0000000000000#64, 0x0000000000000000#64, 0xBFF0000000000000#64, 0x0000000000000000#64]))
      (reads 0x1#64 0#64 4#64 32 [0x0000000000000000#64, 0x4000000000000000#64, 0x0000000000000000#64, 0x4000000000000000#64]) = true := by
  decide +kernel

/-- V-SPC-3: no wrap-around of the offset. -/
theorem test_spectrum_offset :
    ends (exec .spectrum (spectrumState 0xFFFFFFFFFFFFFFFF#64 (upTo8.take 6))) (reads 0x040302#64 6#64 0#64 0 []) = true := by
  decide +kernel

/-- A state for NORMALIZE with the scalars of V-NRM-1: these words at 0 and the result at 16. -/
def normalizeState (xs : List Word) : State :=
  start [(.slen, BitVec.ofNat 64 xs.length), (.dst, 16#64), (.nrmSrcmax, 0x4090000000000000#64), (.nrmDstmax, 255#64)] xs

/-- V-NRM-1. -/
theorem test_normalize :
    ends (exec .normalize (normalizeState [0x0000000000000000#64, 0x4080000000000000#64, 0x408FF80000000000#64, 0x4090000000000000#64, 0x409F400000000000#64, 0xC014000000000000#64, 0x4000000000000000#64, 0x4018000000000000#64, 0xC000000000000000#64]))
      (reads 0x1#64 0#64 9#64 16 [0#64, 128#64, 255#64, 255#64, 255#64, 0#64, 1#64, 2#64, 0#64]) = true := by
  decide +kernel

/-- V-NRM-4. -/
theorem test_normalize_partial :
    ends (exec .normalize (normalizeState [0x4080000000000000#64, 0x7FF8000000000000#64])) (reads 0x030406#64 1#64 1#64 16 [128#64]) = true := by
  decide +kernel

/-! ## Witnesses: states and operands that meet the hypotheses of the statements -/

/-! ### Decoding and the ports -/

theorem witness_DecodeAndEncodeAgree : Instr.wf .normalize = true := rfl

theorem witness_OnlyTheEightWordsDecode :
    (start [] []).status.err = false
      ∧ ((0x100#64 : Word).toNat / 2 ^ 8 ≠ 0 ∧ (0x0#64 : Word).toNat % 2 ^ 8 = 0 ∧ 9 ≤ (0x9#64 : Word).toNat % 2 ^ 8)
      ∧ ((0x1#64 : Word).toNat / 2 ^ 8 = 0 ∧ (0x1#64 : Word).toNat % 2 ^ 8 = 0x01)
      ∧ ((0x8#64 : Word).toNat / 2 ^ 8 = 0 ∧ (0x8#64 : Word).toNat % 2 ^ 8 = 0x08) := by decide +kernel

theorem witness_StepRunsTheDecodedCommand :
    (pending (commandWrite 0x5#64) (start [] [])).inbox = commandWrite 0x5#64 :: []
      ∧ decode 0x5#64 = some .genRange ∧ Instr.wf .genRange = true := by decide +kernel

theorem witness_StepRunsTheDecodedCommand_anyTransaction :
    { start [] [] with inbox := [.memWrite 3 1#64, .rst] }.inbox = HostOp.memWrite 3 1#64 :: [HostOp.rst]
      ∧ (start [] []).inbox = [] := by decide +kernel

theorem witness_WrittenRegisterReadsBack : isOperandReg .src = true ∧ isCoeffReg .a2 = true := by decide

theorem witness_ReservedNumbersReadZeroAndIgnoreWrites :
    0x0D#5 ∈ [0x0D#5, 0x0E#5, 0x0F#5, 0x17#5, 0x1B#5, 0x1E#5, 0x1F#5]
      ∧ 0x1F#5 ∈ [0x0D#5, 0x0E#5, 0x0F#5, 0x17#5, 0x1B#5, 0x1E#5, 0x1F#5] := by decide

theorem witness_CommandsOnTheResetValues :
    FrameLegal (State.ofBuild testBuild) ∧ ¬FrameLegal (State.ofBuild { testBuild with frameMax := 1023 }) := by
  unfold FrameLegal
  decide +kernel

theorem witness_MemoryWriteReadsBack : 63 < (start [] []).cfg.memWords := by decide +kernel

theorem witness_AccessesWithoutAStepStop :
    (start [] []).cfg.memWords ≤ 64 ∧ 63 < (start [] []).cfg.memWords ∧ readWord (start [] []).mem 63 = none := by
  decide +kernel

theorem witness_MemoryChangesOnlyByWritesAndResults_write :
    ∃ t, buildOk testBuild = true ∧ step (pending (.memWrite 63 1#64) (start [] [])) = .next t
      ∧ getByte t.mem 511 ≠ getByte (start [] []).mem 511 := by
  obtain ⟨t, h, p⟩ := exists_of_ends (r := step (pending (.memWrite 63 1#64) (start [] [])))
    (p := fun t => getByte t.mem 511 != getByte (start [] []).mem 511) (by decide +kernel)
  exact ⟨t, by decide +kernel, h, by simpa using p⟩

theorem witness_MemoryChangesOnlyByWritesAndResults_command :
    ∃ t, buildOk testBuild = true ∧ step (pending (commandWrite 0x3#64) (applyState upTo8)) = .next t
      ∧ getByte t.mem 128 ≠ getByte (applyState upTo8).mem 128 := by
  obtain ⟨t, h, p⟩ := exists_of_ends (r := step (pending (commandWrite 0x3#64) (applyState upTo8)))
    (p := fun t => getByte t.mem 128 != getByte (applyState upTo8).mem 128) (by decide +kernel)
  exact ⟨t, by decide +kernel, h, by simpa using p⟩

/-! ### Commands in general -/

theorem witness_CommandWritesOnlyItsResultRegion :
    ∃ t, buildOk detectState.cfg = true ∧ detectState.status.err = false ∧ exec .detect detectState = .next t := by
  obtain ⟨t, h, -⟩ := exists_of_ends (r := exec .detect detectState) (p := fun _ => true) (by decide +kernel)
  exact ⟨t, by decide +kernel, by decide +kernel, h⟩

/-- A state that an error has left. -/
def failing : State := failedState (start [] []) 2#4 0x07#8 5#64

theorem witness_CommandsIgnoredWhileErr : failing.status.err = true := rfl

theorem witness_CommandsKeepOperandRegisters :
    isOperandReg .src = true ∧ (∃ t, exec .genRange (start [] []) = .next t)
      ∧ ∃ t, step (pending (.regWrite 0x03#5 7#64) (start [] [])) = .next t ∧ regGet t .src ≠ regGet (start [] []) .src := by
  refine ⟨rfl, ?_, ?_⟩
  · obtain ⟨t, h, -⟩ := exists_of_ends (r := exec .genRange (start [] [])) (p := fun _ => true) (by decide +kernel)
    exact ⟨t, h⟩
  · obtain ⟨t, h, p⟩ := exists_of_ends (r := step (pending (.regWrite 0x03#5 7#64) (start [] [])))
      (p := fun t => regGet t .src != regGet (start [] []) .src) (by decide +kernel)
    exact ⟨t, h, by simpa using p⟩

/-- The state of V-BQ-1. -/
def designState : State := start [(.bqFs, 0x4010000000000000#64), (.bqFc, 0x3FF0000000000000#64)] []

theorem witness_OnlyDesignsAndTheHostWriteCoefficients :
    isCoeffReg .b0 = true ∧ ∃ t, step (pending (commandWrite 0x1#64) designState) = .next t
      ∧ regGet t .b0 ≠ regGet designState .b0 := by
  obtain ⟨t, h, p⟩ := exists_of_ends (r := step (pending (commandWrite 0x1#64) designState))
    (p := fun t => regGet t .b0 != regGet designState .b0) (by decide +kernel)
  exact ⟨rfl, t, h, by simpa using p⟩

theorem start_statusOk : StatusOk (start [] []) := ⟨by decide +kernel, by decide +kernel, by decide +kernel⟩

theorem witness_CommandsEndInDoneOrErr :
    StatusOk (start [] []) ∧ (start [] []).status.err = false
      ∧ (∃ t, exec .genRange (start [] []) = .next t) ∧ ∃ t, exec .bqApply (start [] []) = .next t := by
  obtain ⟨t, h, -⟩ := exists_of_ends (r := exec .genRange (start [] [])) (p := fun _ => true) (by decide +kernel)
  obtain ⟨u, g, -⟩ := exists_of_ends (r := exec .bqApply (start [] [])) (p := fun _ => true) (by decide +kernel)
  exact ⟨start_statusOk, by decide +kernel, ⟨t, h⟩, u, g⟩

/-- One good sample, then a NaN (V-NRM-4). -/
def brokenState : State := normalizeState [0x4080000000000000#64, 0x7FF8000000000000#64]

theorem witness_PartialResultsAreMarked :
    brokenState.cfg.memWords ≤ 2 ^ 32 ∧ brokenState.status.err = false
      ∧ ∃ t, exec .normalize brokenState = .next t ∧ t.status.err = true ∧ t.dlen ≠ 0#64 ∧ t.status.errCode = 4#4 := by
  obtain ⟨t, h, p⟩ := exists_of_ends (r := exec .normalize brokenState)
    (p := fun t => t.status.err && (t.dlen != 0#64 && t.status.errCode == 4#4)) (by decide +kernel)
  simp only [Bool.and_eq_true, bne_iff_ne, beq_iff_eq] at p
  exact ⟨by decide +kernel, by decide +kernel, t, h, p⟩

theorem witness_StepKeepsTheInvariant :
    Inv (pending (commandWrite 0x6#64) (start [] []))
      ∧ ∃ t, step (pending (commandWrite 0x6#64) (start [] [])) = .next t := by
  obtain ⟨t, h, -⟩ := exists_of_ends (r := step (pending (commandWrite 0x6#64) (start [] []))) (p := fun _ => true)
    (by decide +kernel)
  refine ⟨⟨by decide +kernel, ⟨by decide +kernel, by decide +kernel, by decide +kernel⟩, ⟨by decide +kernel, fun _ _ => rfl, fun _ _ _ => rfl⟩, ?_, by decide +kernel⟩, t, h⟩
  exact ⟨by decide +kernel, by decide +kernel, by decide +kernel, by decide +kernel⟩

theorem witness_HiddenStateIsNotObservable :
    SameButHidden (applyState upTo8) { applyState upTo8 with hidden := { Hidden.empty with u1 := 0x3FF0000000000000#64 } } := rfl

theorem witness_CommandsReadOnlyTheirOperands :
    (isOperandReg .scale = true ∧ Reg.scale ∉ operandsOf .detect)
      ∧ (isCoeffReg .b0 = true ∧ Instr.genRange ≠ .bqDesignLp ∧ Instr.genRange ≠ .bqDesignHp
        ∧ Reg.b0 ∉ operandsOf .genRange) := by decide

/-- `applyState upTo8` with another history, another `DLEN` and another word outside the source region. -/
def otherState : State :=
  { applyState upTo8 with
      dlen := 9#64, hidden := { Hidden.empty with u1 := 0x3FF0000000000000#64 }, mem := writeWord (applyState upTo8).mem 40 1#64 }

theorem witness_EqualInputsGiveEqualResults :
    (applyState upTo8).status.err = false ∧ otherState.status.err = false ∧ otherState.ops = (applyState upTo8).ops
      ∧ otherState.coeffs = (applyState upTo8).coeffs ∧ otherState.cfg = (applyState upTo8).cfg
      ∧ ∀ k < slenOf (applyState upTo8),
          readWord otherState.mem (srcOf (applyState upTo8) + k) = readWord (applyState upTo8).mem (srcOf (applyState upTo8) + k) :=
  ⟨by decide +kernel, by decide +kernel, by decide +kernel, by decide +kernel, by decide +kernel, by decide +kernel⟩

theorem witness_ShortSeriesRaiseInsufficientSamples :
    [applyState [], firState 2#64 (upTo8.take 2), firState 1#64 [], regPut .slen 7#64 detectState,
        spectrumState 3#64 (upTo8.take 6), normalizeState []].all (fun s => !s.status.err) = true
      ∧ (coeffsFinite (applyState []).coeffs = true ∧ slenOf (applyState []) = 0)
      ∧ (ScaleLegal (firState 2#64 (upTo8.take 2)) ∧ 1 < scaleOf (firState 2#64 (upTo8.take 2))
        ∧ slenOf (firState 2#64 (upTo8.take 2)) < (tapsOf (firState 2#64 (upTo8.take 2))).length)
      ∧ (ScaleLegal (firState 1#64 []) ∧ slenOf (firState 1#64 []) = 0)
      ∧ (DetectLegal (regPut .slen 7#64 detectState)
        ∧ slenOf (regPut .slen 7#64 detectState) < frameNOf (regPut .slen 7#64 detectState))
      ∧ (FrameLegal (spectrumState 3#64 (upTo8.take 6))
        ∧ slenOf (spectrumState 3#64 (upTo8.take 6))
            < offsetOf (spectrumState 3#64 (upTo8.take 6)) + frameNOf (spectrumState 3#64 (upTo8.take 6)))
      ∧ (NormalizeLegal (normalizeState []) ∧ slenOf (normalizeState []) = 0) := by
  simp only [ScaleLegal, DetectLegal, FrameLegal, NormalizeLegal]
  decide +kernel

/-- `applyState upTo8` with its series here and its result there. -/
def placed (src dst : Word) : State := regPut .dst dst (regPut .src src (applyState upTo8))

theorem witness_BadRegionsRaiseBadAddress_source :
    (placed 57#64 0#64).status.err = false ∧ ReachesRegionCheck .bqApply (placed 57#64 0#64)
      ∧ (placed 57#64 0#64).cfg.memWords < srcOf (placed 57#64 0#64) + slenOf (placed 57#64 0#64) := by
  simp only [ReachesRegionCheck]
  decide +kernel

theorem witness_BadRegionsRaiseBadAddress_result :
    (placed 0#64 57#64).status.err = false ∧ ReachesRegionCheck .bqApply (placed 0#64 57#64)
      ∧ srcOf (placed 0#64 57#64) + slenOf (placed 0#64 57#64) ≤ (placed 0#64 57#64).cfg.memWords
      ∧ (placed 0#64 57#64).cfg.memWords < dstOf (placed 0#64 57#64) + resultWords .bqApply (placed 0#64 57#64) := by
  simp only [ReachesRegionCheck]
  decide +kernel

theorem witness_BadRegionsRaiseBadAddress_overlap :
    (placed 0#64 7#64).status.err = false ∧ ReachesRegionCheck .bqApply (placed 0#64 7#64)
      ∧ srcOf (placed 0#64 7#64) + slenOf (placed 0#64 7#64) ≤ (placed 0#64 7#64).cfg.memWords
      ∧ 0 < slenOf (placed 0#64 7#64) ∧ 0 < resultWords .bqApply (placed 0#64 7#64)
      ∧ dstOf (placed 0#64 7#64) < srcOf (placed 0#64 7#64) + slenOf (placed 0#64 7#64)
      ∧ srcOf (placed 0#64 7#64) < dstOf (placed 0#64 7#64) + resultWords .bqApply (placed 0#64 7#64) := by
  simp only [ReachesRegionCheck]
  decide +kernel

/-- Regions that touch are legal; and a command whose regions are legal can still end in an error. -/
theorem witness_BadRegionsRaiseBadAddress_legal :
    RegionsOk (placed 56#64 0#64) (resultWords .bqApply (placed 56#64 0#64))
      ∧ RegionsOk (placed 0#64 8#64) (resultWords .bqApply (placed 0#64 8#64))
      ∧ ReachesRegionCheck .normalize brokenState ∧ RegionsOk brokenState (resultWords .normalize brokenState)
      ∧ ∃ t, exec .normalize brokenState = .next t ∧ t.status.err = true := by
  refine ⟨?_, ?_, ?_, ?_, exists_of_ends (p := fun t => t.status.err) (by decide +kernel)⟩ <;>
    (simp only [RegionsOk, ReachesRegionCheck, NormalizeLegal]; decide +kernel)

theorem witness_IllegalOperandsRaiseInvalidParameter_detect :
    detectState.status.err = false ∧ ¬FrameLegal (regPut .frameN 0#64 detectState)
      ∧ ¬FrameLegal (regPut .frameN 1025#64 detectState)
      ∧ (FrameLegal (regPut .detFs 0x100000000#64 detectState) ∧ 2 ^ 32 ≤ detFsOf (regPut .detFs 0x100000000#64 detectState))
      ∧ detFsOf (regPut .detFs 0#64 detectState) = 0
      ∧ (FrameLegal (regPut .ignoreHz 0xBFF0000000000000#64 detectState) ∧ 1 ≤ detFsOf detectState ∧ detFsOf detectState ≤ 2 ^ 32 - 1
        ∧ flt (regPut .ignoreHz 0xBFF0000000000000#64 detectState).ops.ignoreHz fzero = true)
      ∧ (isFinite (regPut .minPeak 0x7FF8000000000000#64 detectState).ops.ignoreHz = true
        ∧ flt (regPut .minPeak 0x7FF8000000000000#64 detectState).ops.ignoreHz fzero = false
        ∧ isFinite (regPut .minPeak 0x7FF8000000000000#64 detectState).ops.minPeak = false) := by
  simp only [FrameLegal]
  decide +kernel

theorem witness_IllegalOperandsRaiseInvalidParameter_scalars :
    (start [] []).status.err = false ∧ brokenState.status.err = false ∧ fgt (start [] []).ops.nrmSrcmax fzero = false
      ∧ (isFinite (regPut .nrmDstmax 0x100000000#64 brokenState).ops.nrmSrcmax = true
        ∧ fgt (regPut .nrmDstmax 0x100000000#64 brokenState).ops.nrmSrcmax fzero = true
        ∧ 2 ^ 32 ≤ dstmaxOf (regPut .nrmDstmax 0x100000000#64 brokenState))
      ∧ isFinite (rangeState 0x7FF8000000000000#64 0x7FF0000000000000#64 0#64 0#64).ops.genMin = false
      ∧ (isFinite (rangeState 0#64 0x7FF0000000000000#64 0#64 0#64).ops.genMin = true
        ∧ isFinite (rangeState 0#64 0x7FF0000000000000#64 0#64 0#64).ops.genMax = false)
      ∧ (isFinite (rangeState 0#64 0#64 0x7FF8000000000000#64 0#64).ops.genMin = true
        ∧ isFinite (rangeState 0#64 0#64 0x7FF8000000000000#64 0#64).ops.genMax = true
        ∧ isFinite (rangeState 0#64 0#64 0x7FF8000000000000#64 0#64).ops.genPrec = false) := by decide +kernel

/-! ### The biquad -/

theorem witness_DesignLpWritesTheTuple :
    designState.status.err = false ∧ isFinite designState.ops.bqFs = true ∧ isFinite designState.ops.bqFc = true
      ∧ fgt designState.ops.bqFc fzero = true ∧ flt designState.ops.bqFc (fdiv designState.ops.bqFs ftwo) = true
      ∧ fone = tan designState.cfg (fdiv (fmul fpi designState.ops.bqFc) designState.ops.bqFs)
      ∧ 0x3FD2BEC333018867#64 = fdiv fone (fadd (fmul fone (fadd fone fsqrt2)) fone)
      ∧ 0x3FD2BEC333018867#64 = fmul (fmul fone fone) 0x3FD2BEC333018867#64
      ∧ [0x3FD2BEC333018867#64, fmul ftwo 0x3FD2BEC333018867#64,
          fmul (fmul ftwo (fsub (fmul fone fone) fone)) 0x3FD2BEC333018867#64,
          fmul (fadd (fmul fone (fsub fone fsqrt2)) fone) 0x3FD2BEC333018867#64].all isFinite = true := by decide +kernel

theorem witness_DesignHpWritesTheTuple :
    designState.status.err = false ∧ isFinite designState.ops.bqFs = true ∧ isFinite designState.ops.bqFc = true
      ∧ fgt designState.ops.bqFc fzero = true ∧ flt designState.ops.bqFc (fdiv designState.ops.bqFs ftwo) = true
      ∧ fone = tan designState.cfg (fdiv (fmul fpi designState.ops.bqFc) designState.ops.bqFs)
      ∧ 0x3FD2BEC333018867#64 = fdiv fone (fadd (fmul fone (fadd fone fsqrt2)) fone)
      ∧ [0x3FD2BEC333018867#64, fneg (fmul ftwo 0x3FD2BEC333018867#64),
      fmul (fmul ftwo (fsub (fmul fone fone) fone)) 0x3FD2BEC333018867#64,
      fmul (fadd (fmul fone (fsub fone fsqrt2)) fone) 0x3FD2BEC333018867#64].all isFinite = true := by decide +kernel

theorem witness_DesignedTuplesKeepTheirRatio :
    designState.status.err = false ∧ (∃ t, exec .bqDesignLp designState = .next t ∧ t.status.done = true)
      ∧ ∃ t, exec .bqDesignHp designState = .next t ∧ t.status.done = true :=
  ⟨by decide +kernel, exists_of_ends (p := fun t => t.status.done) (by decide +kernel),
    exists_of_ends (p := fun t => t.status.done) (by decide +kernel)⟩

theorem witness_DesignRejectsBadParameters :
    (start [(.bqFs, 0x7FF8000000000000#64)] []).status.err = false ∧ (start [] []).status.err = false
      ∧ (regPut .bqFc 0x4000000000000000#64 designState).status.err = false ∧ isFinite (start [(.bqFs, 0x7FF8000000000000#64)] []).ops.bqFs = false
      ∧ (isFinite (start [] []).ops.bqFs = true ∧ fle (start [] []).ops.bqFs fzero = true)
      ∧ (isFinite (regPut .bqFc 0x4000000000000000#64 designState).ops.bqFs = true
        ∧ flt (regPut .bqFc 0x4000000000000000#64 designState).ops.bqFc (fdiv (regPut .bqFc 0x4000000000000000#64 designState).ops.bqFs ftwo) = false) := by
  decide +kernel

/-- V-BQ-3: a tangent that answers an infinity. -/
def infiniteTan : State :=
  { designState with cfg := { testBuild with tanTable := [(0x3FE921FB54442D18#64, 0x7FF0000000000000#64)] } }

theorem witness_DesignRejectsBadParameters_tuple :
    infiniteTan.status.err = false ∧ isFinite infiniteTan.ops.bqFs = true ∧ isFinite infiniteTan.ops.bqFc = true
      ∧ fgt infiniteTan.ops.bqFc fzero = true ∧ flt infiniteTan.ops.bqFc (fdiv infiniteTan.ops.bqFs ftwo) = true
      ∧ coeffsFinite (lowPass infiniteTan.cfg infiniteTan.ops.bqFs infiniteTan.ops.bqFc) = false := by
  refine ⟨by decide +kernel, by decide +kernel, by decide +kernel, by decide +kernel, by decide +kernel, ?_⟩
  have h1 : designW infiniteTan.cfg infiniteTan.ops.bqFs infiniteTan.ops.bqFc = 0x7FF0000000000000#64 := by decide +kernel
  have h2 : fmul 0x7FF0000000000000#64 0x7FF0000000000000#64 = 0x7FF0000000000000#64 := by decide +kernel
  have h3 : designNorm 0x7FF0000000000000#64 = fzero := by decide +kernel
  have h4 : fmul 0x7FF0000000000000#64 fzero = nanResult .mul 0x7FF0000000000000#64 fzero := if_pos (by decide +kernel)
  simp only [coeffsFinite, lowPass, h1, h2, h3, h4, isFinite_nanResult, Bool.false_and]

theorem witness_BqApplyFiltersTheSeries :
    (applyState upTo8).status.err = false ∧ coeffsFinite (applyState upTo8).coeffs = true ∧ 0 < slenOf (applyState upTo8)
      ∧ RegionsOk (applyState upTo8) (slenOf (applyState upTo8)) ∧ upTo8.length = slenOf (applyState upTo8)
      ∧ HoldsSeries (applyState upTo8).mem (srcOf (applyState upTo8)) upTo8 ∧ AllFinite upTo8 := by
  simp only [RegionsOk, allFinite_iff, holdsSeries_iff]
  decide +kernel

/-- `[1.0, 2.0, NaN, 4.0]` for BQ_APPLY (V-BQ-9). -/
def brokenApply : State := applyState [0x3FF0000000000000#64, 0x4000000000000000#64, 0x7FF8000000000000#64, 0x4010000000000000#64]

theorem witness_BqApplyKeepsPartialResults :
    brokenApply.status.err = false ∧ coeffsFinite brokenApply.coeffs = true ∧ (upTo8.take 2).length < slenOf brokenApply
      ∧ RegionsOk brokenApply (slenOf brokenApply) ∧ HoldsSeries brokenApply.mem (srcOf brokenApply) (upTo8.take 2)
      ∧ AllFinite (upTo8.take 2)
      ∧ readWord brokenApply.mem (srcOf brokenApply + (upTo8.take 2).length) = some 0x7FF8000000000000#64
      ∧ isFinite 0x7FF8000000000000#64 = false := by
  simp only [RegionsOk, allFinite_iff, holdsSeries_iff]
  decide +kernel

/-- `B2` infinite and `A1` a NaN (V-BQ-9). -/
def brokenCoeffs : State := start [(.b2, 0x7FF0000000000000#64), (.a1, 0x7FF8000000000000#64)] []

theorem witness_BqApplyRejectsNonFiniteCoefficients :
    brokenCoeffs.status.err = false
      ∧ [(brokenCoeffs.coeffs.b0, 0x12#8), (brokenCoeffs.coeffs.b1, 0x13#8), (brokenCoeffs.coeffs.b2, 0x14#8),
          (brokenCoeffs.coeffs.a1, 0x15#8), (brokenCoeffs.coeffs.a2, 0x16#8)]
        = [(0#64, 0x12#8), (0#64, 0x13#8)] ++ (0x7FF0000000000000#64, 0x14#8) :: [(0x7FF8000000000000#64, 0x15#8), (0#64, 0x16#8)]
      ∧ (isFinite 0#64 = true ∧ isFinite 0x7FF0000000000000#64 = false) := by decide +kernel

/-! ### The FIR decimator -/

/-- The samples of a list, by index. -/
def samples (xs : List Word) (i : Nat) : Word := (xs[i]?).getD 0#64

theorem witness_FirDecimateConvolves :
    (firState 2#64 upTo8).status.err = false ∧ ScaleLegal (firState 2#64 upTo8) ∧ scaleOf (firState 2#64 upTo8) ≠ 1
      ∧ 0 < slenOf (firState 2#64 upTo8) ∧ (tapsOf (firState 2#64 upTo8)).length ≤ slenOf (firState 2#64 upTo8)
      ∧ RegionsOk (firState 2#64 upTo8) (firCount (firState 2#64 upTo8)) ∧ firCount (firState 2#64 upTo8) = 3
      ∧ ∀ k < firCount (firState 2#64 upTo8), ∀ i < (tapsOf (firState 2#64 upTo8)).length,
          readWord (firState 2#64 upTo8).mem (srcOf (firState 2#64 upTo8) + (k * scaleOf (firState 2#64 upTo8) + i))
              = some (samples upTo8 (k * scaleOf (firState 2#64 upTo8) + i))
            ∧ isFinite (samples upTo8 (k * scaleOf (firState 2#64 upTo8) + i)) = true := by
  simp only [ScaleLegal, RegionsOk]
  decide +kernel

/-- V-FIR-6: `[4.0, NaN, 1.5]` at scale 1. -/
def copyState : State := firState 1#64 [0x4010000000000000#64, 0x7FF8000000000000#64, 0x3FF8000000000000#64]

theorem witness_FirScaleOneCopies :
    copyState.status.err = false ∧ scaleOf copyState = 1 ∧ 0 < slenOf copyState ∧ RegionsOk copyState (slenOf copyState)
      ∧ [0x4010000000000000#64, 0x7FF8000000000000#64, 0x3FF8000000000000#64].length = slenOf copyState
      ∧ HoldsSeries copyState.mem (srcOf copyState) [0x4010000000000000#64, 0x7FF8000000000000#64, 0x3FF8000000000000#64] := by
  simp only [RegionsOk, holdsSeries_iff]
  decide +kernel

theorem witness_FirOutputCountIsTheLoopCount :
    (firState 3#64 upTo8).status.err = false ∧ scaleOf (firState 3#64 upTo8) ≠ 1
      ∧ ∃ t, exec .firDecimate (firState 3#64 upTo8) = .next t ∧ t.status.done = true :=
  ⟨by decide +kernel, by decide +kernel, exists_of_ends (p := fun t => t.status.done) (by decide +kernel)⟩

theorem witness_OnlyUnsupportedScalesRaiseUnsupportedScale :
    (firState 0#64 upTo8).status.err = false ∧ ¬ScaleLegal (firState 0#64 upTo8) ∧ ¬ScaleLegal (firState 9#64 upTo8) ∧ ¬ScaleLegal (firState 0x100000002#64 upTo8)
      ∧ ∃ t, exec .firDecimate (firState 5#64 upTo8) = .next t ∧ t.status.err = true ∧ t.status.errCode = 2#4 := by
  obtain ⟨t, h, p⟩ := exists_of_ends (r := exec .firDecimate (firState 5#64 upTo8))
    (p := fun t => t.status.err && t.status.errCode == 2#4) (by decide +kernel)
  simp only [Bool.and_eq_true, beq_iff_eq] at p
  refine ⟨by decide +kernel, ?_, ?_, ?_, t, h, p⟩
  all_goals
    unfold ScaleLegal
    decide +kernel

/-- V-FIR-8: a NaN at index 4. -/
def brokenFir : State := firState 2#64 [0x4010000000000000#64, 0x4020000000000000#64, 0x4028000000000000#64, 0x4030000000000000#64, 0x7FF8000000000000#64, 0x4038000000000000#64, 0x403C000000000000#64, 0x4040000000000000#64]

theorem witness_FirDecimateKeepsPartialResults :
    brokenFir.status.err = false ∧ ScaleLegal brokenFir ∧ scaleOf brokenFir ≠ 1 ∧ RegionsOk brokenFir (firCount brokenFir)
      ∧ 1 < firCount brokenFir
      ∧ (∀ p < 1, ∀ i < (tapsOf brokenFir).length,
          readWord brokenFir.mem (srcOf brokenFir + (p * scaleOf brokenFir + i))
              = some (samples [0x4010000000000000#64, 0x4020000000000000#64, 0x4028000000000000#64, 0x4030000000000000#64] (p * scaleOf brokenFir + i))
            ∧ isFinite (samples [0x4010000000000000#64, 0x4020000000000000#64, 0x4028000000000000#64, 0x4030000000000000#64] (p * scaleOf brokenFir + i)) = true)
      ∧ 1 * scaleOf brokenFir ≤ 4 ∧ 4 < 1 * scaleOf brokenFir + (tapsOf brokenFir).length
      ∧ (∀ i < 4, 1 * scaleOf brokenFir ≤ i →
          readWord brokenFir.mem (srcOf brokenFir + i) = some (samples [0x4010000000000000#64, 0x4020000000000000#64, 0x4028000000000000#64, 0x4030000000000000#64] i)
            ∧ isFinite (samples [0x4010000000000000#64, 0x4020000000000000#64, 0x4028000000000000#64, 0x4030000000000000#64] i) = true)
      ∧ readWord brokenFir.mem (srcOf brokenFir + 4) = some 0x7FF8000000000000#64 ∧ isFinite 0x7FF8000000000000#64 = false := by
  simp only [ScaleLegal, RegionsOk]
  decide +kernel

/-! ### The frequency-list generator -/

/-- The sweep from 100.0 by a quarter down to above 50.0: 100.0, 75.0, 57.0. -/
theorem sweep_from_100 : SweepsTo 0x4049000000000000#64 0x3FD0000000000000#64 0x4059000000000000#64 [0x4059000000000000#64, 0x4052C00000000000#64, 0x404C800000000000#64] := by
  have h1 : fceil (fsub 0x4059000000000000#64 (fmul 0x4059000000000000#64 0x3FD0000000000000#64)) = 0x4052C00000000000#64 := by decide +kernel
  have h2 : fceil (fsub 0x4052C00000000000#64 (fmul 0x4052C00000000000#64 0x3FD0000000000000#64)) = 0x404C800000000000#64 := by decide +kernel
  refine .step _ _ (by decide +kernel) (by decide +kernel) ?_
  rw [h1]
  refine .step _ _ (by decide +kernel) (by decide +kernel) ?_
  rw [h2]
  exact .step _ _ (by decide +kernel) (by decide +kernel) (.stop _ (by decide +kernel))

/-- That sweep with the list at this address. -/
def sweepState (dst : Word) : State := rangeState 0x4049000000000000#64 0x4059000000000000#64 0x3FD0000000000000#64 dst

theorem witness_GenRangeWritesTheSweep :
    (sweepState 61#64).status.err = false ∧ isFinite (sweepState 61#64).ops.genMin = true
      ∧ isFinite (sweepState 61#64).ops.genMax = true ∧ isFinite (sweepState 61#64).ops.genPrec = true
      ∧ SweepsTo (sweepState 61#64).ops.genMin (sweepState 61#64).ops.genPrec (sweepState 61#64).ops.genMax [0x4059000000000000#64, 0x4052C00000000000#64, 0x404C800000000000#64]
      ∧ dstOf (sweepState 61#64) + 3 ≤ (sweepState 61#64).cfg.memWords :=
  ⟨by decide +kernel, by decide +kernel, by decide +kernel, by decide +kernel, sweep_from_100, by decide +kernel⟩

theorem witness_GenRangeListIsStrictlyIncreasing :
    buildOk (sweepState 61#64).cfg = true ∧ (sweepState 61#64).status.err = false
      ∧ ∃ t, exec .genRange (sweepState 61#64) = .next t ∧ t.status.done = true :=
  ⟨by decide +kernel, by decide +kernel, exists_of_ends (p := fun t => t.status.done) (by decide +kernel)⟩

theorem witness_GenRangeStopsWithoutProgressOrRoom :
    [rangeState 0x3FF0000000000000#64 0x4008000000000000#64 0x3FD0000000000000#64 63#64, rangeState 0x3FF0000000000000#64 0x4008000000000000#64 0x3FD0000000000000#64 64#64, sweepState 62#64].all
        (fun s => !s.status.err && isFinite s.ops.genMin && isFinite s.ops.genMax && isFinite s.ops.genPrec) = true
      ∧ SweepStalls 0x3FF0000000000000#64 0x3FD0000000000000#64 0x4008000000000000#64 0
      ∧ (dstOf (rangeState 0x3FF0000000000000#64 0x4008000000000000#64 0x3FD0000000000000#64 63#64) + 0 + 1 ≤ 64 ∧ 64 < dstOf (rangeState 0x3FF0000000000000#64 0x4008000000000000#64 0x3FD0000000000000#64 64#64) + 0 + 1)
      ∧ SweepsTo (sweepState 62#64).ops.genMin (sweepState 62#64).ops.genPrec (sweepState 62#64).ops.genMax [0x4059000000000000#64, 0x4052C00000000000#64, 0x404C800000000000#64]
      ∧ (sweepState 62#64).cfg.memWords < dstOf (sweepState 62#64) + 3 :=
  ⟨by decide +kernel, .here _ (by decide +kernel) (by decide +kernel), by decide +kernel,
    sweep_from_100, by decide +kernel⟩

/-! ### The spectral peak detector -/

theorem detectState_legal : DetectLegal detectState := by
  simp only [DetectLegal, FrameLegal]
  decide +kernel

theorem detectState_regions : RegionsOk detectState (3 * (slenOf detectState / frameNOf detectState)) := by
  unfold RegionsOk
  decide +kernel

theorem witness_DetectWritesRecords :
    (buildOk detectState.cfg = true ∧ 1 < slenOf detectState / frameNOf detectState) ∧
      detectState.status.err = false ∧ DetectLegal detectState ∧ frameNOf detectState ≤ slenOf detectState
      ∧ RegionsOk detectState (3 * (slenOf detectState / frameNOf detectState))
      ∧ (upTo8 ++ upTo8.reverse).length = slenOf detectState / frameNOf detectState * frameNOf detectState
      ∧ HoldsSeries detectState.mem (srcOf detectState) (upTo8 ++ upTo8.reverse) ∧ AllFinite (upTo8 ++ upTo8.reverse) := by
  refine ⟨by decide +kernel, by decide +kernel, detectState_legal, by decide +kernel, detectState_regions, by decide +kernel, ?_, ?_⟩
  · rw [holdsSeries_iff]
    decide +kernel
  · rw [allFinite_iff]
    decide +kernel

theorem noiseGate_frame :
    buildOk detectState.cfg = true ∧ 1 < slenOf detectState / frameNOf detectState
      ∧ flt (framePeak detectState (frameOf (frameNOf detectState) 1 (upTo8 ++ upTo8.reverse))).1
          detectState.ops.minPeak = true := by decide +kernel

/-- The second frame of P2 is behind the gate. -/
theorem witness_NoiseGateReportsThePeak :
    (detectState.status.err = false ∧ DetectLegal detectState ∧ frameNOf detectState ≤ slenOf detectState
      ∧ RegionsOk detectState (3 * (slenOf detectState / frameNOf detectState))
      ∧ (upTo8 ++ upTo8.reverse).length = slenOf detectState / frameNOf detectState * frameNOf detectState
      ∧ HoldsSeries detectState.mem (srcOf detectState) (upTo8 ++ upTo8.reverse) ∧ AllFinite (upTo8 ++ upTo8.reverse))
    ∧ buildOk detectState.cfg = true ∧ 1 < slenOf detectState / frameNOf detectState
      ∧ flt (framePeak detectState (frameOf (frameNOf detectState) 1 (upTo8 ++ upTo8.reverse))).1
          detectState.ops.minPeak = true :=
  ⟨witness_DetectWritesRecords.2, noiseGate_frame⟩

/-- P2 with a NaN at element 11. -/
def brokenDetect : State := start detectRegs (upTo8 ++ [0x4020000000000000#64, 0x401C000000000000#64, 0x4018000000000000#64, 0x7FF8000000000000#64, 0x4010000000000000#64, 0x4008000000000000#64, 0x4000000000000000#64, 0x3FF0000000000000#64])

theorem witness_DetectKeepsPartialRecords :
    (buildOk brokenDetect.cfg = true ∧ 0 < (upTo8 ++ [0x4020000000000000#64, 0x401C000000000000#64, 0x4018000000000000#64]).length / frameNOf brokenDetect)
      ∧ brokenDetect.status.err = false ∧ DetectLegal brokenDetect
      ∧ RegionsOk brokenDetect (3 * (slenOf brokenDetect / frameNOf brokenDetect))
      ∧ (upTo8 ++ [0x4020000000000000#64, 0x401C000000000000#64, 0x4018000000000000#64]).length < slenOf brokenDetect / frameNOf brokenDetect * frameNOf brokenDetect
      ∧ HoldsSeries brokenDetect.mem (srcOf brokenDetect) (upTo8 ++ [0x4020000000000000#64, 0x401C000000000000#64, 0x4018000000000000#64]) ∧ AllFinite (upTo8 ++ [0x4020000000000000#64, 0x401C000000000000#64, 0x4018000000000000#64])
      ∧ readWord brokenDetect.mem (srcOf brokenDetect + (upTo8 ++ [0x4020000000000000#64, 0x401C000000000000#64, 0x4018000000000000#64]).length) = some 0x7FF8000000000000#64
      ∧ isFinite 0x7FF8000000000000#64 = false := by
  simp only [DetectLegal, FrameLegal, RegionsOk, allFinite_iff, holdsSeries_iff]
  decide +kernel

theorem witness_PeakIsTheFirstMaximum : upTo8.length = 8 := rfl

theorem witness_BinZeroIsNeverScanned : DetectLegal detectState := detectState_legal

theorem witness_MagnitudesAreNotNegative : isFinite 0xC008000000000000#64 = true ∧ isFinite 0x4010000000000000#64 = true := by decide +kernel

/-- The frame of V-SPC-1 at offset 1, behind a NaN. -/
def spectrumStart : State := spectrumState 1#64 [0x7FF8000000000000#64, 0x3FF0000000000000#64, 0x0000000000000000#64, 0xBFF0000000000000#64, 0x0000000000000000#64]

theorem witness_SpectrumWritesRawMagnitudes :
    spectrumStart.status.err = false ∧ FrameLegal spectrumStart
      ∧ offsetOf spectrumStart + frameNOf spectrumStart ≤ slenOf spectrumStart
      ∧ RegionsOk spectrumStart (frameNOf spectrumStart) ∧ [0x3FF0000000000000#64, 0x0000000000000000#64, 0xBFF0000000000000#64, 0x0000000000000000#64].length = frameNOf spectrumStart
      ∧ HoldsSeries spectrumStart.mem (srcOf spectrumStart + offsetOf spectrumStart) [0x3FF0000000000000#64, 0x0000000000000000#64, 0xBFF0000000000000#64, 0x0000000000000000#64]
      ∧ AllFinite [0x3FF0000000000000#64, 0x0000000000000000#64, 0xBFF0000000000000#64, 0x0000000000000000#64] := by
  simp only [FrameLegal, RegionsOk, allFinite_iff, holdsSeries_iff]
  decide +kernel

/-- A frame of 4 at offset 2 with a NaN at element 3 (V-SPC-3). -/
def brokenSpectrum : State := spectrumState 2#64 [0x3FF0000000000000#64, 0x4000000000000000#64, 0x4008000000000000#64, 0x7FF8000000000000#64, 0x4014000000000000#64, 0x4018000000000000#64]

theorem witness_SpectrumKeepsNothingOnAMalformedSample :
    brokenSpectrum.status.err = false ∧ FrameLegal brokenSpectrum
      ∧ offsetOf brokenSpectrum + frameNOf brokenSpectrum ≤ slenOf brokenSpectrum
      ∧ RegionsOk brokenSpectrum (frameNOf brokenSpectrum) ∧ [0x4008000000000000#64].length < frameNOf brokenSpectrum
      ∧ HoldsSeries brokenSpectrum.mem (srcOf brokenSpectrum + offsetOf brokenSpectrum) [0x4008000000000000#64] ∧ AllFinite [0x4008000000000000#64]
      ∧ readWord brokenSpectrum.mem (srcOf brokenSpectrum + offsetOf brokenSpectrum + [0x4008000000000000#64].length) = some 0x7FF8000000000000#64
      ∧ isFinite 0x7FF8000000000000#64 = false := by
  simp only [FrameLegal, RegionsOk, allFinite_iff, holdsSeries_iff]
  decide +kernel

/-! ### The normalizer -/

theorem witness_NormalizeRescales :
    (normalizeState upTo8).status.err = false ∧ NormalizeLegal (normalizeState upTo8) ∧ 0 < slenOf (normalizeState upTo8)
      ∧ RegionsOk (normalizeState upTo8) (slenOf (normalizeState upTo8)) ∧ upTo8.length = slenOf (normalizeState upTo8)
      ∧ HoldsSeries (normalizeState upTo8).mem (srcOf (normalizeState upTo8)) upTo8 ∧ AllFinite upTo8 := by
  simp only [NormalizeLegal, RegionsOk, allFinite_iff, holdsSeries_iff]
  decide +kernel

theorem witness_NormalizeKeepsPartialResults :
    brokenState.status.err = false ∧ NormalizeLegal brokenState ∧ [0x4080000000000000#64].length < slenOf brokenState
      ∧ RegionsOk brokenState (slenOf brokenState) ∧ HoldsSeries brokenState.mem (srcOf brokenState) [0x4080000000000000#64]
      ∧ AllFinite [0x4080000000000000#64] ∧ readWord brokenState.mem (srcOf brokenState + [0x4080000000000000#64].length) = some 0x7FF8000000000000#64
      ∧ isFinite 0x7FF8000000000000#64 = false := by
  simp only [NormalizeLegal, RegionsOk, allFinite_iff, holdsSeries_iff]
  decide +kernel

theorem witness_NormalizeClamps :
    isFinite 0x4090000000000000#64 = true ∧ fgt 0x4090000000000000#64 fzero = true ∧ 255 ≤ 2 ^ 32 - 1 ∧ isFinite 0xC014000000000000#64 = true
      ∧ fge 0x4090000000000000#64 0x4090000000000000#64 = true ∧ flt 0xC014000000000000#64 fzero = true := by decide +kernel

/-! ### Arithmetic -/

theorem witness_ArithmeticIsCorrectlyRounded :
    isFinite 0x3FF0000000000000#64 = true ∧ isFinite 0xBFF0000000000000#64 = true ∧ scaled 0xBFF0000000000000#64 ≠ 0
      ∧ scaled 0x3FF0000000000000#64 + scaled 0xBFF0000000000000#64 = 0 ∧ scaled 0x3FF0000000000000#64 - scaled 0x3FF0000000000000#64 = 0 := by decide +kernel

theorem witness_SquareRootIsCorrectlyRounded : isFinite 0x4000000000000000#64 = true ∧ 0 < scaled 0x4000000000000000#64 := by decide +kernel

theorem witness_OperationsOnSpecialOperands :
    isNan 0x7FF8000000000000#64 = true ∧ (isInf 0x7FF0000000000000#64 = true ∧ isInf 0xFFF0000000000000#64 = true
        ∧ signBit 0x7FF0000000000000#64 ≠ signBit 0xFFF0000000000000#64)
      ∧ scaled 0x8000000000000000#64 = 0 ∧ (isFinite 0x3FF0000000000000#64 = true ∧ scaled 0x3FF0000000000000#64 ≠ 0) ∧ scaled 0xBFF0000000000000#64 < 0
      ∧ (isFinite 0x7FEFFFFFFFFFFFFF#64 = true ∧ isFinite fzero = true ∧ isNan 0x7FF0000000000000#64 = false ∧ scaled 0x7FF0000000000000#64 ≠ 0)
      ∧ signBit 0x7FF0000000000000#64 = false := by decide +kernel

theorem witness_RoundIntIsNearestTiesUp : isFinite 0x4004000000000000#64 = true ∧ isFinite 0x7FF0000000000000#64 = false := by decide +kernel

theorem witness_CeilingComparisonsAndConversions :
    (isFinite 0xBFD0000000000000#64 = true ∧ isNan 0x7FF8000000000000#64 = true ∧ isInf 0x7FF0000000000000#64 = true ∧ isInf (fneg 0x7FF0000000000000#64) = true) ∧ 2 ^ 53 - 1 < 2 ^ 53
      ∧ (0 ≤ scaled 0x4008000000000000#64 ∧ scaled 0x4008000000000000#64 = 3 * (one1074 : Int) ∧ scaled 0x4008000000000000#64 < 2 ^ 64 * one1074) := by
  refine ⟨by decide +kernel, by decide, by decide +kernel⟩

/-! ### Host scripts -/

theorem witness_MacrosWriteOperandsThenIssue :
    { start [] [] with inbox := macroDetect 0#64 16#64 32#64 64#64 8#64 ++ [HostOp.rst] }.inbox
      = macroDetect 0#64 16#64 32#64 64#64 8#64 ++ [HostOp.rst] := rfl

theorem witness_MacrosWriteOperandsThenIssue_coeffs :
    { start [] [] with inbox := macroCoeffs 0x3FF0000000000000#64 0xC000000000000000#64 0x3FF0000000000000#64 0xC000000000000000#64 0x3FF0000000000000#64 ++ [HostOp.rst] }.inbox
      = macroCoeffs 0x3FF0000000000000#64 0xC000000000000000#64 0x3FF0000000000000#64 0xC000000000000000#64 0x3FF0000000000000#64 ++ [HostOp.rst] := rfl

end Sys2Proof.Tests
end

/-! Rounding a finite F64 to an integer (spec/00_scope.md R18): the integers within one of a finite F64 are encoded
exactly, so `integralF64` never rounds; and the integer `nearestInt` picks is the nearest one, ties upward. -/

namespace Sys2Proof.Machine

/-! ## Integers near an F64 are encoded exactly -/

/-- 1 more than a finite magnitude does not overflow: the greatest one is half a step, `2^2044` units, below the threshold. -/
theorem magUnits_add_one1074_lt_overflowUnits {a : Word} (ha : isFinite a = true) :
    magUnits a + one1074 < overflowUnits := by
  have hbits : lowBits a ≤ 2045 * 2 ^ 52 + (2 ^ 53 - 1) := by
    have := (isFinite_iff a).1 ha
    unfold infBits at this
    omega
  have hmax : magUnits a ≤ (2 ^ 53 - 1) * 2 ^ 2045 := by
    rw [magUnits_eq_magOfBits, ← magOfBits_eq 2045 (2 ^ 53 - 1) (by decide) (.inr (by decide))]
    rcases Nat.eq_or_lt_of_le hbits with heq | hlt
    · rw [heq]
    · exact (magOfBits_strictMono hlt).le
  have hone : one1074 < 2 ^ 2044 := by
    rw [one1074, Nat.pow_lt_pow_iff_right (by decide)]
    decide
  have hover : overflowUnits = (2 ^ 53 - 1) * 2 ^ 2045 + 2 ^ 2044 := by
    rw [overflowUnits, pow_succ 2 2044]
    generalize (2 : Nat) ^ 2044 = half
    omega
  omega

/-- A representable magnitude below the overflow threshold is kept by rounding. -/
theorem roundMag_of_representable {y : Nat} (hy : Representable y) (hlt : y < overflowUnits) :
    roundMag y 1 < infBits ∧ magOfBits (roundMag y 1) = y := by
  have hfin : roundMag y 1 < infBits := by
    refine lt_of_le_of_ne (roundMag_le y 1) fun hinf => ?_
    have := (roundMag_eq_infBits_iff y 1 one_pos).1 hinf
    omega
  have hnear := (roundMag_nearest y 1 one_pos hfin y hy).1
  simp only [Nat.cast_one, one_mul, sub_self, abs_zero, abs_nonpos_iff] at hnear
  exact ⟨hfin, by omega⟩

section
variable {a : Word} {n : Int}

theorem natAbs_mul_one1074_lt (hn : |n * one1074 - scaled a| < one1074) :
    n.natAbs * one1074 < magUnits a + one1074 := by
  rw [← natAbs_scaled, ← Int.natAbs_natCast one1074, ← Int.natAbs_mul, Int.natAbs_natCast one1074]
  have := abs_lt.1 hn
  omega

/-- An F64 with a last place of 1 or more is an integer. -/
theorem one1074_dvd_scaled {m j : Nat} (hmag : magUnits a = m * 2 ^ j) (hj : 1074 ≤ j) : (one1074 : Int) ∣ scaled a := by
  rw [← Int.dvd_natAbs, natAbs_scaled, Int.natCast_dvd_natCast, hmag, one1074]
  exact (pow_dvd_pow 2 hj).mul_left m

/-- An integer less than 1 away from an F64 that is itself an integer is that F64. -/
theorem int_near_eq (hdvd : (one1074 : Int) ∣ scaled a) (hn : |n * one1074 - scaled a| < one1074) :
    n * one1074 = scaled a := by
  have hzero := Int.eq_zero_of_abs_lt_dvd ((Int.dvd_mul_left n one1074).sub hdvd) hn
  omega

/-- Every integer less than 1 away from an F64 is representable: below `2^52` each integer is, and an F64 with a last
place of 1 or more is itself the only such integer. -/
theorem representable_int_near (hn : |n * one1074 - scaled a| < one1074) : Representable (n.natAbs * one1074) := by
  obtain ⟨m, j, hm, hmag⟩ := representable_magUnits a
  rcases Nat.lt_or_ge j 1074 with hj | hj
  · have hsmall : magUnits a ≤ 2 ^ 52 * one1074 := by
      calc magUnits a = m * 2 ^ j := hmag
        _ ≤ 2 ^ 53 * 2 ^ 1073 := by gcongr <;> omega
        _ = 2 ^ 52 * one1074 := by rw [one1074, ← pow_add, ← pow_add]
    have hnat : n.natAbs * one1074 < (2 ^ 52 + 1) * one1074 := by
      have := natAbs_mul_one1074_lt hn
      omega
    have := Nat.lt_of_mul_lt_mul_right hnat
    exact ⟨n.natAbs, 1074, by omega, rfl⟩
  · rw [← Int.natAbs_natCast one1074, ← Int.natAbs_mul, int_near_eq (one1074_dvd_scaled hmag hj) hn, natAbs_scaled]
    exact representable_magUnits a

/-- An integer less than 1 away from `a` is not on the other side of zero: with `a`'s sign put back its magnitude is it. -/
theorem signed_natAbs_near (hn : |n * one1074 - scaled a| < one1074) :
    (if signBit a then -(n.natAbs : Int) else n.natAbs) = n := by
  have hpos : (0 : Int) < one1074 := by exact_mod_cast one1074_pos
  obtain ⟨hlo, hhi⟩ := abs_lt.1 hn
  cases hs : signBit a
  · have hscaled : 0 ≤ scaled a := by simp [scaled, hs]
    have : 0 < n + 1 := pos_of_mul_pos_left (by linarith : 0 < (n + 1) * (one1074 : Int)) hpos.le
    rw [if_neg Bool.false_ne_true]
    omega
  · have hscaled : scaled a ≤ 0 := by simp [scaled, hs]
    have : n < 1 := lt_of_mul_lt_mul_right (by linarith : n * (one1074 : Int) < 1 * one1074) hpos.le
    rw [if_pos rfl]
    omega

/-- An integer less than 1 away from a finite F64, packed with that F64's sign, is finite and has the integer's value. -/
theorem integralF64_near (ha : isFinite a = true) (hn : |n * one1074 - scaled a| < one1074) :
    isFinite (integralF64 (signBit a) n) = true ∧ scaled (integralF64 (signBit a) n) = n * one1074 := by
  have hlt : n.natAbs * one1074 < overflowUnits :=
    (natAbs_mul_one1074_lt hn).trans (magUnits_add_one1074_lt_overflowUnits ha)
  obtain ⟨hfin, hmag⟩ := roundMag_of_representable (representable_int_near hn) hlt
  refine ⟨?_, ?_⟩
  · rw [integralF64, isFinite_packF64 _ _ hfin.le, decide_eq_true hfin]
  · rw [integralF64, scaled_packF64 _ _ (roundMag_lt _ _), hmag, Nat.cast_mul, ← neg_mul, ← ite_mul,
      signed_natAbs_near hn]

end

/-! ## The sign of a zero result -/

/-- The sign bit is set for the numbers below zero and for -0.0. -/
theorem signBit_iff (a : Word) : signBit a = true ↔ scaled a < 0 ∨ a = 0x8000000000000000#64 := by
  constructor
  · intro hs
    by_cases hzero : magUnits a = 0
    · right
      have hlow : lowBits a = 0 := magOfBits_injective (by rw [← magUnits_eq_magOfBits, hzero]; decide)
      rw [← packF64_lowBits a, hs, hlow]
      decide
    · left
      simp only [scaled, hs, if_true]
      omega
  · rintro (hneg | rfl)
    · by_contra hs
      rw [scaled, if_neg hs] at hneg
      omega
    · decide

/-- The zero of either sign. -/
theorem integralF64_zero (neg : Bool) : integralF64 neg 0 = if neg then 0x8000000000000000#64 else fzero := by
  cases neg <;> decide +kernel

/-! ## The nearest integer -/

/-- `nearestInt` is the integer `n` with `n - 1/2 <= a < n + 1/2`. -/
theorem nearestInt_bounds (a : Word) :
    (2 * nearestInt a - 1) * one1074 ≤ 2 * scaled a ∧ 2 * scaled a < (2 * nearestInt a + 1) * one1074 := by
  have hpos : (0 : Int) < 2 * one1074 := by have := one1074_pos; omega
  have hle : nearestInt a * (2 * one1074) ≤ 2 * scaled a + one1074 := Int.ediv_mul_le _ hpos.ne'
  have hlt : 2 * scaled a + one1074 < (nearestInt a + 1) * (2 * one1074) := Int.lt_ediv_add_one_mul_self _ hpos
  constructor <;> linarith

theorem nearestInt_near (a : Word) : |nearestInt a * one1074 - scaled a| < one1074 := by
  have hpos : (0 : Int) < one1074 := by exact_mod_cast one1074_pos
  obtain ⟨hlo, hhi⟩ := nearestInt_bounds a
  rw [abs_lt]
  constructor <;> linarith

theorem roundInt_finite {a : Word} (ha : isFinite a = true) : roundInt a = integralF64 (signBit a) (nearestInt a) :=
  if_pos ha

/-- R18 on a non-finite operand. -/
theorem roundInt_of_not_finite {a : Word} (ha : isFinite a = false) : roundInt a = a := by simp [roundInt, ha]

/-- R18's examples: 2.5, -2.5, 0.5, -0.5, the predecessor of 0.5, and -0.2. -/
theorem roundInt_examples :
    roundInt 0x4004000000000000#64 = 0x4008000000000000#64
      ∧ roundInt 0xC004000000000000#64 = 0xC000000000000000#64
      ∧ roundInt 0x3FE0000000000000#64 = 0x3FF0000000000000#64
      ∧ roundInt 0xBFE0000000000000#64 = 0x8000000000000000#64
      ∧ roundInt 0x3FDFFFFFFFFFFFFF#64 = 0x0000000000000000#64
      ∧ roundInt 0xBFC999999999999A#64 = 0x8000000000000000#64 := by decide +kernel

/-- Settles O58: `nearestInt` is the integer of the rule, and being less than 1 away from `a` it is encoded exactly. -/
theorem roundIntIsNearestTiesUp : Obligations.RoundIntIsNearestTiesUp := by
  refine ⟨fun a ha => ⟨nearestInt a, ?_⟩, fun a ha => roundInt_of_not_finite ha, roundInt_examples⟩
  obtain ⟨hfin, hval⟩ := integralF64_near ha (nearestInt_near a)
  obtain ⟨hlo, hhi⟩ := nearestInt_bounds a
  rw [roundInt_finite ha]
  refine ⟨hfin, hval, hlo, hhi, fun hzero => ?_⟩
  simp only [hzero, integralF64_zero, signBit_iff]

end Sys2Proof.Machine

/-! The register port and the operand registers (spec/10_state.md R40, R42): reserved numbers name no register, and an
operand register changes only by a host write of it or by reset. -/

namespace Sys2Proof.Machine

/-! ## Reserved register numbers -/

/-- R40's numbers name no register of R20. -/
theorem regOfNumber_of_reserved {n : BitVec 5} (hn : n ∈ [0x0D#5, 0x0E#5, 0x0F#5, 0x17#5, 0x1B#5, 0x1E#5, 0x1F#5]) :
    regOfNumber n = none := by
  revert n
  decide

theorem regRead_of_unnamed (s : State) {n : BitVec 5} (hn : regOfNumber n = none) : regRead s n = 0#64 := by
  simp only [regRead, hn]

theorem perform_regWrite_of_unnamed (s : State) {n : BitVec 5} (v : Word) (hn : regOfNumber n = none) :
    perform (.regWrite n v) s = .next s := by
  simp only [perform, hostRegWrite, hn]

/-- Settles O6: a reserved number names no register, so the port answers 0 and drops the write. -/
theorem reservedNumbersReadZeroAndIgnoreWrites : Obligations.ReservedNumbersReadZeroAndIgnoreWrites := by
  intro s n v hn
  have hnone := regOfNumber_of_reserved hn
  exact ⟨regRead_of_unnamed s hnone, perform_regWrite_of_unnamed s v hnone⟩

/-! ## What changes an operand register -/

/-- The value of an operand register is a function of the operand registers alone. -/
theorem regGet_eq_of_ops_eq {s t : State} {r : Reg} (hr : isOperandReg r = true) (h : t.ops = s.ops) :
    regGet t r = regGet s r := by
  cases r with
  | cmd | status | errinfo | dlen | b0 | b1 | b2 | a1 | a2 => exact absurd hr (by decide)
  | _ => simp only [regGet, h]

@[simp] theorem writeStatus_ops (v : Word) (s : State) : (writeStatus v s).ops = s.ops := by
  simp only [writeStatus, writeStatusErr, writeStatusDone]
  split <;> split <;> rfl

/-- A host write of another register leaves an operand register alone. -/
theorem regGet_regPut_of_ne {q r : Reg} (v : Word) (s : State) (hr : isOperandReg r = true) (hne : r ≠ q) :
    regGet (regPut q v s) r = regGet s r := by
  cases q with
  | status => exact regGet_eq_of_ops_eq hr (writeStatus_ops v s)
  | _ => cases r <;> trivial

/-- What a transaction can do to the operand registers: only a register write and the reset reach them. -/
theorem perform_ops_cases {op : HostOp} {s t : State} (h : perform op s = .next t) :
    t.ops = s.ops ∨ op = .rst ∨ ∃ q v, op = .regWrite (regNumber q) v ∧ t = regPut q v s := by
  rcases perform_inv h with ⟨_, -, rfl⟩ | ⟨_, _, -, rfl⟩ | ⟨_, _, -, -, rfl⟩ | ⟨hop, -⟩ | ⟨_, _, -, -, rfl⟩
    | ⟨q, v, hop, -, ht⟩ | ⟨_, -, -, ⟨-, rfl⟩ | ⟨-, rfl⟩⟩ | ⟨_, _, -, -, hexec⟩
  · exact .inl rfl
  · exact .inl rfl
  · exact .inl rfl
  · exact .inr (.inl hop)
  · exact .inl rfl
  · exact .inr (.inr ⟨q, v, hop, ht⟩)
  · exact .inl rfl
  · exact .inl rfl
  · exact .inl (exec_ops hexec)

/-- A transaction that changes an operand register is a host write of that very register, or the reset. -/
theorem perform_changes_operand {op : HostOp} {s t : State} {r : Reg} (hr : isOperandReg r = true)
    (h : perform op s = .next t) (hne : regGet t r ≠ regGet s r) :
    (∃ v, op = .regWrite (regNumber r) v) ∨ op = .rst := by
  rcases perform_ops_cases h with hops | hrst | ⟨q, v, hop, rfl⟩
  · exact absurd (regGet_eq_of_ops_eq hr hops) hne
  · exact .inr hrst
  · by_cases hq : r = q
    · exact .inl ⟨v, hq ▸ hop⟩
    · exact absurd (regGet_regPut_of_ne v s hr hq) hne

/-- Settles O16: a command keeps the operand registers whole, and a step is one transaction. -/
theorem commandsKeepOperandRegisters : Obligations.CommandsKeepOperandRegisters := by
  refine ⟨fun i s t r hr h => regGet_eq_of_ops_eq hr (exec_ops h), fun s t r hr h hne => ?_⟩
  rcases step_inv h with ⟨-, rfl⟩ | ⟨op, rest, hbox, hperform⟩
  · exact absurd rfl hne
  · have hbase : regGet { s with inbox := rest } r = regGet s r := regGet_eq_of_ops_eq hr rfl
    rw [← hbase] at hne
    rcases perform_changes_operand hr hperform hne with ⟨v, rfl⟩ | rfl
    · exact .inl ⟨v, rest, hbox⟩
    · exact .inr ⟨rest, hbox⟩

end Sys2Proof.Machine

/-! What changes data memory (spec/20_memory.md R66, R73): a host write reaches one word, a command its result words,
and no other transaction reaches data memory at all. -/

namespace Sys2Proof.Machine

/-! ## Where a write of words can be seen -/

/-- A byte that a write of words changes lies in the words written. -/
theorem getByte_writeWords_changed {m : Memory} {a x : Nat} {ws : List Word}
    (h : getByte (writeWords m a ws) x ≠ getByte m x) : 8 * a ≤ x ∧ x < 8 * (a + ws.length) := by
  by_contra hout
  exact h (getByte_writeWords_out m a x ws (by omega))

/-- A byte that a write of one word changes lies in that word. -/
theorem getByte_writeWord_changed {m : Memory} {a x : Nat} {v : Word}
    (h : getByte (writeWord m a v) x ≠ getByte m x) : 8 * a ≤ x ∧ x < 8 * a + 8 :=
  getByte_writeWords_changed (ws := [v]) h

/-! ## What a command and a transaction do to data memory -/

/-- R66: what an accepted command does to data memory is one write of words from `DST` on, as many as `DLEN` counts
elements of the command's width. A legal build keeps the count within `DLEN`'s 64 bits. -/
theorem exec_mem_writeWords {i : Instr} {s t : State} (hb : buildOk s.cfg = true) (herr : s.status.err = false)
    (h : exec i s = .next t) :
    ∃ ws, t.mem = writeWords s.mem (dstOf s) ws ∧ ws.length = elementWidth i * t.dlen.toNat := by
  have hcount : ∀ n ≤ s.cfg.memWords, (BitVec.ofNat 64 n).toNat = n := fun n hn => toNat_of_le (hn.trans (memWords_le hb))
  rcases exec_effect i s herr with ⟨e, hr, -⟩ | ⟨n, ws, g, c, hr, hlen, -, hn, -⟩ | ⟨j, n, ws, g, hr, hlen, -, hn, -⟩
    | ⟨a, hr, -⟩ <;> rw [hr] at h <;> cases h
  case inl => exact ⟨[], rfl, rfl⟩
  case inr.inl => exact ⟨ws, rfl, by rw [complete_dlen, hcount n hn, hlen]⟩
  case inr.inr.inl => exact ⟨ws, rfl, by rw [raise_dlen, hcount n hn, hlen]⟩

/-- A byte that a command changes: the command was accepted and the byte lies in its result words. -/
theorem exec_changes_byte {i : Instr} {s t : State} {x : Nat} (hb : buildOk s.cfg = true) (h : exec i s = .next t)
    (hne : getByte t.mem x ≠ getByte s.mem x) :
    s.status.err = false ∧ 8 * dstOf s ≤ x ∧ x < 8 * (dstOf s + elementWidth i * t.dlen.toNat) := by
  cases herr : s.status.err with
  | true =>
    rw [exec_of_err i s herr] at h
    cases h
    exact absurd rfl hne
  | false =>
    obtain ⟨ws, hmem, hlen⟩ := exec_mem_writeWords hb herr h
    rw [hmem] at hne
    rw [← hlen]
    exact ⟨rfl, getByte_writeWords_changed hne⟩

/-- What a transaction can do to data memory: only a memory write and a command reach it. -/
theorem perform_mem_cases {op : HostOp} {s t : State} (h : perform op s = .next t) :
    t.mem = s.mem ∨ (∃ a v, op = .memWrite a v ∧ t.mem = writeWord s.mem a v)
      ∨ ∃ w i, op = commandWrite w ∧ decode w = some i ∧ exec i s = .next t := by
  rcases perform_inv h with ⟨_, -, rfl⟩ | ⟨_, _, -, rfl⟩ | ⟨a, v, hop, -, rfl⟩ | ⟨-, rfl⟩ | ⟨_, _, -, -, rfl⟩
    | ⟨q, v, -, -, rfl⟩ | ⟨_, -, -, ⟨-, rfl⟩ | ⟨-, rfl⟩⟩ | hcommand
  · exact .inl rfl
  · exact .inl rfl
  · exact .inr (.inl ⟨a, v, hop, rfl⟩)
  · exact .inl rfl
  · exact .inl rfl
  · exact .inl (regPut_mem q v s)
  · exact .inl rfl
  · exact .inl rfl
  · exact .inr (.inr hcommand)

/-- Settles O13: a step is one transaction, and the two kinds that reach data memory change bytes of their own words
only. -/
theorem memoryChangesOnlyByWritesAndResults : Obligations.MemoryChangesOnlyByWritesAndResults := by
  intro s t x hb h hne
  rcases step_inv h with ⟨-, rfl⟩ | ⟨op, rest, hbox, hperform⟩
  · exact absurd rfl hne
  · rcases perform_mem_cases hperform with hmem | ⟨a, v, rfl, hmem⟩ | ⟨w, i, rfl, hdecode, hexec⟩
    · exact absurd (congrArg (getByte · x) hmem) hne
    · rw [hmem] at hne
      exact .inl ⟨a, v, rest, hbox, getByte_writeWord_changed hne⟩
    · exact .inr ⟨w, i, rest, hbox, hdecode, exec_changes_byte (s := { s with inbox := rest }) hb hexec hne⟩

end Sys2Proof.Machine

/-! The command word (spec/30_encoding.md R82, R87, R199): which words the decoder reads, and what a write of `CMD` does
with a word that spells no command or while `STATUS.ERR` is 1. -/

namespace Sys2Proof.Machine

/-! ## The decoder on every word -/

/-- R83, R84: the opcodes the map leaves out. -/
theorem instrOfOpcode_eq_none_iff (n : Nat) : instrOfOpcode n = none ↔ n = 0 ∨ 9 ≤ n := by
  match n with
  | 0 | 1 | 2 | 3 | 4 | 5 | 6 | 7 | 8 => simp [instrOfOpcode]
  | n + 9 => simp [instrOfOpcode]

/-- A word with a zero reserved field is read by its opcode alone. -/
theorem decode_of_rsvd_zero {w : Word} (h : w.toNat / 2 ^ 8 = 0) : decode w = instrOfOpcode (w.toNat % 2 ^ 8) :=
  if_pos h

theorem decode_of_rsvd_ne_zero {w : Word} (h : w.toNat / 2 ^ 8 ≠ 0) : decode w = none :=
  if_neg h

/-- R82: the words that spell no command. -/
theorem decode_eq_none_iff (w : Word) :
    decode w = none ↔ w.toNat / 2 ^ 8 ≠ 0 ∨ w.toNat % 2 ^ 8 = 0 ∨ 9 ≤ w.toNat % 2 ^ 8 := by
  by_cases hrsvd : w.toNat / 2 ^ 8 = 0
  · rw [decode_of_rsvd_zero hrsvd, instrOfOpcode_eq_none_iff]
    simp only [hrsvd, ne_eq, not_true_eq_false, false_or]
  · exact iff_of_true (decode_of_rsvd_ne_zero hrsvd) (.inl hrsvd)

/-- R82: the legal words are the numbers 1 to 8. -/
theorem exists_decode_iff (w : Word) : (∃ i, decode w = some i) ↔ 1 ≤ w.toNat ∧ w.toNat ≤ 8 := by
  rw [← Option.ne_none_iff_exists', ne_eq, decode_eq_none_iff]
  omega

/-! ## A write of `CMD` -/

theorem perform_commandWrite (w : Word) (s : State) : perform (commandWrite w) s = command w s := rfl

theorem command_of_decode_some {w : Word} {i : Instr} (s : State) (h : decode w = some i) :
    command w s = exec i s := by
  simp only [command, h]

theorem command_of_decode_none {w : Word} (s : State) (h : decode w = none) : command w s = illegalCommand w s := by
  simp only [command, h]

/-- R199: an accepted word that spells no command is reported whole, against no register. -/
theorem illegalCommand_of_ok (w : Word) {s : State} (herr : s.status.err = false) :
    illegalCommand w s = .next (failedState s 7#4 0xFF#8 w) :=
  (issue_of_ok s _ herr).trans (congrArg Host.Outcome.next (raise_accept s .illegalCommand 0xFF#8 w))

/-- R87: the gate on ERR stands before the command, whether or not the word spells one. -/
theorem command_of_err (w : Word) {s : State} (herr : s.status.err = true) : command w s = .next s := by
  cases hdecode : decode w with
  | some i => rw [command_of_decode_some s hdecode, exec_of_err i s herr]
  | none => rw [command_of_decode_none s hdecode, illegalCommand, issue_of_err s _ herr]

/-- Settles O2: the reserved field and the opcode map decide every word, and a word that decodes to nothing ends in
`illegalCommand`. -/
theorem onlyTheEightWordsDecode : Obligations.OnlyTheEightWordsDecode := by
  intro w
  refine ⟨fun hillegal => ?_, fun hrsvd => ?_, exists_decode_iff w⟩
  · have hdecode : decode w = none := (decode_eq_none_iff w).mpr hillegal
    refine ⟨hdecode, fun s herr => ?_⟩
    rw [perform_commandWrite, command_of_decode_none s hdecode, illegalCommand_of_ok w herr]
  · rw [decode_of_rsvd_zero hrsvd]
    refine ⟨?_, ?_, ?_, ?_, ?_, ?_, ?_, ?_⟩ <;> exact congrArg instrOfOpcode

/-- Settles O15: the gate on ERR comes first for every word. -/
theorem commandsIgnoredWhileErr : Obligations.CommandsIgnoredWhileErr := by
  intro s w herr
  rw [perform_commandWrite, command_of_err w herr]

end Sys2Proof.Machine

/-! The number of outputs of FIR_DECIMATE (spec/41_fir_decimator.md R122): DONE means that every check passed and the
whole series was produced, and `ceilDiv` is the least count of steps that covers the samples after the first window. -/

namespace Sys2Proof.Machine

/-! ## What DONE says -/

/-- A failed check leaves DONE at 0, so a command that ends with DONE passed every check. -/
theorem checked_of_done {s t : State} {checks : List (Bool × Reject)} {run : Result}
    (h : checked s checks run = .next t) (hdone : t.status.done = true) : ∀ c ∈ checks, c.1 = false := by
  rcases checked_cases s checks run with ⟨c, -, -, hraise⟩ | ⟨hpass, -⟩
  · rw [hraise] at h
    cases h
    exact absurd hdone Bool.false_ne_true
  · exact hpass

/-- A malformed sample leaves DONE at 0, so a series that ends with DONE was produced whole. -/
theorem finish_dlen_of_done {n : Nat} {s t : State} {e : SeriesEnd} (h : finish n s e = .next t)
    (hdone : t.status.done = true) : t.dlen = BitVec.ofNat 64 n := by
  cases e with
  | finished m g =>
    cases h
    rfl
  | malformed i kept m g =>
    cases h
    exact absurd hdone Bool.false_ne_true
  | unwritten a => cases h

/-- A FIR_DECIMATE that ends with DONE passed its checks. -/
theorem decimateChecks_of_done {s t : State} (herr : s.status.err = false) (h : exec .firDecimate s = .next t)
    (hdone : t.status.done = true) : ∀ c ∈ decimateChecks s, c.1 = false := by
  rw [exec, execFirDecimate, issue_of_ok _ _ herr, runDecimate, decimateChecks_accept] at h
  exact checked_of_done h hdone

theorem scaleSupported_of_decimateChecks {s : State} (h : ∀ c ∈ decimateChecks s, c.1 = false) :
    scaleSupported (scaleOf s) = true := by
  simpa using h _ List.mem_cons_self

/-! ## The count -/

/-- `ceilDiv a b` is the least `q` with `a <= q * b`. -/
theorem ceilDiv_le_iff {a b q : Nat} (hb : 0 < b) : ceilDiv a b ≤ q ↔ a ≤ q * b := by
  simpa using not_congr (lt_ceilDiv_iff (scale := b) (taps := 0) (len := a) (k := q) hb)

/-- A decimation has no more outputs than samples. -/
theorem firCount_le_slenOf {s : State} (hscale : 0 < scaleOf s) : firCount s ≤ slenOf s := by
  by_cases hone : scaleOf s = 1
  · exact (if_pos hone).le
  · rw [firCount_eq hone, ceilDiv_le_iff hscale]
    exact (Nat.sub_le _ _).trans (Nat.le_mul_of_pos_right _ hscale)

/-- `DLEN` after DONE: the count of R122, which fits `DLEN`'s 64 bits because `SLEN` fits its own. -/
theorem decimate_dlen_of_done {s t : State} (herr : s.status.err = false) (h : exec .firDecimate s = .next t)
    (hdone : t.status.done = true) : 0 < scaleOf s ∧ t.dlen.toNat = firCount s := by
  have hpass := decimateChecks_of_done herr h hdone
  have hscale := scale_pos_of_supported (scaleSupported_of_decimateChecks hpass)
  rw [exec_decimate herr hpass] at h
  have hfits : firCount s < 2 ^ 64 := (firCount_le_slenOf hscale).trans_lt s.ops.slen.isLt
  exact ⟨hscale, by rw [finish_dlen_of_done h hdone, BitVec.toNat_ofNat, Nat.mod_eq_of_lt hfits]⟩

/-- Settles O38: `DLEN` is the `ceilDiv` of R122, which counts the windows that fit and is the least cover. -/
theorem firOutputCountIsTheLoopCount : Obligations.FirOutputCountIsTheLoopCount := by
  intro s t herr hone hexec hdone
  obtain ⟨hscale, hcount⟩ := decimate_dlen_of_done herr hexec hdone
  rw [hcount, firCount_eq hone]
  exact ⟨fun k => lt_ceilDiv_iff hscale, (ceilDiv_le_iff hscale).mp le_rfl, fun q => (ceilDiv_le_iff hscale).mpr⟩

end Sys2Proof.Machine

/-! The noise gate of DETECT (spec/43_spectral_detector.md R156, R157, R162): a DETECT over a finite series leaves the
record of every frame at its place, and the gate turns a record into +0.0, the peak magnitude, +0.0. -/

namespace Sys2Proof.Machine

/-! ## The RPM of +0.0 -/

@[simp] theorem roundMag_zero (den : Nat) : roundMag 0 den = 0 := by simp [roundMag, tieEven]

/-- +0.0 divided by a positive number is +0.0. -/
theorem fdiv_fzero {b : Word} (hb : isFinite b = true) (hsign : signBit b = false) (hne : magUnits b ≠ 0) :
    fdiv fzero b = fzero := by
  have hzero : magUnits fzero = 0 ∧ signBit fzero = false := by decide
  rw [fdiv_finite (by decide) hb hne, hzero.1, hzero.2, hsign, Nat.zero_mul, roundMag_zero]
  rfl

/-- +0.0 times a number without the sign bit is +0.0. -/
theorem fmul_fzero {b : Word} (hb : isFinite b = true) (hsign : signBit b = false) : fmul fzero b = fzero := by
  have hzero : magUnits fzero = 0 ∧ signBit fzero = false := by decide
  rw [fmul_finite (by decide) hb, hzero.1, hzero.2, hsign, Nat.zero_mul, roundMag_zero]
  rfl

/-! ## The record of a gated frame -/

theorem gearDiv_of_buildOk {b : Config.Build} (h : buildOk b = true) : b.gearDiv = 0x4020000000000000#64 := by
  simp only [buildOk, Bool.and_eq_true, beq_iff_eq] at h
  exact h.2

/-- The gate changes the frequency, and through it the RPM; the peak magnitude stays as found. -/
theorem frameRecord_of_gated {s : State} {frame : List Word} (hbuild : buildOk s.cfg = true)
    (hgate : flt (framePeak s frame).1 s.ops.minPeak = true) :
    frameRecord s frame = [fzero, (framePeak s frame).1, fzero] := by
  have hfreq : frameFreq s frame = fzero := if_pos hgate
  rw [frameRecord, hfreq, gearDiv_of_buildOk hbuild, fdiv_fzero (by decide) (by decide) (by decide +kernel),
    fmul_fzero (by decide) (by decide)]

/-! ## DETECT over a finite series -/

section
variable {s : State} {xs : List Word} (herr : s.status.err = false) (hlegal : DetectLegal s)
  (hframe : frameNOf s ≤ slenOf s) (hregions : RegionsOk s (3 * frameCount s))
  (hlen : xs.length = frameCount s * frameNOf s) (hseries : HoldsSeries s.mem (srcOf s) xs) (hfinite : AllFinite xs)
include herr hlegal hframe hregions hlen hseries hfinite

/-- DETECT ends with success, the records of all frames written side by side; the biquad histories stay. -/
theorem exec_detect_of_finite : ∃ h' : Hidden, h'.u1 = s.hidden.u1 ∧ h'.u2 = s.hidden.u2 ∧
    exec .detect s = .next (complete (frameCount s)
      (withWork (writeWords s.mem (dstOf s) (detections s (frameCount s) xs)) h' (accept s))) := by
  obtain ⟨h', hu1, hu2, helements⟩ :=
    elements_detect s s.mem xs (frameCount s) 0 0 s.hidden hseries hfinite (by rw [Nat.zero_add, hlen])
  refine ⟨h', hu1, hu2, ?_⟩
  rw [exec_detect herr (pass_detect hlegal hframe hregions), series_run s.hidden (detectElement_ok s) hregions,
    ← Nat.add_zero (frameCount s), helements]
  simp [elements, seriesEnd, finish, detections_eq]

/-- Word `k` of the record of frame `fr` stands at `DST + 3 * fr + k`. -/
theorem exec_detect_readWord : ∃ t, exec .detect s = .next t ∧ ∀ fr k w, fr < frameCount s →
    (frameRecord s (frameOf (frameNOf s) fr xs))[k]? = some w → readWord t.mem (dstOf s + 3 * fr + k) = some w := by
  obtain ⟨h', -, -, hexec⟩ := exec_detect_of_finite herr hlegal hframe hregions hlen hseries hfinite
  refine ⟨_, hexec, fun fr k w hfr hw => ?_⟩
  have hk : k < 3 := frameRecord_length s _ ▸ (List.getElem?_eq_some_iff.1 hw).1
  rw [← detections_getElem s (frameCount s) xs fr k hfr hk] at hw
  rw [Nat.add_assoc]
  exact holds_writeWords s.mem (dstOf s) _ _ w hw

end

/-- Settles O46: the three words DETECT leaves for the frame are its record, and the gate says what that record is. -/
theorem noiseGateReportsThePeak : Obligations.NoiseGateReportsThePeak := by
  intro s xs fr herr hbuild hlegal hframe hregions hlen hseries hfinite hfr hgate
  obtain ⟨t, hexec, hread⟩ := exec_detect_readWord herr hlegal hframe hregions hlen hseries hfinite
  have hrecord := frameRecord_of_gated hbuild hgate
  exact ⟨t, hexec, hread fr 0 _ hfr (by rw [hrecord]; rfl), hread fr 1 _ hfr (by rw [hrecord]; rfl),
    hread fr 2 _ hfr (by rw [hrecord]; rfl)⟩

end Sys2Proof.Machine

/-! The clamp of NORMALIZE (spec/44_normalizer.md R181). The result is the integer part of the rescaled sample, clamped
to `[0, dst_max]`. For a sample of `src_max` or more the rounded product with `dst_max + 1` keeps at least `dst_max`
times the sample, so the exact quotient is `dst_max` or more; `dst_max` is an F64, so the rounded one is as well. -/

namespace Sys2Proof.Machine

/-! ## Signs and comparisons -/

theorem scaled_of_not_signBit {a : Word} (hs : signBit a = false) : scaled a = magUnits a := by simp [scaled, hs]

theorem scaled_nonpos_of_signBit {a : Word} (hs : signBit a = true) : scaled a ≤ 0 := by simp [scaled, hs]

/-- On operands that are not NaN, infinities among them, `flt` is the order of the scaled values. -/
theorem flt_iff {a b : Word} (ha : isNan a = false) (hb : isNan b = false) :
    flt a b = true ↔ scaled a < scaled b := by
  simp [flt, ha, hb]

theorem scaled_le_of_fle {a b : Word} (h : fle a b = true) : scaled a ≤ scaled b := by
  simp only [fle, Bool.and_eq_true, decide_eq_true_eq] at h
  exact h.2

theorem scaled_lt_of_flt {a b : Word} (h : flt a b = true) : scaled a < scaled b := by
  simp only [flt, Bool.and_eq_true, decide_eq_true_eq] at h
  exact h.2

@[simp] theorem isNan_fzero : isNan fzero = false := by decide

@[simp] theorem scaled_fzero : scaled fzero = 0 := by decide

/-- A positive number: its sign bit is clear and its magnitude is its value. -/
theorem magnitude_of_pos {a : Word} (h : 0 < scaled a) : signBit a = false ∧ (magUnits a : Int) = scaled a := by
  have hs : signBit a = false :=
    Bool.eq_false_of_not_eq_true fun hs => h.not_ge (scaled_nonpos_of_signBit hs)
  exact ⟨hs, (scaled_of_not_signBit hs).symm⟩

theorem magOfBits_mono {b c : Nat} (h : b ≤ c) : magOfBits b ≤ magOfBits c :=
  (Nat.eq_or_lt_of_le h).elim (fun heq => heq ▸ le_rfl) fun hlt => (magOfBits_strictMono hlt).le

/-! ## `u2f` is exact below `2^53` -/

/-- The bits of `u2f n` are those of a finite number of magnitude `n`. -/
theorem roundMag_nat {n : Nat} (hn : n < 2 ^ 53) :
    roundMag (n * one1074) 1 < infBits ∧ magOfBits (roundMag (n * one1074) 1) = n * one1074 := by
  refine roundMag_of_representable ⟨n, 1074, hn, by rw [one1074]⟩ ?_
  calc n * one1074 < 2 ^ 53 * one1074 := Nat.mul_lt_mul_of_pos_right hn one1074_pos
    _ ≤ overflowUnits := by
      rw [one1074, overflowUnits]
      gcongr <;> decide

@[simp] theorem signBit_u2f (n : Nat) : signBit (u2f n) = false := signBit_packF64 _ _ (roundMag_lt _ _)

@[simp] theorem isNan_u2f (n : Nat) : isNan (u2f n) = false := isNan_packF64 _ _ (roundMag_le _ _)

theorem isFinite_u2f {n : Nat} (hn : n < 2 ^ 53) : isFinite (u2f n) = true := by
  rw [u2f, isFinite_packF64 _ _ (roundMag_le _ _), decide_eq_true (roundMag_nat hn).1]

theorem magUnits_u2f {n : Nat} (hn : n < 2 ^ 53) : magUnits (u2f n) = n * one1074 := by
  rw [u2f, magUnits_packF64 _ _ (roundMag_lt _ _), (roundMag_nat hn).2]

theorem scaled_u2f {n : Nat} (hn : n < 2 ^ 53) : scaled (u2f n) = n * one1074 := by
  rw [scaled_of_not_signBit (signBit_u2f n), magUnits_u2f hn, Nat.cast_mul]

/-! ## `round_int` keeps integer bounds -/

section
variable {a : Word} {n : Int}

theorem scaled_roundInt (ha : isFinite a = true) : scaled (roundInt a) = nearestInt a * one1074 := by
  rw [roundInt_finite ha, (integralF64_near ha (nearestInt_near a)).2]

theorem isNan_roundInt (ha : isNan a = false) : isNan (roundInt a) = false := by
  cases hfin : isFinite a with
  | true => rw [roundInt_finite hfin, isNan_of_isFinite (integralF64_near hfin (nearestInt_near a)).1]
  | false => rw [roundInt_of_not_finite hfin, ha]

theorem le_scaled_roundInt (h : n * one1074 ≤ scaled a) : n * one1074 ≤ scaled (roundInt a) := by
  cases hfin : isFinite a with
  | false => rwa [roundInt_of_not_finite hfin]
  | true =>
    have hpos : (0 : Int) ≤ one1074 := Int.natCast_nonneg _
    have hlt : 2 * n < 2 * nearestInt a + 1 :=
      lt_of_mul_lt_mul_right (by linarith [(nearestInt_bounds a).2] : 2 * n * (one1074 : Int) < _ * one1074) hpos
    rw [scaled_roundInt hfin]
    exact mul_le_mul_of_nonneg_right (by omega) hpos

theorem scaled_roundInt_nonpos (h : scaled a ≤ 0) : scaled (roundInt a) ≤ 0 := by
  cases hfin : isFinite a with
  | false => rwa [roundInt_of_not_finite hfin]
  | true =>
    have hpos : (0 : Int) < one1074 := by exact_mod_cast one1074_pos
    have hle : 2 * nearestInt a - 1 ≤ 0 :=
      le_of_mul_le_mul_right (by linarith [(nearestInt_bounds a).1] : _ * (one1074 : Int) ≤ 0 * one1074) hpos
    rw [scaled_roundInt hfin]
    exact mul_nonpos_of_nonpos_of_nonneg (by omega) hpos.le

end

/-! ## The clamp -/

section
variable {r : Word} {d : Nat}

/-- On every number the clamp is the integer part brought into `[0, d]`. -/
theorem clampInt_eq (hr : isNan r = false) (hd : d < 2 ^ 53) :
    (clampInt d r : Int) = max 0 (min (d : Int) (scaled r / one1074)) := by
  have hpos : (0 : Int) < one1074 := by exact_mod_cast one1074_pos
  rw [clampInt, fgt]
  simp only [flt_iff hr isNan_fzero, flt_iff (isNan_u2f d) hr, scaled_fzero, scaled_u2f hd]
  split_ifs with hneg habove
  · have := Int.ediv_neg_of_neg_of_pos hneg hpos
    omega
  · have := (Int.le_ediv_iff_mul_le hpos).2 habove.le
    omega
  · have hmag : (magUnits r : Int) = scaled r := by
      rw [← natAbs_scaled]
      omega
    have hle := Int.ediv_le_of_le_mul hpos (not_lt.1 habove)
    have hnonneg := Int.ediv_nonneg (not_lt.1 hneg) hpos.le
    rw [f2u, Int.natCast_div, hmag]
    omega

theorem clampInt_le (hr : isNan r = false) (hd : d < 2 ^ 53) : clampInt d r ≤ d := by
  have := clampInt_eq hr hd
  omega

theorem clampInt_of_ge (hr : isNan r = false) (hd : d < 2 ^ 53) (h : (d : Int) * one1074 ≤ scaled r) :
    clampInt d r = d := by
  have := clampInt_eq hr hd
  have := (Int.le_ediv_iff_mul_le (by exact_mod_cast one1074_pos)).2 h
  omega

theorem clampInt_of_nonpos (hr : isNan r = false) (hd : d < 2 ^ 53) (h : scaled r ≤ 0) : clampInt d r = 0 := by
  have := clampInt_eq hr hd
  have := Int.ediv_le_ediv (by exact_mod_cast one1074_pos : (0 : Int) < one1074) h
  rw [Int.zero_ediv] at this
  omega

end

/-! ## The rescaled sample -/

section
variable {a b : Word} (ha : isNan a = false) (hb : isFinite b = true) (hpos : 0 < scaled b)
include ha hb hpos

/-- A number, infinities among them, divided by a finite positive one. -/
theorem fdiv_of_pos : fdiv a b = packF64 (signBit a)
    (if isInf a then infBits else roundMag (magUnits a * one1074) (magUnits b)) := by
  obtain ⟨hsign, hmag⟩ := magnitude_of_pos hpos
  have hne : magUnits b ≠ 0 := by omega
  simp [fdiv, ha, isNan_of_isFinite hb, isInf_of_isFinite hb, hne, hsign]

theorem isNan_fdiv_of_pos : isNan (fdiv a b) = false := by
  rw [fdiv_of_pos ha hb hpos, isNan_packF64]
  split
  · exact le_rfl
  · exact roundMag_le _ _

theorem signBit_fdiv_of_pos : signBit (fdiv a b) = signBit a := by
  rw [fdiv_of_pos ha hb hpos, signBit_packF64]
  split
  · exact infBits_lt
  · exact roundMag_lt _ _

/-- A quotient of `n` or more is rounded to `n` or more, `n` being an F64; an infinity over `b` is above every `n`. -/
theorem le_magUnits_fdiv_of_pos {n : Nat} (hn : n < 2 ^ 53) (h : isInf a = true ∨ n * magUnits b ≤ magUnits a) :
    n * one1074 ≤ magUnits (fdiv a b) := by
  obtain ⟨hfin, hmag⟩ := roundMag_nat hn
  rw [fdiv_of_pos ha hb hpos, ← hmag]
  split
  · rw [magUnits_packF64 _ _ infBits_lt]
    exact (magOfBits_strictMono hfin).le
  · rename_i hninf
    have hden : 0 < magUnits b := by have := (magnitude_of_pos hpos).2; omega
    have hle : n * magUnits b ≤ magUnits a := h.resolve_left hninf
    rw [magUnits_packF64 _ _ (roundMag_lt _ _)]
    refine magOfBits_mono (roundMag_ge _ _ _ hden hfin.le ?_)
    rw [hmag, Nat.mul_right_comm]
    exact Nat.mul_le_mul_right _ hle

end

section
variable {smax v : Word} {d : Nat} (hv : isFinite v = true) (hd : d < 2 ^ 32)
include hv hd

/-- The product with `d + 1`, exact but for one rounding. -/
theorem fmul_u2f_succ :
    fmul v (u2f (d + 1)) = packF64 (signBit v) (roundMag (magUnits v * (d + 1) * one1074) one1074) := by
  have hc : d + 1 < 2 ^ 53 := by omega
  rw [fmul_finite hv (isFinite_u2f hc), signBit_u2f, Bool.bne_false, magUnits_u2f hc, ← Nat.mul_assoc]

theorem isNan_fmul_u2f_succ : isNan (fmul v (u2f (d + 1))) = false := by
  rw [fmul_u2f_succ hv hd, isNan_packF64 _ _ (roundMag_le _ _)]

theorem signBit_fmul_u2f_succ : signBit (fmul v (u2f (d + 1))) = signBit v := by
  rw [fmul_u2f_succ hv hd, signBit_packF64 _ _ (roundMag_lt _ _)]

/-- The rounded product, unless it overflows, is at least `d` times the sample: it is exact in the lowest binades, and
elsewhere off by less than one part in `2^52`, which is less than the sample. -/
theorem le_magUnits_fmul_u2f_succ :
    isInf (fmul v (u2f (d + 1))) = true ∨ d * magUnits v ≤ magUnits (fmul v (u2f (d + 1))) := by
  rw [fmul_u2f_succ hv hd, isInf_iff, lowBits_packF64 _ _ (roundMag_lt _ _), magUnits_packF64 _ _ (roundMag_lt _ _)]
  refine (roundMag_le _ _).eq_or_lt.imp_right fun hfin => ?_
  obtain ⟨k, herr, hk⟩ := roundMag_lower _ _ one1074_pos hfin
  rw [← Nat.sub_mul, gt_iff_lt, Nat.mul_lt_mul_right one1074_pos] at herr
  have hproduct : magUnits v * (d + 1) = d * magUnits v + magUnits v := by ring
  rcases hk with rfl | hk
  · omega
  · have hlarge := Nat.le_of_mul_le_mul_right hk one1074_pos
    have hsmall : magUnits v * (d + 1) ≤ magUnits v * 2 ^ 52 := Nat.mul_le_mul_left _ (by omega)
    omega

variable (hsmax : isFinite smax = true) (hpos : 0 < scaled smax)
include hsmax hpos

theorem isNan_rescale : isNan (rescale smax d v) = false :=
  isNan_roundInt (isNan_fdiv_of_pos (isNan_fmul_u2f_succ hv hd) hsmax hpos)

theorem signBit_quotient : signBit (fdiv (fmul v (u2f (d + 1))) smax) = signBit v := by
  rw [signBit_fdiv_of_pos (isNan_fmul_u2f_succ hv hd) hsmax hpos, signBit_fmul_u2f_succ hv hd]

/-- A sample of `src_max` or more is rescaled to `d` or more. -/
theorem le_scaled_rescale (hge : scaled smax ≤ scaled v) : (d : Int) * one1074 ≤ scaled (rescale smax d v) := by
  obtain ⟨-, hmagmax⟩ := magnitude_of_pos hpos
  obtain ⟨hsign, hmag⟩ := magnitude_of_pos (hpos.trans_le hge)
  have hscale : d * magUnits smax ≤ d * magUnits v := Nat.mul_le_mul_left d (by omega)
  have hquotient := le_magUnits_fdiv_of_pos (n := d) (isNan_fmul_u2f_succ hv hd) hsmax hpos (by omega)
    ((le_magUnits_fmul_u2f_succ hv hd).imp_right hscale.trans)
  refine le_scaled_roundInt ?_
  rw [scaled_of_not_signBit ((signBit_quotient hv hd hsmax hpos).trans hsign)]
  exact_mod_cast hquotient

/-- A negative sample is rescaled to no more than 0. -/
theorem scaled_rescale_nonpos (hneg : scaled v < 0) : scaled (rescale smax d v) ≤ 0 :=
  scaled_roundInt_nonpos (scaled_nonpos_of_signBit
    ((signBit_quotient hv hd hsmax hpos).trans ((signBit_iff v).2 (.inl hneg))))

end

theorem normalized_toNat_le (smax v : Word) (d : Nat) :
    (normalized smax d v).toNat ≤ clampInt d (rescale smax d v) := by
  rw [normalized, BitVec.toNat_ofNat]
  exact Nat.mod_le _ _

/-- Settles O54: the rescaled sample is a number, `dst_max` or more in the first case and 0 or less in the second, and
the clamp brings it into `[0, dst_max]`. -/
theorem normalizeClamps : Obligations.NormalizeClamps := by
  intro smax v d hsmax hgt hdle hv
  have hpos : 0 < scaled smax := scaled_lt_of_flt hgt
  have hd : d < 2 ^ 32 := by omega
  have hd53 : d < 2 ^ 53 := by omega
  have hnum := isNan_rescale hv hd hsmax hpos
  refine ⟨fun hge => ?_, fun hneg => ?_, (normalized_toNat_le smax v d).trans (clampInt_le hnum hd53)⟩
  · rw [normalized, clampInt_of_ge hnum hd53 (le_scaled_rescale hv hd hsmax hpos (scaled_le_of_fle hge))]
  · rw [normalized, clampInt_of_nonpos hnum hd53 (scaled_rescale_nonpos hv hd hsmax hpos (scaled_lt_of_flt hneg))]

end Sys2Proof.Machine

/-! The checks of a command and the errors they raise (spec/60_exceptions.md R191, R193, R194, R196, R200): an accepted
command ends in the error of its first failing check, and only FIR_DECIMATE has a check that raises UnsupportedScale. -/

namespace Sys2Proof.Machine

/-! ## The first failing check -/

/-- R200: a check that fails while every one before it passes is the one that is raised. -/
theorem checked_of_getElem? {s : State} {checks : List (Bool × Reject)} {run : Result} {k : Nat} {b : Bool} {r : Reject}
    (hk : checks[k]? = some (b, r)) (hb : b = true) (hbefore : ∀ c ∈ checks.take k, c.1 = false) :
    checked s checks run = .next (raise r 0#64 s) := by
  obtain ⟨hlt, hget⟩ := List.getElem?_eq_some_iff.mp hk
  have hsplit : checks = checks.take k ++ (b, r) :: checks.drop (k + 1) := by
    rw [← hget, ← List.drop_eq_getElem_cons hlt, List.take_append_drop]
  rw [hsplit]
  exact checked_at s _ _ b r run hb hbefore

/-- R196, R200: a command written with ERR 0 whose first failing check is number `k`, reported against an operand
register, ends with that register's error and nothing else changed. -/
theorem issue_of_failed_check {s : State} {run : State → Result} {body : Result} (checks : List (Bool × Reject)) (k : Nat)
    {b : Bool} {e : ErrorCode} {r : Reg} (herr : s.status.err = false)
    (hrun : run (accept s) = checked (accept s) checks body) (hk : checks[k]? = some (b, rejectOperand e r s))
    (hb : b = true) (hbefore : ∀ c ∈ checks.take k, c.1 = false) :
    issue s run = .next (failedState s (errorCodeBits e) ((regNumber r).setWidth 8) (regGet s r)) := by
  rw [issue_of_ok s run herr, hrun, checked_of_getElem? hk hb hbefore]
  exact congrArg Host.Outcome.next (raise_accept s e _ _)

/-! ## InsufficientSamples (R194) -/

section
variable {s : State} (herr : s.status.err = false)
include herr

theorem exec_apply_of_empty (hcoeffs : coeffsFinite s.coeffs = true) (hslen : slenOf s = 0) :
    exec .bqApply s = .next (failedState s 3#4 0x04#8 s.ops.slen) := by
  refine issue_of_failed_check (applyChecks s) 5 herr rfl rfl (beq_iff_eq.mpr hslen) ?_
  simp only [coeffsFinite, Bool.and_eq_true] at hcoeffs
  simp [applyChecks, hcoeffs]

theorem exec_decimate_of_empty (hscale : ScaleLegal s) (hslen : slenOf s = 0) :
    exec .firDecimate s = .next (failedState s 3#4 0x04#8 s.ops.slen) := by
  refine issue_of_failed_check (decimateChecks s) 1 herr rfl rfl (beq_iff_eq.mpr hslen) ?_
  simp [decimateChecks, (scaleSupported_iff s).mpr hscale]

theorem exec_decimate_of_short (hscale : ScaleLegal s) (hpos : slenOf s ≠ 0) (hone : 1 < scaleOf s)
    (htaps : slenOf s < (tapsOf s).length) : exec .firDecimate s = .next (failedState s 3#4 0x04#8 s.ops.slen) := by
  refine issue_of_failed_check (decimateChecks s) 2 herr rfl rfl ?_ ?_
  · exact Bool.and_eq_true_iff.mpr ⟨bne_iff_ne.mpr hone.ne', decide_eq_true htaps⟩
  · simp [decimateChecks, (scaleSupported_iff s).mpr hscale, hpos]

theorem exec_detect_of_short (hlegal : DetectLegal s) (hslen : slenOf s < frameNOf s) :
    exec .detect s = .next (failedState s 3#4 0x04#8 s.ops.slen) := by
  obtain ⟨hframe, hfslo, hfshi, hignore, hnonneg, hpeak⟩ := hlegal
  refine issue_of_failed_check (detectChecks s) 4 herr rfl rfl (decide_eq_true hslen) ?_
  simpa [detectChecks, (frameBad_eq_false_iff s).mpr hframe, hignore, hnonneg, hpeak] using
    And.intro (Nat.ne_of_gt hfslo) hfshi

theorem exec_spectrum_of_short (hlegal : FrameLegal s) (hslen : slenOf s < offsetOf s + frameNOf s) :
    exec .spectrum s = .next (failedState s 3#4 0x04#8 s.ops.slen) := by
  refine issue_of_failed_check (spectrumChecks s) 1 herr rfl rfl (decide_eq_true hslen) ?_
  simp [spectrumChecks, (frameBad_eq_false_iff s).mpr hlegal]

theorem exec_normalize_of_empty (hlegal : NormalizeLegal s) (hslen : slenOf s = 0) :
    exec .normalize s = .next (failedState s 3#4 0x04#8 s.ops.slen) := by
  obtain ⟨hfinite, hpos, hdst⟩ := hlegal
  refine issue_of_failed_check (normalizeChecks s) 2 herr rfl rfl (beq_iff_eq.mpr hslen) ?_
  simpa [normalizeChecks, hfinite, hpos] using hdst

end

/-- Settles O26: in each command the sample check comes right after the operand checks, which pass. -/
theorem shortSeriesRaiseInsufficientSamples : Obligations.ShortSeriesRaiseInsufficientSamples := by
  intro s herr
  refine ⟨exec_apply_of_empty herr, fun hscale hshort => ?_, exec_detect_of_short herr, exec_spectrum_of_short herr,
    exec_normalize_of_empty herr⟩
  by_cases hslen : slenOf s = 0
  · exact exec_decimate_of_empty herr hscale hslen
  · obtain ⟨hone, htaps⟩ := hshort.resolve_left hslen
    exact exec_decimate_of_short herr hscale hslen hone htaps

/-! ## UnsupportedScale (R193) -/

theorem exec_decimate_of_unsupported {s : State} (herr : s.status.err = false) (hscale : ¬ScaleLegal s) :
    exec .firDecimate s = .next (failedState s 2#4 0x07#8 s.ops.scale) := by
  refine issue_of_failed_check (decimateChecks s) 0 herr rfl rfl ?_ (fun _ hc => absurd hc List.not_mem_nil)
  rwa [Bool.not_eq_true', ← Bool.not_eq_true, scaleSupported_iff]

/-- R191: code 2 is UnsupportedScale's alone. -/
theorem errorCodeBits_eq_two_iff (e : ErrorCode) : errorCodeBits e = 2#4 ↔ e = .unsupportedScale := by
  cases e <;> decide

/-- Of all a command can do, only a failed scale check ends with code 2: a success leaves ERR at 0, and a malformed sample
has code 4. -/
theorem unsupportedScale_of_exec {i : Instr} {s t : State} (herr : s.status.err = false) (h : exec i s = .next t)
    (hterr : t.status.err = true) (hcode : t.status.errCode = 2#4) : i = .firDecimate ∧ ¬ScaleLegal s := by
  rcases exec_effect i s herr with ⟨e, hr, -, -, hfir⟩ | ⟨n, ws, g, c, hr, -⟩ | ⟨j, n, ws, g, hr, -⟩ | ⟨a, hr, -⟩
    <;> rw [hr] at h <;> cases h
  case inl =>
    obtain ⟨hi, hunsupported⟩ := hfir ((errorCodeBits_eq_two_iff e.error).mp hcode)
    rw [← scaleSupported_iff, hunsupported]
    exact ⟨hi, Bool.false_ne_true⟩
  case inr.inl => exact absurd (herr.symm.trans hterr) Bool.false_ne_true
  case inr.inr.inl => cases (errorCodeBits_eq_two_iff .malformedSample).mp hcode

/-- Settles O39: the scale check is FIR_DECIMATE's first, and no other outcome of a command has its code. -/
theorem onlyUnsupportedScalesRaiseUnsupportedScale : Obligations.OnlyUnsupportedScalesRaiseUnsupportedScale :=
  ⟨fun _ => exec_decimate_of_unsupported, fun _ _ _ => unsupportedScale_of_exec⟩

end Sys2Proof.Machine

/-! The write-one-to-clear register (spec/60_exceptions.md R201): what a write of `STATUS` leaves, bit by bit, and the
registers the port only reads (spec/10_state.md R22, R24, R28). -/

namespace Sys2Proof.Machine

@[simp] theorem regOfNumber_regNumber (r : Reg) : regOfNumber (regNumber r) = some r := by
  cases r <;> rfl

/-- A host write of a named register other than `CMD` is `regPut`. -/
theorem perform_regWrite_of_ne_cmd {r : Reg} (v : Word) (s : State) (hr : r ≠ .cmd) :
    perform (.regWrite (regNumber r) v) s = .next (regPut r v s) := by
  simp only [perform, hostRegWrite, regOfNumber_regNumber, if_neg hr]

theorem regRead_regNumber (s : State) (r : Reg) : regRead s (regNumber r) = regGet s r := by
  simp only [regRead, regOfNumber_regNumber]

/-- Bit 0 of a write of `STATUS` reaches DONE and nothing else. -/
theorem writeStatusDone_eq (v : Word) (s : State) :
    writeStatusDone v s = { s with status := { s.status with done := s.status.done && !v.getLsbD 0 } } := by
  rw [writeStatusDone]
  cases v.getLsbD 0 <;> simp [clearDone]

/-- Bit 1 of a write of `STATUS` reaches the error record and nothing else. -/
theorem writeStatusErr_eq (v : Word) (s : State) :
    writeStatusErr v s = { s with
      status :=
        { s.status with
          err := s.status.err && !v.getLsbD 1
          incomplete := s.status.incomplete && !v.getLsbD 1
          errCode := if v.getLsbD 1 then 0#4 else s.status.errCode
          errReg := if v.getLsbD 1 then 0#8 else s.status.errReg }
      errinfo := if v.getLsbD 1 then 0#64 else s.errinfo } := by
  rw [writeStatusErr]
  cases v.getLsbD 1 <;> simp [clearError]

/-- Settles O7: the two bits clear disjoint parts of the record, so the writes of both compose; `ERRINFO` and `DLEN` are
named registers that `regPut` leaves alone, and `CMD` stores nothing. -/
theorem statusClearsByWritingOne : Obligations.StatusClearsByWritingOne := by
  intro s v
  refine ⟨(perform_regWrite_of_ne_cmd (r := .status) v s (by decide)).trans (congrArg Host.Outcome.next ?_),
    perform_regWrite_of_ne_cmd (r := .errinfo) v s (by decide), perform_regWrite_of_ne_cmd (r := .dlen) v s (by decide),
    regRead_regNumber s .cmd⟩
  rw [regPut, writeStatus, writeStatusDone_eq, writeStatusErr_eq]

end Sys2Proof.Machine

/-! The reset (spec/70_reset_and_hazards.md R221): what each register number reads after `rst`, whatever stood before. The
state after power-up is its own reset, so the same values stand there. -/

namespace Sys2Proof.Machine

/-- A number that names a register of R20 is that register's number. -/
theorem eq_regNumber_of_regOfNumber {n : BitVec 5} {r : Reg} (hn : regOfNumber n = some r) : n = regNumber r := by
  revert n r
  decide +kernel

/-- R20's three registers whose reset value is not 0 are named ones, so a reserved number is none of them. -/
theorem ne_of_unnamed {n : BitVec 5} (hn : regOfNumber n = none) : n ≠ 0x09#5 ∧ n ≠ 0x0B#5 ∧ n ≠ 0x0C#5 := by
  revert n
  decide

/-- R23, R47: the cleared `STATUS` reads as the word 0. -/
@[simp] theorem statusWord_clear : statusWord Status.clear = 0#64 := rfl

/-- The last column of R20's table: a named register's value after a reset. -/
theorem regGet_applyReset (s : State) (r : Reg) :
    regGet (applyReset s) r = if r = .frameN then 1024#64 else if r = .ignoreHz then 0x407F400000000000#64
      else if r = .minPeak then s.cfg.minPeakReset else 0#64 := by
  cases r with
  | status => exact statusWord_clear
  | _ => rfl

/-- R47, with the reserved numbers of R40. -/
theorem regRead_applyReset (s : State) (n : BitVec 5) :
    regRead (applyReset s) n = if n = 0x09#5 then 1024#64 else if n = 0x0B#5 then 0x407F400000000000#64
      else if n = 0x0C#5 then s.cfg.minPeakReset else 0#64 := by
  cases hn : regOfNumber n with
  | none =>
    obtain ⟨hframe, hignore, hpeak⟩ := ne_of_unnamed hn
    rw [regRead_of_unnamed _ hn, if_neg hframe, if_neg hignore, if_neg hpeak]
  | some r =>
    obtain rfl := eq_regNumber_of_regOfNumber hn
    rw [regRead_regNumber, regGet_applyReset]
    cases r <;> rfl

/-- R47, R221: power-up already loads the values that `rst` would load. -/
theorem applyReset_ofBuild (b : Config.Build) : applyReset (State.ofBuild b) = State.ofBuild b := rfl

/-- Settles O9: what a register number reads after `rst` depends only on the build, and the power-up state is the reset
of itself. -/
theorem resetLoadsResetValues : Obligations.ResetLoadsResetValues := by
  refine ⟨fun s => ⟨applyReset s, rfl, applyReset_mem s, applyReset_cfg s, regRead_applyReset s⟩, ?_⟩
  have hreset : applyReset State.reset = State.reset := applyReset_ofBuild _
  exact hreset ▸ regRead_applyReset State.reset

end Sys2Proof.Machine

/-! The decoder and the encoder (spec/30_encoding.md R80, R82, R83): the opcode map is one to one, so a word spells a
command exactly when it is that command's encoding; and the step that runs it (R86). -/

namespace Sys2Proof.Machine

/-! ## Round trip -/

/-- R83: the opcode of a command selects it, and no other opcode does. -/
theorem instrOfOpcode_eq_some_iff (n : Nat) (i : Instr) : instrOfOpcode n = some i ↔ n = i.opcode := by
  constructor
  · intro h
    match n with
    | 0 => cases h
    | 1 | 2 | 3 | 4 | 5 | 6 | 7 | 8 => cases h; rfl
    | n + 9 => cases h
  · rintro rfl
    cases i <;> rfl

theorem opcode_lt (i : Instr) : i.opcode < 2 ^ 8 := by cases i <;> decide

/-- R80: the encoded word is the opcode, with a zero reserved field. -/
theorem eq_encode_iff (w : Word) (i : Instr) : w = encode i ↔ w.toNat = i.opcode := by
  have hlt := opcode_lt i
  rw [encode, ← BitVec.toNat_inj, BitVec.toNat_ofNat, Nat.mod_eq_of_lt (by omega)]

/-- Settles O1: the reserved field is zero and the opcode is the command's, which fixes the whole word. -/
theorem decodeAndEncodeAgree : Obligations.DecodeAndEncodeAgree := by
  intro i _ w
  have hlt := opcode_lt i
  rw [eq_encode_iff]
  by_cases hrsvd : w.toNat / 2 ^ 8 = 0
  · rw [decode_of_rsvd_zero hrsvd, instrOfOpcode_eq_some_iff]
    omega
  · rw [decode_of_rsvd_ne_zero hrsvd]
    exact iff_of_false (by simp) (by omega)

/-- R82, R83: a command's encoded word decodes to it. -/
theorem decode_encode (i : Instr) : decode (encode i) = some i := (decodeAndEncodeAgree i rfl _).2 rfl

/-- Settles O3: each of the eight words is an encoding; of the other two one has opcode 0, one a reserved bit set. -/
theorem writtenOutWordsDecode : Obligations.WrittenOutWordsDecode := by
  refine ⟨decode_encode .bqDesignLp, decode_encode .bqDesignHp, decode_encode .bqApply, decode_encode .firDecimate,
    decode_encode .genRange, decode_encode .detect, decode_encode .spectrum, decode_encode .normalize, ?_, ?_⟩
  · exact (decode_eq_none_iff _).2 (.inr (.inl rfl))
  · exact (decode_eq_none_iff _).2 (.inl (by decide))

/-! ## The step of a command -/

theorem step_of_empty {s : State} (h : s.inbox = []) : step s = .next s := by
  simp only [step, h]

/-- Settles O4: a step performs the head of the queue, and a write of `CMD` runs what its word decodes to. -/
theorem stepRunsTheDecodedCommand : Obligations.StepRunsTheDecodedCommand := by
  refine ⟨fun s op rest hbox => step_pending hbox, fun s hempty => step_of_empty hempty, fun w => rfl,
    fun s w rest i hbox hdecode _ => ?_⟩
  rw [step_pending hbox, perform_commandWrite, command_of_decode_some _ hdecode]

end Sys2Proof.Machine

/-! The invariant (spec/10_state.md R23, R24, R44; spec/20_memory.md R60, R61; spec/60_exceptions.md R191, R205): it holds
after reset, and every transaction keeps it. -/

namespace Sys2Proof.Machine

/-! ## The flags and the error record -/

/-- The rules of the record speak of `STATUS`, `ERRINFO` and `DLEN` alone. -/
theorem statusOk_congr {s t : State} (h : StatusOk s) (hstatus : t.status = s.status) (hinfo : t.errinfo = s.errinfo)
    (hdlen : t.dlen = s.dlen) : StatusOk t := by
  refine ⟨?_, ?_, ?_⟩ <;> simp only [hstatus, hinfo, hdlen]
  · exact h.doneOrErr
  · exact h.quiet
  · exact h.record

/-- R191: the error codes are 1 to 7. -/
theorem errorCodeBits_bounds (e : ErrorCode) : 1 ≤ (errorCodeBits e).toNat ∧ (errorCodeBits e).toNat ≤ 7 := by
  cases e <;> decide

/-- R196: an error leaves a consistent record whatever stood before. -/
theorem statusOk_raise (r : Reject) (kept : Word) (s : State) : StatusOk (raise r kept s) := by
  obtain ⟨hlo, hhi⟩ := errorCodeBits_bounds r.error
  exact ⟨by simp, by simp, fun _ => ⟨hlo, hhi, by simp⟩⟩

/-- R86: a success of an accepted command leaves DONE over an empty record. -/
theorem statusOk_complete {s t : State} (n : Nat) (h : StatusOk s) (herr : s.status.err = false)
    (hstatus : t.status = beginFlags s.status) (hinfo : t.errinfo = s.errinfo) : StatusOk (complete n t) := by
  obtain ⟨-, hcode, hreg, hquiet⟩ := h.quiet herr
  refine ⟨?_, fun _ => ?_, ?_⟩ <;>
    simp only [complete_status, complete_errinfo, successFlags_err, successFlags_incomplete, successFlags_errCode,
      successFlags_errReg, hstatus, hinfo, beginFlags_err, beginFlags_incomplete, beginFlags_errCode, beginFlags_errReg]
  · simp [herr]
  · exact ⟨trivial, hcode, hreg, hquiet⟩
  · simp [herr]

theorem statusOk_writeStatusDone {s : State} (v : Word) (h : StatusOk s) : StatusOk (writeStatusDone v s) := by
  rw [writeStatusDone_eq]
  exact ⟨fun hboth => h.doneOrErr ⟨(Bool.and_eq_true_iff.1 hboth.1).1, hboth.2⟩, h.quiet, h.record⟩

/-- R201: the write of 1 to ERR clears the whole record with it. -/
theorem statusOk_writeStatusErr {s : State} (v : Word) (h : StatusOk s) : StatusOk (writeStatusErr v s) := by
  unfold writeStatusErr
  split
  · exact ⟨by simp [clearError], by simp [clearError], by simp [clearError]⟩
  · exact h

theorem statusOk_regPut {s : State} (r : Reg) (v : Word) (h : StatusOk s) : StatusOk (regPut r v s) := by
  cases r with
  | status => exact statusOk_writeStatusErr v (statusOk_writeStatusDone v h)
  | _ => exact statusOk_congr h rfl rfl rfl

theorem statusOk_clear {s : State} (hstatus : s.status = Status.clear) (hinfo : s.errinfo = 0#64) : StatusOk s := by
  refine ⟨?_, ?_, ?_⟩ <;> simp only [hstatus, hinfo]
  · decide
  · decide
  · exact fun h => absurd h (by decide)

/-! ## The count in `DLEN` -/

theorem toNat_ofNat_le {n m : Nat} (h : n ≤ m) : (BitVec.ofNat 64 n).toNat ≤ m := by
  rw [BitVec.toNat_ofNat]
  exact (Nat.mod_le _ _).trans h

/-! ## What keeps the invariant -/

section
variable {s t : State} (h : Inv s)
include h

/-- A change outside `STATUS`, `ERRINFO`, `DLEN`, data memory, the hidden state and the build keeps the invariant. -/
theorem inv_congr (hstatus : t.status = s.status) (hinfo : t.errinfo = s.errinfo) (hdlen : t.dlen = s.dlen)
    (hmem : t.mem = s.mem) (hhidden : t.hidden = s.hidden) (hcfg : t.cfg = s.cfg) : Inv t := by
  refine ⟨?_, statusOk_congr h.status hstatus hinfo hdlen, ?_, ?_, ?_⟩ <;> simp only [hdlen, hmem, hhidden, hcfg]
  · exact h.build
  · exact h.memory
  · exact h.buffers
  · exact h.count

theorem inv_regPut (r : Reg) (v : Word) : Inv (regPut r v s) := by
  refine ⟨?_, statusOk_regPut r v h.status, ?_, ?_, ?_⟩ <;>
    simp only [regPut_cfg, regPut_mem, regPut_hidden, regPut_dlen]
  · exact h.build
  · exact h.memory
  · exact h.buffers
  · exact h.count

theorem inv_applyReset : Inv (applyReset s) :=
  ⟨h.build, statusOk_clear rfl rfl, h.memory, h.buffers, Nat.zero_le _⟩

theorem inv_writeWord {a : Nat} (v : Word) (ha : a < s.cfg.memWords) : Inv { s with mem := writeWord s.mem a v } :=
  ⟨h.build, statusOk_congr h.status rfl rfl rfl, memoryOk_writeWord a v ha h.memory, h.buffers, h.count⟩

/-- An error with nothing kept, raised on the accepted state. -/
theorem inv_raise_accept (e : Reject) : Inv (raise e 0#64 (accept s)) :=
  ⟨h.build, statusOk_raise _ _ _, h.memory, h.buffers, Nat.zero_le _⟩

/-- Each of the outcomes of a command keeps the invariant: the result words end inside `MEM_WORDS`, and the count of
results is no more than that. -/
theorem inv_exec {i : Instr} (hexec : exec i s = .next t) : Inv t := by
  cases herr : s.status.err with
  | true =>
    rw [exec_of_err i s herr] at hexec
    cases hexec
    exact h
  | false =>
    rcases exec_effect i s herr with ⟨e, hr, -⟩ | ⟨n, ws, g, c, hr, -, hroom, hn, -, hbuf⟩
      | ⟨j, n, ws, g, hr, -, hroom, hn, -, -, -, hbuf⟩ | ⟨a, hr, -⟩ <;> rw [hr] at hexec <;> cases hexec
    · exact inv_raise_accept h e
    · exact ⟨h.build, statusOk_complete n h.status herr rfl rfl, memoryOk_writeWords _ ws hroom h.memory,
        hbuf h.buffers, toNat_ofNat_le hn⟩
    · exact ⟨h.build, statusOk_raise _ _ _, memoryOk_writeWords _ ws hroom h.memory, hbuf h.buffers, toNat_ofNat_le hn⟩

theorem inv_perform {op : HostOp} (hperform : perform op s = .next t) : Inv t := by
  rcases perform_inv hperform with ⟨_, -, rfl⟩ | ⟨_, _, -, rfl⟩ | ⟨a, v, -, ha, rfl⟩ | ⟨-, rfl⟩ | ⟨_, _, -, -, rfl⟩
    | ⟨q, v, -, -, rfl⟩ | ⟨w, -, -, ⟨-, rfl⟩ | ⟨-, rfl⟩⟩ | ⟨_, _, -, -, hexec⟩
  · exact inv_congr h rfl rfl rfl rfl rfl rfl
  · exact inv_congr h rfl rfl rfl rfl rfl rfl
  · exact inv_writeWord h v ha
  · exact inv_applyReset h
  · exact h
  · exact inv_regPut h q v
  · exact h
  · exact inv_raise_accept h (rejectCommand w)
  · exact inv_exec h hexec

end

/-- Settles O22: a step performs one transaction, and each kind of transaction keeps the invariant. -/
theorem stepKeepsTheInvariant : Obligations.StepKeepsTheInvariant := by
  intro s t h hstep
  rcases step_inv hstep with ⟨-, rfl⟩ | ⟨op, rest, -, hperform⟩
  · exact h
  · have hrest : Inv { s with inbox := rest } := inv_congr h rfl rfl rfl rfl rfl rfl
    exact inv_perform hrest hperform

/-- Settles O21: the power-up state has a legal build, a clear record, no written byte and empty buffers. -/
theorem resetMeetsTheInvariant : Obligations.ResetMeetsTheInvariant :=
  ⟨theBuild.ok, statusOk_clear rfl rfl, ⟨rfl, fun _ _ => rfl, fun _ _ _ => rfl⟩,
    ⟨Nat.zero_le _, Nat.zero_le _, Nat.zero_le _, Nat.zero_le _⟩, Nat.zero_le _⟩

end Sys2Proof.Machine

/-! Commands in general (spec/30_encoding.md R86; spec/60_exceptions.md R191, R195, R196, R205; spec/10_state.md R37): how
a command ends, what it marks, and what it leaves alone. Each is read off `exec_effect`, the outcomes of a command. -/

namespace Sys2Proof.Machine

/-! ## How a command ends -/

/-- Settles O18: with ERR set a command does nothing; of the outcomes of an accepted one, only a word without a value stops
it. -/
theorem everyCommandEnds : Obligations.EveryCommandEnds := by
  intro i s
  cases herr : s.status.err with
  | true => exact .inl ⟨s, exec_of_err i s herr⟩
  | false =>
    rcases exec_effect i s herr with ⟨e, hr, -⟩ | ⟨n, ws, g, c, hr, -⟩ | ⟨j, n, ws, g, hr, -⟩
      | ⟨a, hr, hlo, hhi, hnone, hi⟩
    · exact .inl ⟨_, hr⟩
    · exact .inl ⟨_, hr⟩
    · exact .inl ⟨_, hr⟩
    · refine .inr ⟨a, hr, hnone, hlo, hhi, ?_⟩
      rcases hi with rfl | rfl | rfl | rfl | rfl <;> simp

/-- R191: only IllegalCommand has code 7. -/
theorem errorCodeBits_le_six {e : ErrorCode} (h : e ≠ .illegalCommand) : (errorCodeBits e).toNat ≤ 6 := by
  revert h
  cases e <;> decide

/-- R23: a success over an empty error record reads as `STATUS = 1`. -/
theorem statusWord_success {f : Status} (herr : f.err = false) (hcode : f.errCode = 0#4) (hreg : f.errReg = 0#8) :
    statusWord (successFlags (beginFlags f)) = 1#64 := by
  simp only [statusWord, successFlags_done, successFlags_err, successFlags_incomplete, successFlags_errCode,
    successFlags_errReg, beginFlags_err, beginFlags_incomplete, beginFlags_errCode, beginFlags_errReg, herr, hcode, hreg]
  decide

/-- Settles O19: a success sets DONE over the empty record that ERR 0 implies; every error clears DONE. -/
theorem commandsEndInDoneOrErr : Obligations.CommandsEndInDoneOrErr := by
  intro i s t hok herr hexec
  obtain ⟨-, hcode, hreg, hinfo⟩ := hok.quiet herr
  rcases exec_effect i s herr with ⟨e, hr, -, hlegal, -⟩ | ⟨n, ws, g, c, hr, -⟩ | ⟨j, n, ws, g, hr, -⟩ | ⟨a, hr, -⟩ <;>
    rw [hr] at hexec <;> cases hexec
  · exact .inr ⟨rfl, rfl, (errorCodeBits_bounds e.error).1, errorCodeBits_le_six hlegal⟩
  · exact .inl ⟨rfl, herr, statusWord_success herr hcode hreg, hinfo⟩
  · exact .inr ⟨rfl, rfl, (errorCodeBits_bounds .malformedSample).1, errorCodeBits_le_six (e := .malformedSample) (by decide)⟩

/-! ## Partial results -/

/-- R191: code 4 is MalformedSample's alone. -/
theorem errorCodeBits_eq_four_iff (e : ErrorCode) : errorCodeBits e = 4#4 ↔ e = .malformedSample := by
  cases e <;> decide

/-- R196: INCOMPLETE says whether results were kept. -/
theorem incomplete_raise (r : Reject) (kept : Word) (s : State) :
    (raise r kept s).status.incomplete = true ↔ (raise r kept s).dlen ≠ 0#64 := by simp

/-- Settles O20: a failed check keeps nothing and is no MalformedSample; a malformed sample carries its index, which is
below `SLEN` and so is kept by `ERRINFO`'s 64 bits. -/
theorem partialResultsAreMarked : Obligations.PartialResultsAreMarked := by
  intro i s t _ herr hexec hterr
  rcases exec_effect i s herr with ⟨e, hr, hmal, -⟩ | ⟨n, ws, g, c, hr, -⟩
    | ⟨j, n, ws, g, hr, -, -, -, hj, hsample, hi, -⟩ | ⟨a, hr, -⟩ <;> rw [hr] at hexec <;> cases hexec
  · refine ⟨incomplete_raise _ _ _, fun hdlen => absurd rfl hdlen, fun hcode => ?_⟩
    exact absurd ((errorCodeBits_eq_four_iff _).1 hcode) hmal
  · exact absurd (herr.symm.trans hterr) Bool.false_ne_true
  · have hindex : (BitVec.ofNat 64 j).toNat = j := by
      have : slenOf s < 2 ^ 64 := s.ops.slen.isLt
      rw [BitVec.toNat_ofNat, Nat.mod_eq_of_lt (by omega)]
    refine ⟨incomplete_raise _ _ _, fun hdlen => ⟨rfl, ?_⟩, fun _ => ⟨rfl, ?_, ?_, ?_⟩⟩
    · rintro rfl
      obtain ⟨-, rfl⟩ : Instr.spectrum = .spectrum ∧ n = 0 := by simpa using hi
      exact hdlen rfl
    · exact hindex.trans_lt hj
    · exact hindex.symm ▸ hsample
    · rintro rfl
      simpa using hi

/-! ## What a command leaves alone -/

/-- Settles O14: what a command does to data memory is one write of its result words. -/
theorem commandWritesOnlyItsResultRegion : Obligations.CommandWritesOnlyItsResultRegion := by
  intro i s t hbuild herr hexec
  obtain ⟨ws, hmem, hlen⟩ := exec_mem_writeWords hbuild herr hexec
  exact hmem ▸ same_writeWords s.mem (dstOf s) _ ws hlen

/-! ## What changes a coefficient register -/

/-- The value of a coefficient register is a function of the coefficient tuple alone. -/
theorem regGet_eq_of_coeffs_eq {s t : State} {r : Reg} (hr : isCoeffReg r = true) (h : t.coeffs = s.coeffs) :
    regGet t r = regGet s r := by
  cases r with
  | b0 | b1 | b2 | a1 | a2 => simp only [regGet, h]
  | _ => exact absurd hr (by decide)

@[simp] theorem writeStatus_coeffs (v : Word) (s : State) : (writeStatus v s).coeffs = s.coeffs := by
  simp only [writeStatus, writeStatusErr, writeStatusDone]
  split <;> split <;> rfl

/-- A host write of another register leaves a coefficient register alone. -/
theorem regGet_coeff_regPut_of_ne {q r : Reg} (v : Word) (s : State) (hr : isCoeffReg r = true) (hne : r ≠ q) :
    regGet (regPut q v s) r = regGet s r := by
  cases q with
  | status => exact regGet_eq_of_coeffs_eq hr (writeStatus_coeffs v s)
  | _ => cases r <;> trivial

/-- R37, R102: the only outcome of a command that writes coefficients is a design that ends with DONE. -/
theorem exec_coeffs_cases {i : Instr} {s t : State} (h : exec i s = .next t) :
    t.coeffs = s.coeffs ∨ ((i = .bqDesignLp ∨ i = .bqDesignHp) ∧ s.status.err = false ∧ t.status.done = true) := by
  cases herr : s.status.err with
  | true =>
    rw [exec_of_err i s herr] at h
    cases h
    exact .inl rfl
  | false =>
    rcases exec_effect i s herr with ⟨e, hr, -⟩ | ⟨n, ws, g, c, hr, -, -, -, hc, -⟩ | ⟨j, n, ws, g, hr, -⟩ | ⟨a, hr, -⟩ <;>
      rw [hr] at h <;> cases h
    · exact .inl rfl
    · rcases hc with rfl | ⟨rfl, -⟩ | ⟨rfl, -⟩
      · exact .inl rfl
      · exact .inr ⟨.inl rfl, rfl, rfl⟩
      · exact .inr ⟨.inr rfl, rfl, rfl⟩
    · exact .inl rfl

/-- What a transaction can do to the coefficient tuple: a register write, the reset and a command reach it. -/
theorem perform_coeffs_cases {op : HostOp} {s t : State} (h : perform op s = .next t) :
    t.coeffs = s.coeffs ∨ op = .rst ∨ (∃ q v, op = .regWrite (regNumber q) v ∧ t = regPut q v s)
      ∨ ∃ w i, op = commandWrite w ∧ decode w = some i ∧ exec i s = .next t := by
  rcases perform_inv h with ⟨_, -, rfl⟩ | ⟨_, _, -, rfl⟩ | ⟨_, _, -, -, rfl⟩ | ⟨hop, -⟩ | ⟨_, _, -, -, rfl⟩
    | ⟨q, v, hop, -, ht⟩ | ⟨_, -, -, ⟨-, rfl⟩ | ⟨-, rfl⟩⟩ | hcommand
  · exact .inl rfl
  · exact .inl rfl
  · exact .inl rfl
  · exact .inr (.inl hop)
  · exact .inl rfl
  · exact .inr (.inr (.inl ⟨q, v, hop, ht⟩))
  · exact .inl rfl
  · exact .inl rfl
  · exact .inr (.inr (.inr hcommand))

/-- Settles O17: a step is one transaction, and of the three kinds that reach the tuple a register write changes its own
register only and a command changes it only as a design that ends with DONE. -/
theorem onlyDesignsAndTheHostWriteCoefficients : Obligations.OnlyDesignsAndTheHostWriteCoefficients := by
  intro s t r hr hstep hne
  rcases step_inv hstep with ⟨-, rfl⟩ | ⟨op, rest, hbox, hperform⟩
  · exact absurd rfl hne
  · have hbase : regGet { s with inbox := rest } r = regGet s r := regGet_eq_of_coeffs_eq hr rfl
    rw [← hbase] at hne
    rcases perform_coeffs_cases hperform with hsame | rfl | ⟨q, v, rfl, rfl⟩ | ⟨w, i, rfl, hdecode, hexec⟩
    · exact absurd (regGet_eq_of_coeffs_eq hr hsame) hne
    · exact .inr (.inl ⟨rest, hbox⟩)
    · by_cases hq : r = q
      · exact .inl ⟨v, rest, hq ▸ hbox⟩
      · exact absurd (regGet_coeff_regPut_of_ne v _ hr hq) hne
    · rcases exec_coeffs_cases hexec with hsame | ⟨hi, herr, hdone⟩
      · exact absurd (regGet_eq_of_coeffs_eq hr hsame) hne
      · refine .inr (.inr ⟨w, rest, hbox, ?_, herr, hdone⟩)
        rcases hi with rfl | rfl
        · exact .inl hdecode
        · exact .inr hdecode

end Sys2Proof.Machine

/-! The ports (spec/10_state.md R20, R23; spec/20_memory.md R61, R62, R64, R70): what a read of a register or of a word
answers after a write, the layout of `STATUS`, and the host's scripted lines (spec/30_encoding.md R89), which are register writes. -/

namespace Sys2Proof.Machine

/-! ## Register writes and reads -/

/-- R20: a written register holds the written word. -/
theorem regGet_regPut_same {r : Reg} (v : Word) (s : State) (hr : isOperandReg r = true ∨ isCoeffReg r = true) :
    regGet (regPut r v s) r = v := by
  cases r with
  | cmd | status | errinfo | dlen => exact absurd hr (by decide)
  | _ => rfl

/-- A host write of an operand or a coefficient register reaches nothing outside the two groups. -/
theorem regPut_eq_of_operand_or_coeff {r : Reg} (v : Word) (s : State)
    (hr : isOperandReg r = true ∨ isCoeffReg r = true) :
    regPut r v s = { s with ops := (regPut r v s).ops, coeffs := (regPut r v s).coeffs } := by
  cases r with
  | cmd | status | errinfo | dlen => exact absurd hr (by decide)
  | _ => rfl

/-- The registers that are neither operands nor coefficients read the same under other operands and coefficients. -/
theorem regGet_with_ops_coeffs {q : Reg} (s : State) (o : OperandRegs) (k : Coeffs)
    (ho : isOperandReg q = false) (hk : isCoeffReg q = false) :
    regGet { s with ops := o, coeffs := k } q = regGet s q := by
  cases q with
  | cmd | status | errinfo | dlen => rfl
  | b0 | b1 | b2 | a1 | a2 => exact absurd hk (by decide)
  | _ => exact absurd ho (by decide)

/-- A host write of an operand or a coefficient register leaves every other register alone. -/
theorem regGet_regPut_other {q r : Reg} (v : Word) (s : State) (hr : isOperandReg r = true ∨ isCoeffReg r = true)
    (hne : q ≠ r) : regGet (regPut r v s) q = regGet s q := by
  cases ho : isOperandReg q with
  | true => exact regGet_regPut_of_ne v s ho hne
  | false =>
    cases hk : isCoeffReg q with
    | true => exact regGet_coeff_regPut_of_ne v s hk hne
    | false =>
      rw [regPut_eq_of_operand_or_coeff v s hr]
      exact regGet_with_ops_coeffs s _ _ ho hk

theorem ne_cmd_of_operand_or_coeff {r : Reg} (hr : isOperandReg r = true ∨ isCoeffReg r = true) : r ≠ .cmd := by
  rintro rfl
  exact absurd hr (by decide)

/-- Settles O5: the map of R20 holds number by number, and a write of one register is read back there and nowhere else. -/
theorem writtenRegisterReadsBack : Obligations.WrittenRegisterReadsBack := by
  refine ⟨fun s n => rfl, fun s => ?_, fun s v => ?_, fun s r v hr => ?_⟩
  · and_intros <;> rfl
  · and_intros <;> rfl
  · have hread : regRead (regPut r v s) (regNumber r) = v := by rw [regRead_regNumber, regGet_regPut_same v s hr]
    refine ⟨regPut r v s, perform_regWrite_of_ne_cmd v s (ne_cmd_of_operand_or_coeff hr), hread, ?_, fun n hn => ?_,
      regPut_eq_of_operand_or_coeff v s hr⟩
    · rw [perform, hostRegRead, hread]
    · cases hq : regOfNumber n with
      | none => rw [regRead_of_unnamed _ hq, regRead_of_unnamed _ hq]
      | some q =>
        obtain rfl := eq_regNumber_of_regOfNumber hq
        rw [regRead_regNumber, regRead_regNumber, regGet_regPut_other v s hr fun heq => hn (congrArg regNumber heq)]

/-! ## The layout of `STATUS` -/

/-- R23: every bit of the `STATUS` word, from the fields of the register. -/
theorem getLsbD_statusWord (f : Status) (k : Nat) :
    (statusWord f).getLsbD k =
      if k = 0 then f.done else if k = 1 then f.err else if k = 2 then f.incomplete
      else if k < 8 then false else if k < 12 then f.errCode.getLsbD (k - 8)
      else if k < 16 then false else if k < 24 then f.errReg.getLsbD (k - 16) else false := by
  simp only [statusWord, flagBit, BitVec.getLsbD_append]
  rcases Nat.lt_or_ge k 24 with hk | hk
  · interval_cases k <;> simp
  · simp (disch := omega) only [if_neg, BitVec.getLsbD_zero]

theorem extractLsb'_statusWord_errCode (f : Status) : (statusWord f).extractLsb' 8 4 = f.errCode := by
  rw [statusWord, BitVec.extractLsb'_append_eq_of_le (by decide), BitVec.extractLsb'_append_eq_of_le (by decide),
    BitVec.extractLsb'_append_eq_of_le (by decide), BitVec.extractLsb'_append_eq_of_le (by decide)]
  exact BitVec.extractLsb'_append_eq_right

theorem extractLsb'_statusWord_errReg (f : Status) : (statusWord f).extractLsb' 16 8 = f.errReg := by
  rw [statusWord, BitVec.extractLsb'_append_eq_of_le (by decide), BitVec.extractLsb'_append_eq_of_le (by decide),
    BitVec.extractLsb'_append_eq_of_le (by decide), BitVec.extractLsb'_append_eq_of_le (by decide),
    BitVec.extractLsb'_append_eq_of_le (by decide), BitVec.extractLsb'_append_eq_of_le (by decide)]
  exact BitVec.extractLsb'_append_eq_right

/-- Settles O8: each clause of R23 is `getLsbD_statusWord` at the bits it names. -/
theorem statusWordLayout : Obligations.StatusWordLayout := by
  intro s
  have hread : regRead s 0x01#5 = statusWord s.status := regRead_regNumber s .status
  rw [hread]
  refine ⟨getLsbD_statusWord _ 0, getLsbD_statusWord _ 1, getLsbD_statusWord _ 2, ?_, ?_, fun k hk => ?_⟩
  · exact extractLsb'_statusWord_errCode _
  · exact extractLsb'_statusWord_errReg _
  · rw [getLsbD_statusWord]
    rcases hk with hk | hk | hk <;> simp (disch := omega) only [if_neg, if_pos]

/-! ## The memory port -/

/-- R62: byte `i` of a number, least significant first. -/
theorem getElem_toBytes (n v i : Nat) (hi : i < (toBytes n v).length) :
    (toBytes n v)[i] = BitVec.ofNat 8 (v / 2 ^ (8 * i)) := by
  induction n generalizing v i with
  | zero => exact absurd hi (by simp [toBytes])
  | succ n ih =>
    cases i with
    | zero => simp [toBytes]
    | succ i =>
      simp only [toBytes, List.getElem_cons_succ]
      rw [ih, Nat.div_div_eq_div_mul, ← pow_add, show 8 + 8 * i = 8 * (i + 1) by ring]

/-- R62: byte cell `8 * a + i` of a written word holds its bits `8 * i + 7` to `8 * i`. -/
theorem getByte_writeWord_eq (m : Memory) (a i : Nat) (v : Word) (hi : i < 8) :
    getByte (writeWord m a v) (8 * a + i) = some (v.extractLsb' (8 * i) 8) := by
  rw [writeWord, getByte_setBytes_in m (8 * a) i _ (by simpa using hi), getElem_toBytes]
  congr 1
  apply BitVec.eq_of_toNat_eq
  rw [BitVec.extractLsb'_toNat, BitVec.toNat_ofNat, Nat.shiftRight_eq_div_pow]

theorem hostMemRead_of_written {s : State} {a : Nat} {v : Word} (ha : a < s.cfg.memWords)
    (hread : readWord s.mem a = some v) : perform (.memRead a) s = .next { s with readData := some v } := by
  simp only [perform, hostMemRead, if_pos ha, hread]

/-- Settles O11: the write is one `writeWord`, whose laws give the read, the bytes and the frame. -/
theorem memoryWriteReadsBack : Obligations.MemoryWriteReadsBack := by
  intro s a v ha
  refine ⟨{ s with mem := writeWord s.mem a v }, if_pos ha, rfl, ?_, fun i hi => getByte_writeWord_eq s.mem a i v hi, ?_⟩
  · exact hostMemRead_of_written ha (readWord_writeWord_same s.mem a v)
  · exact same_writeWords s.mem a 1 [v] rfl

/-- Settles O12: the port compares the address with `MEM_WORDS` first, then looks for the word. -/
theorem accessesWithoutAStepStop : Obligations.AccessesWithoutAStepStop := by
  intro s a v
  refine ⟨fun ha => ⟨if_neg (Nat.not_lt.2 ha), if_neg (Nat.not_lt.2 ha)⟩, fun ha hnone => ?_⟩
  simp only [perform, hostMemRead, if_pos ha, hnone]

/-! ## Lines of a host script -/

/-- Settles O60: each line of the script is a run of register writes, each of which is `regPut`, with the command at its end. -/
theorem macrosWriteOperandsThenIssue : Obligations.MacrosWriteOperandsThenIssue := by
  intro s rest a b c d e
  refine ⟨fun hbox => ?_, fun hbox => ?_, fun hbox => ?_, fun hbox => ?_, fun hbox => ?_, fun hbox => ?_,
    fun hbox => ?_, fun hbox => ?_, fun hbox => ?_, fun hbox => ?_, fun hbox => ?_⟩
  · rw [run_put 2 (by decide) hbox, run_put 1 (by decide) rfl, run_issue rfl]
    rfl
  · rw [run_put 2 (by decide) hbox, run_put 1 (by decide) rfl, run_issue rfl]
    rfl
  · rw [run_put 3 (by decide) hbox, run_put 2 (by decide) rfl, run_put 1 (by decide) rfl, run_issue rfl]
    rfl
  · rw [run_put 4 (by decide) hbox, run_put 3 (by decide) rfl, run_put 2 (by decide) rfl, run_put 1 (by decide) rfl,
      run_issue rfl]
    rfl
  · rw [run_put 4 (by decide) hbox, run_put 3 (by decide) rfl, run_put 2 (by decide) rfl, run_put 1 (by decide) rfl,
      run_issue rfl]
    rfl
  · rw [run_put 5 (by decide) hbox, run_put 4 (by decide) rfl, run_put 3 (by decide) rfl, run_put 2 (by decide) rfl,
      run_put 1 (by decide) rfl, run_issue rfl]
    rfl
  · rw [run_put 5 (by decide) hbox, run_put 4 (by decide) rfl, run_put 3 (by decide) rfl, run_put 2 (by decide) rfl,
      run_put 1 (by decide) rfl, run_issue rfl]
    rfl
  · rw [run_put 5 (by decide) hbox, run_put 4 (by decide) rfl, run_put 3 (by decide) rfl, run_put 2 (by decide) rfl,
      run_put 1 (by decide) rfl, run_issue rfl]
    rfl
  · rw [run_put 4 (by decide) hbox, run_put 3 (by decide) rfl, run_put 2 (by decide) rfl, run_put 1 (by decide) rfl,
      run_put 0 (by decide) rfl]
    rfl
  · rw [run_put 0 (by decide) hbox]
    rfl
  · rw [run_put 0 (by decide) hbox]
    rfl

end Sys2Proof.Machine

/-! The operand checks and the region check (spec/60_exceptions.md R192, R197, R198, R200; spec/20_memory.md R67): which
check fails first and what it is reported with, and from this what each command does on the reset values
(spec/70_reset_and_hazards.md R222). -/

namespace Sys2Proof.Machine
open Sys2Proof.Config

/-! ## InvalidParameter (R197) -/

section
variable {s : State} (herr : s.status.err = false)
include herr

theorem exec_detect_of_bad_frame (hframe : ¬FrameLegal s) :
    exec .detect s = .next (failedState s 5#4 0x09#8 s.ops.frameN) :=
  issue_of_failed_check (detectChecks s) 0 herr rfl rfl ((frameBad_iff s).2 hframe) (by simp)

theorem exec_spectrum_of_bad_frame (hframe : ¬FrameLegal s) :
    exec .spectrum s = .next (failedState s 5#4 0x09#8 s.ops.frameN) :=
  issue_of_failed_check (spectrumChecks s) 0 herr rfl rfl ((frameBad_iff s).2 hframe) (by simp)

theorem exec_detect_of_bad_rate (hframe : FrameLegal s) (hrate : detFsOf s = 0 ∨ 2 ^ 32 ≤ detFsOf s) :
    exec .detect s = .next (failedState s 5#4 0x0A#8 s.ops.detFs) := by
  refine issue_of_failed_check (detectChecks s) 1 herr rfl rfl ?_ ?_
  · rw [Bool.or_eq_true, beq_iff_eq, decide_eq_true_eq]
    omega
  · simpa [detectChecks] using (frameBad_eq_false_iff s).2 hframe

theorem exec_detect_of_bad_ignore (hframe : FrameLegal s) (hlo : 1 ≤ detFsOf s) (hhi : detFsOf s ≤ 2 ^ 32 - 1)
    (hignore : isFinite s.ops.ignoreHz = false ∨ flt s.ops.ignoreHz fzero = true) :
    exec .detect s = .next (failedState s 5#4 0x0B#8 s.ops.ignoreHz) := by
  refine issue_of_failed_check (detectChecks s) 2 herr rfl rfl ?_ ?_
  · rwa [Bool.or_eq_true, Bool.not_eq_true']
  · simpa [detectChecks, (frameBad_eq_false_iff s).2 hframe] using And.intro (Nat.ne_of_gt hlo) hhi

theorem exec_detect_of_bad_peak (hframe : FrameLegal s) (hlo : 1 ≤ detFsOf s) (hhi : detFsOf s ≤ 2 ^ 32 - 1)
    (hignore : isFinite s.ops.ignoreHz = true) (hnonneg : flt s.ops.ignoreHz fzero = false)
    (hpeak : isFinite s.ops.minPeak = false) :
    exec .detect s = .next (failedState s 5#4 0x0C#8 s.ops.minPeak) := by
  refine issue_of_failed_check (detectChecks s) 3 herr rfl rfl (congrArg Bool.not hpeak) ?_
  simpa [detectChecks, (frameBad_eq_false_iff s).2 hframe, hignore, hnonneg] using And.intro (Nat.ne_of_gt hlo) hhi

theorem exec_normalize_of_bad_srcmax
    (hmax : isFinite s.ops.nrmSrcmax = false ∨ fgt s.ops.nrmSrcmax fzero = false) :
    exec .normalize s = .next (failedState s 5#4 0x1C#8 s.ops.nrmSrcmax) := by
  refine issue_of_failed_check (normalizeChecks s) 0 herr rfl rfl ?_ (by simp)
  rwa [Bool.or_eq_true, Bool.not_eq_true', Bool.not_eq_true']

theorem exec_normalize_of_bad_dstmax (hfinite : isFinite s.ops.nrmSrcmax = true)
    (hpos : fgt s.ops.nrmSrcmax fzero = true) (hmax : 2 ^ 32 ≤ dstmaxOf s) :
    exec .normalize s = .next (failedState s 5#4 0x1D#8 s.ops.nrmDstmax) :=
  issue_of_failed_check (normalizeChecks s) 1 herr rfl rfl (decide_eq_true (by omega))
    (by simp [normalizeChecks, hfinite, hpos])

theorem exec_range_of_bad_min (hmin : isFinite s.ops.genMin = false) :
    exec .genRange s = .next (failedState s 5#4 0x18#8 s.ops.genMin) :=
  issue_of_failed_check (rangeChecks s) 0 herr rfl rfl (congrArg Bool.not hmin) (by simp)

theorem exec_range_of_bad_max (hmin : isFinite s.ops.genMin = true) (hmax : isFinite s.ops.genMax = false) :
    exec .genRange s = .next (failedState s 5#4 0x19#8 s.ops.genMax) :=
  issue_of_failed_check (rangeChecks s) 1 herr rfl rfl (congrArg Bool.not hmax) (by simp [rangeChecks, hmin])

theorem exec_range_of_bad_prec (hmin : isFinite s.ops.genMin = true) (hmax : isFinite s.ops.genMax = true)
    (hprec : isFinite s.ops.genPrec = false) : exec .genRange s = .next (failedState s 5#4 0x1A#8 s.ops.genPrec) :=
  issue_of_failed_check (rangeChecks s) 2 herr rfl rfl (congrArg Bool.not hprec)
    (by simp [rangeChecks, hmin, hmax])

end

/-- Settles O28: in each case the check named fails and those before it in the command's order pass. -/
theorem illegalOperandsRaiseInvalidParameter : Obligations.IllegalOperandsRaiseInvalidParameter := fun _ herr =>
  ⟨fun hframe => ⟨exec_detect_of_bad_frame herr hframe, exec_spectrum_of_bad_frame herr hframe⟩,
    exec_detect_of_bad_rate herr, exec_detect_of_bad_ignore herr, exec_detect_of_bad_peak herr,
    exec_normalize_of_bad_srcmax herr, exec_normalize_of_bad_dstmax herr, exec_range_of_bad_min herr,
    exec_range_of_bad_max herr, exec_range_of_bad_prec herr⟩

/-! ## The region check (R67, R198) -/

/-- An error that finishing SPECTRUM raises is a MalformedSample. -/
theorem finishSpectrum_code {s t : State} {e : Load} (herr : s.status.err = false) (h : finishSpectrum s e = .next t)
    (hterr : t.status.err = true) : t.status.errCode = 4#4 := by
  cases e with
  | full xs =>
    cases h
    exact absurd (herr.symm.trans hterr) Bool.false_ne_true
  | malformed xs i =>
    cases h
    rfl
  | unwritten a => cases h

/-- A command whose operands pass comes to the region check for its full result, and behind that raises nothing but
MalformedSample. -/
theorem exec_at_region_check {i : Instr} {s : State} (herr : s.status.err = false) (h : ReachesRegionCheck i s) :
    ∃ pre body, exec i s = checked (accept s) (pre ++ regionChecks s (resultWords i s)) body
      ∧ (∀ c ∈ pre, c.1 = false) ∧ ∀ t, body = .next t → t.status.err = true → t.status.errCode = 4#4 := by
  cases i with
  | bqDesignLp | bqDesignHp | genRange => exact absurd h not_false
  | bqApply =>
    obtain ⟨hcoeffs, hpos⟩ := h
    refine ⟨(applyChecks s).take 6, _, issue_of_ok s runApply herr, ?_, fun t => finish_code herr⟩
    simp only [coeffsFinite, Bool.and_eq_true] at hcoeffs
    simpa [applyChecks, hcoeffs] using hpos.ne'
  | firDecimate =>
    obtain ⟨hscale, hpos, htaps⟩ := h
    refine ⟨(decimateChecks s).take 3, _, issue_of_ok s runDecimate herr, ?_, fun t => finish_code herr⟩
    simpa [decimateChecks, (scaleSupported_iff s).2 hscale] using And.intro hpos.ne' htaps
  | detect =>
    obtain ⟨⟨hframe, hlo, hhi, hignore, hnonneg, hpeak⟩, hslen⟩ := h
    refine ⟨(detectChecks s).take 5, _, issue_of_ok s runDetect herr, ?_, fun t => finish_code herr⟩
    simpa [detectChecks, (frameBad_eq_false_iff s).2 hframe, hignore, hnonneg, hpeak] using And.intro (And.intro (Nat.ne_of_gt hlo) hhi) hslen
  | spectrum =>
    obtain ⟨hframe, hslen⟩ := h
    refine ⟨(spectrumChecks s).take 2, _, issue_of_ok s runSpectrum herr, ?_, fun t => finishSpectrum_code herr⟩
    simpa [spectrumChecks, (frameBad_eq_false_iff s).2 hframe] using hslen
  | normalize =>
    obtain ⟨⟨hfinite, hmaxpos, hdst⟩, hpos⟩ := h
    refine ⟨(normalizeChecks s).take 3, _, issue_of_ok s runNormalize herr, ?_, fun t => finish_code herr⟩
    simpa [normalizeChecks, hfinite, hmaxpos] using And.intro hdst hpos.ne'

/-- Settles O27: the region check stands behind the operand checks, its two conditions in the order source, result. -/
theorem badRegionsRaiseBadAddress : Obligations.BadRegionsRaiseBadAddress := by
  intro i s herr hreach
  obtain ⟨pre, body, hexec, hpre, hbody⟩ := exec_at_region_check herr hreach
  refine ⟨fun hsrc => ?_, fun hsrc hdst => ?_, fun hregions t ht hterr hcode => ?_⟩
  · rw [hexec, regionChecks, checked_at _ pre _ _ _ _ (decide_eq_true hsrc) hpre]
    rfl
  · have hfirst : ∀ c ∈ pre ++ [(decide (s.cfg.memWords < srcOf s + slenOf s), rejectOperand .badAddress .src s)],
        c.1 = false := by
      simpa [or_imp, forall_and] using And.intro (fun b r hc => hpre (b, r) hc) hsrc
    rw [hexec, regionChecks, List.append_cons, checked_at _ _ _ _ _ _ ?_ hfirst]
    · rfl
    · rcases hdst with hroom | ⟨hslen, hwords, hlo, hhi⟩
      · simp [hroom]
      · simp [hslen, hwords, hlo, hhi]
  · have hpass : ∀ c ∈ pre ++ regionChecks s (resultWords i s), c.1 = false := fun c hc =>
      (List.mem_append.1 hc).elim (hpre c) (checks_of_regionsOk hregions c)
    rw [hexec, checked_pass _ _ _ hpass] at ht
    rw [hbody t ht hterr] at hcode
    exact absurd hcode (by decide)

/-! ## InvalidFilterParameters (R192) -/

/-- Half of a sample rate that is not positive is not positive, so no cutoff lies below it and above zero. -/
theorem scaled_fdiv_ftwo_nonpos {a : Word} (ha : isFinite a = true) (hle : scaled a ≤ 0) : scaled (fdiv a ftwo) ≤ 0 := by
  have htwo : isFinite ftwo = true ∧ 0 < scaled ftwo := by decide +kernel
  cases hs : signBit a with
  | true =>
    have hsign := signBit_fdiv_of_pos (isNan_of_isFinite ha) htwo.1 htwo.2
    exact scaled_nonpos_of_signBit (hsign.trans hs)
  | false =>
    have hzero : magUnits a = 0 := by
      rw [scaled_of_not_signBit hs] at hle
      omega
    rw [fdiv_of_pos (isNan_of_isFinite ha) htwo.1 htwo.2, isInf_of_isFinite ha, if_neg Bool.false_ne_true, hzero,
      Nat.zero_mul, roundMag_zero, hs]
    decide

theorem cutoffOk_iff (fs fc : Word) :
    cutoffOk fs fc = true ↔ isFinite fc = true ∧ fgt fc fzero = true ∧ flt fc (fdiv fs ftwo) = true := by
  rw [cutoffOk, Bool.and_eq_true, Bool.and_eq_true, and_assoc]

theorem cutoff_bad_of_rate_nonpos {fs : Word} (fc : Word) (hfs : isFinite fs = true) (hle : fle fs fzero = true) :
    ¬(isFinite fc = true ∧ fgt fc fzero = true ∧ flt fc (fdiv fs ftwo) = true) := by
  rintro ⟨-, hpos, hlt⟩
  have h1 : (0 : Int) < scaled fc := scaled_lt_of_flt hpos
  have h2 := scaled_lt_of_flt hlt
  have h3 := scaled_fdiv_ftwo_nonpos hfs (scaled_le_of_fle hle)
  omega

section
variable {s : State} {design : Build → Word → Word → Coeffs} (herr : s.status.err = false)
include herr

theorem design_of_bad_rate (hfs : isFinite s.ops.bqFs = false) :
    issue s (runDesign design) = .next (failedState s 1#4 0x10#8 s.ops.bqFs) :=
  issue_of_failed_check (designChecks design s) 0 herr rfl rfl (congrArg Bool.not hfs) (by simp)

theorem design_of_bad_cutoff (hfs : isFinite s.ops.bqFs = true) (hbad : ¬(isFinite s.ops.bqFc = true
      ∧ fgt s.ops.bqFc fzero = true ∧ flt s.ops.bqFc (fdiv s.ops.bqFs ftwo) = true)) :
    issue s (runDesign design) = .next (failedState s 1#4 0x11#8 s.ops.bqFc) := by
  refine issue_of_failed_check (designChecks design s) 1 herr rfl rfl ?_ (by simp [designChecks, hfs])
  rwa [Bool.not_eq_true', ← Bool.not_eq_true, cutoffOk_iff]

theorem design_of_bad_coeffs (hfs : isFinite s.ops.bqFs = true) (hok : isFinite s.ops.bqFc = true
      ∧ fgt s.ops.bqFc fzero = true ∧ flt s.ops.bqFc (fdiv s.ops.bqFs ftwo) = true)
    (hbad : coeffsFinite (design s.cfg s.ops.bqFs s.ops.bqFc) = false) :
    issue s (runDesign design) = .next (failedState s 1#4 0x11#8 s.ops.bqFc) :=
  issue_of_failed_check (designChecks design s) 2 herr rfl rfl (congrArg Bool.not hbad)
    (by simp [designChecks, hfs, (cutoffOk_iff _ _).2 hok])

end

/-- The two designs are one command over the tuple they compute. -/
theorem exec_design {i : Instr} (s : State) (hi : i = .bqDesignLp ∨ i = .bqDesignHp) :
    exec i s = issue s (runDesign (if i = .bqDesignLp then lowPass else highPass)) := by
  rcases hi with rfl | rfl <;> rfl

/-- Settles O32: the checks of a design in their order; a sample rate that is not positive fails the cutoff's. -/
theorem designRejectsBadParameters : Obligations.DesignRejectsBadParameters := by
  intro i s herr hi
  rw [exec_design s hi]
  exact ⟨design_of_bad_rate herr, fun hfs hle => design_of_bad_cutoff herr hfs (cutoff_bad_of_rate_nonpos _ hfs hle),
    design_of_bad_cutoff herr, design_of_bad_coeffs herr⟩

/-- The check of one coefficient register. -/
def coeffCheck (q : Word × BitVec 8) : Bool × Reject :=
  (!isFinite q.1, { error := .invalidFilterParameters, errReg := q.2, info := q.1 })

/-- R105: the coefficient checks of BQ_APPLY stand first, in register order. -/
theorem applyChecks_eq (s : State) :
    applyChecks s = [(s.coeffs.b0, 0x12#8), (s.coeffs.b1, 0x13#8), (s.coeffs.b2, 0x14#8), (s.coeffs.a1, 0x15#8),
      (s.coeffs.a2, 0x16#8)].map coeffCheck
        ++ (slenOf s == 0, rejectOperand .insufficientSamples .slen s) :: regionChecks s (slenOf s) := rfl

/-- Settles O35: the coefficient that is not finite is the first failing check. -/
theorem bqApplyRejectsNonFiniteCoefficients : Obligations.BqApplyRejectsNonFiniteCoefficients := by
  intro s before after w n herr hsplit hbefore hw
  rw [exec, execBqApply, issue_of_ok _ _ herr, runApply, applyChecks_accept, applyChecks_eq, hsplit, List.map_append,
    List.map_cons, List.append_assoc, List.cons_append]
  refine checked_at _ _ _ _ _ _ (congrArg Bool.not hw) fun c hc => ?_
  obtain ⟨q, hq, rfl⟩ := List.mem_map.1 hc
  exact congrArg Bool.not (hbefore q hq)

/-! ## The reset values (R222) -/

/-- Settles O10: on the reset values the first failing check of every command but GEN_RANGE is known, and GEN_RANGE sweeps
from +0.0 to +0.0. -/
theorem commandsOnTheResetValues : Obligations.CommandsOnTheResetValues := by
  intro b
  have hzero : isFinite fzero = true := by decide
  have hcoeffs : coeffsFinite Coeffs.zero = true := by decide
  have hcutoff : ¬(isFinite fzero = true ∧ fgt fzero fzero = true ∧ flt fzero (fdiv fzero ftwo) = true) :=
    cutoff_bad_of_rate_nonpos fzero hzero (by decide)
  refine ⟨design_of_bad_cutoff (s := State.ofBuild b) (design := lowPass) rfl hzero hcutoff,
    design_of_bad_cutoff (s := State.ofBuild b) (design := highPass) rfl hzero hcutoff,
    exec_apply_of_empty rfl hcoeffs rfl, exec_decimate_of_unsupported rfl ?_, ?_,
    exec_normalize_of_bad_srcmax rfl (.inr ?_), fun hframe => ⟨exec_detect_of_bad_rate rfl hframe (.inl rfl),
      exec_spectrum_of_short rfl hframe ?_⟩,
    fun hframe => ⟨exec_detect_of_bad_frame rfl hframe, exec_spectrum_of_bad_frame rfl hframe⟩⟩
  · rintro (h | h | h | h | h) <;> cases h
  · have hpass : ∀ c ∈ rangeChecks (State.ofBuild b), c.1 = false := pass_range hzero hzero hzero (Nat.zero_le _)
    have hempty : sweepOf (State.ofBuild b) = .collected [] := if_neg (by change ¬fgt fzero fzero = true; decide)
    rw [exec_range rfl hpass, hempty]
    rfl
  · change fgt fzero fzero = false
    decide
  · change 0 < 0 + 1024
    decide

end Sys2Proof.Machine

/-! The ends of a series (spec/30_encoding.md R86; spec/60_exceptions.md R196, R205): what a command that has produced its
results, whole or up to a malformed sample, leaves in the registers and in data memory. -/

namespace Sys2Proof.Machine

theorem finish_finished (n dst width : Nat) (s : State) (m : Memory) (wss : List (List Word)) (h : Hidden) :
    finish n s (seriesEnd dst width 0 m wss (.finished h))
      = .next (complete n (withWork (writeWords m dst wss.flatten) h s)) := rfl

theorem finish_malformed (n dst width i : Nat) (s : State) (m : Memory) (wss : List (List Word)) (h : Hidden) :
    finish n s (seriesEnd dst width 0 m wss (.malformed i h))
      = .next (raise (rejectSample i) (BitVec.ofNat 64 wss.length) (withWork (writeWords m dst wss.flatten) h s)) := by
  rw [seriesEnd, finish, Nat.zero_add, Nat.mul_zero, Nat.add_zero]

/-- A success with the words `ws` written: DONE and the count, the words at `DST`, every other byte as before. -/
theorem completed_outcome (s : State) (n w : Nat) (ws : List Word) (h : Hidden) (hlen : ws.length = w) :
    Succeeded s (complete n (withWork (writeWords s.mem (dstOf s) ws) h (accept s))) n
      ∧ HoldsSeries (writeWords s.mem (dstOf s) ws) (dstOf s) ws
      ∧ SameOutside s.mem (writeWords s.mem (dstOf s) ws) (dstOf s) w :=
  ⟨succeeded_complete s n _ h, holds_writeWords s.mem (dstOf s) ws, same_writeWords s.mem (dstOf s) w ws hlen⟩

/-- A malformed sample after the words `ws` have been written for `kept` results. -/
theorem stopped_outcome (s : State) (i kept w : Nat) (ws : List Word) (h : Hidden) (hkept : kept < 2 ^ 64)
    (hlen : ws.length = w) :
    Failed s (raise (rejectSample i) (BitVec.ofNat 64 kept) (withWork (writeWords s.mem (dstOf s) ws) h (accept s)))
        4#4 0x03#8 (BitVec.ofNat 64 i) kept
      ∧ HoldsSeries (writeWords s.mem (dstOf s) ws) (dstOf s) ws
      ∧ SameOutside s.mem (writeWords s.mem (dstOf s) ws) (dstOf s) w :=
  ⟨failed_raise s i kept _ h hkept, holds_writeWords s.mem (dstOf s) ws, same_writeWords s.mem (dstOf s) w ws hlen⟩

/-- The elements end at once where the next one is malformed. -/
theorem elements_malformed {element : Nat → Memory → Hidden → Element} {m : Memory} {k i : Nat} {h h' : Hidden} (more : Nat)
    (hel : element k m h = .malformed i h') : elements element m (more + 1) k h = ([], .malformed i h') := by
  simp only [elements, hel]

/-- The registers that count samples hold every index of a series. -/
theorem slenOf_lt (s : State) : slenOf s < 2 ^ 64 := s.ops.slen.isLt

end Sys2Proof.Machine

/-! The biquad (spec/40_biquad.md R101 to R106): what a design writes and the ratio of its numerator coefficients, and what
BQ_APPLY leaves for a series of finite samples and for one with a malformed sample. -/

namespace Sys2Proof.Machine
open Sys2Proof.Config

/-! ## The designs -/

/-- R102: a design whose checks pass writes its whole tuple, sets DONE, and changes nothing else but `DLEN`. -/
theorem design_of_ok {s : State} {design : Build → Word → Word → Coeffs} (herr : s.status.err = false)
    (hfs : isFinite s.ops.bqFs = true) (hok : isFinite s.ops.bqFc = true ∧ fgt s.ops.bqFc fzero = true
      ∧ flt s.ops.bqFc (fdiv s.ops.bqFs ftwo) = true)
    (hcoeffs : coeffsFinite (design s.cfg s.ops.bqFs s.ops.bqFc) = true) :
    issue s (runDesign design) = .next
      { s with
          status := { s.status with done := true, incomplete := false }
          dlen := 0#64
          coeffs := design s.cfg s.ops.bqFs s.ops.bqFc } := by
  have hpass : ∀ c ∈ designChecks design s, c.1 = false := by
    simp [designChecks, hfs, (cutoffOk_iff _ _).2 hok, hcoeffs]
  rw [issue_of_ok _ _ herr, runDesign, designChecks_accept, checked_pass _ _ _ hpass]
  rfl

/-- Settles O29: the formulas of the statement are the low-pass tuple, and its checks pass. -/
theorem designLpWritesTheTuple : Obligations.DesignLpWritesTheTuple := by
  rintro s w norm b0 herr hfs hfc hpos hnyquist rfl rfl rfl hfinite
  refine design_of_ok (design := lowPass) herr hfs ⟨hfc, hpos, hnyquist⟩ ?_
  simp only [List.forall_mem_cons] at hfinite
  obtain ⟨hb0, hb1, ha1, ha2, -⟩ := hfinite
  simp only [coeffsFinite, Bool.and_eq_true]
  exact ⟨⟨⟨⟨hb0, hb1⟩, hb0⟩, ha1⟩, ha2⟩

/-- Settles O30: the formulas of the statement are the high-pass tuple, and its checks pass. -/
theorem designHpWritesTheTuple : Obligations.DesignHpWritesTheTuple := by
  rintro s w norm herr hfs hfc hpos hnyquist rfl rfl hfinite
  refine design_of_ok (design := highPass) herr hfs ⟨hfc, hpos, hnyquist⟩ ?_
  simp only [List.forall_mem_cons] at hfinite
  obtain ⟨hb0, hb1, ha1, ha2, -⟩ := hfinite
  simp only [coeffsFinite, Bool.and_eq_true]
  exact ⟨⟨⟨⟨hb0, hb1⟩, hb0⟩, ha1⟩, ha2⟩

/-! ## The ratio of the numerator coefficients -/

theorem magUnits_ftwo : magUnits ftwo = 2 * one1074 := by decide +kernel

/-- Doubling is exact where it does not overflow, so halving the double gives the number back bit for bit. -/
theorem fdiv_fmul_ftwo {b : Word} (hb : isFinite b = true) (hdouble : isFinite (fmul ftwo b) = true) :
    fdiv (fmul ftwo b) ftwo = b := by
  have htwo : isFinite ftwo = true := by decide
  have hsign : signBit ftwo = false := by decide
  have hmul : fmul ftwo b = packF64 (signBit b) (roundMag (2 * magUnits b * one1074) one1074) := by
    rw [fmul_finite htwo hb, hsign, Bool.false_bne, magUnits_ftwo, Nat.mul_right_comm]
  have hlt : 2 * magUnits b < overflowUnits := by
    rw [hmul, isFinite_packF64 _ _ (roundMag_le _ _), decide_eq_true_iff] at hdouble
    have := mt (roundMag_eq_infBits_iff _ _ one1074_pos).2 hdouble.ne
    rwa [not_le, Nat.mul_lt_mul_right one1074_pos] at this
  have hrep : Representable (2 * magUnits b) := by
    obtain ⟨m, j, hm, hmag⟩ := representable_magUnits b
    exact ⟨m, j + 1, hm, by rw [hmag, pow_succ]; ring⟩
  obtain ⟨hfin, hbits⟩ := roundMag_of_representable hrep hlt
  have hround : roundMag (2 * magUnits b * one1074) one1074 = roundMag (2 * magUnits b) 1 := by
    rw [← roundMag_exact _ one1074 one1074_pos hfin, hbits]
  have hne : magUnits ftwo ≠ 0 := by
    have := one1074_pos
    rw [magUnits_ftwo]
    omega
  have hmag : magUnits (fmul ftwo b) = 2 * magUnits b := by
    rw [hmul, magUnits_packF64 _ _ (roundMag_lt _ _), hround, hbits]
  have hhalf : 2 * magUnits b * one1074 = magOfBits (lowBits b) * (2 * one1074) := by
    rw [magUnits_eq_magOfBits]
    ring
  rw [fdiv_finite hdouble htwo hne, hmag, magUnits_ftwo, hhalf,
    roundMag_exact _ _ (Nat.mul_pos Nat.two_pos one1074_pos) ((isFinite_iff b).1 hb), hsign, Bool.bne_false, hmul,
    signBit_packF64 _ _ (roundMag_lt _ _), packF64_lowBits]

@[simp] theorem fneg_fneg (a : Word) : fneg (fneg a) = a := by
  rw [fneg_eq, signBit_fneg, lowBits_fneg, Bool.not_not, packF64_lowBits]

/-- A design that ends with DONE wrote the tuple it computed, whose coefficients are all finite. -/
theorem design_of_done {s t : State} {design : Build → Word → Word → Coeffs} (herr : s.status.err = false)
    (h : issue s (runDesign design) = .next t) (hdone : t.status.done = true) :
    t.coeffs = design s.cfg s.ops.bqFs s.ops.bqFc ∧ coeffsFinite (design s.cfg s.ops.bqFs s.ops.bqFc) = true := by
  rw [issue_of_ok _ _ herr, runDesign, designChecks_accept] at h
  have hpass := checked_of_done h hdone
  rw [checked_pass _ _ _ hpass] at h
  cases h
  refine ⟨rfl, ?_⟩
  simp only [designChecks, List.forall_mem_cons] at hpass
  obtain ⟨-, -, hcoeffs, -⟩ := hpass
  rwa [Bool.not_eq_false'] at hcoeffs

/-- Settles O31: `B1` is the double of `B0`, up to the sign for the high-pass tuple, and doubling a coefficient to a finite
one is exact. -/
theorem designedTuplesKeepTheirRatio : Obligations.DesignedTuplesKeepTheirRatio := by
  intro s t herr
  constructor
  · intro h hdone
    obtain ⟨htuple, hfinite⟩ := design_of_done (design := lowPass) herr h hdone
    simp only [coeffsFinite, Bool.and_eq_true] at hfinite
    obtain ⟨⟨⟨⟨hb0, hb1⟩, -⟩, -⟩, -⟩ := hfinite
    rw [htuple]
    exact ⟨rfl, fdiv_fmul_ftwo hb0 hb1⟩
  · intro h hdone
    obtain ⟨htuple, hfinite⟩ := design_of_done (design := highPass) herr h hdone
    simp only [coeffsFinite, Bool.and_eq_true] at hfinite
    obtain ⟨⟨⟨⟨hb0, hb1⟩, -⟩, -⟩, -⟩ := hfinite
    rw [htuple]
    refine ⟨rfl, ?_⟩
    rw [highPass, fneg_fneg]
    exact fdiv_fmul_ftwo hb0 ((isFinite_fneg _).symm.trans hb1)

/-! ## BQ_APPLY -/

/-- The histories are all that BQ_APPLY may change of the hidden state. -/
theorem hidden_of_buffers_eq {g h : Hidden} (hframe : g.frame = h.frame) (hre : g.re = h.re) (him : g.im = h.im)
    (hmag : g.mag = h.mag) : g = { h with u1 := g.u1, u2 := g.u2 } := by
  cases g
  cases hframe
  cases hre
  cases him
  cases hmag
  rfl

/-- Settles O33: past the checks the elements are the recursion over the whole series. -/
theorem bqApplyFiltersTheSeries : Obligations.BqApplyFiltersTheSeries := by
  intro s xs herr hcoeffs hpos hregions hlen hseries hfinite
  obtain ⟨g, hframe, hre, him, hmag, helements⟩ :=
    elements_biquad s.coeffs (srcOf s) s.mem xs 0 0 (freshHistory s.hidden) hseries hfinite
  have hrun : (biquadRun s.coeffs xs fzero fzero).length = slenOf s := (biquadRun_length _ _ _ _).trans hlen
  obtain ⟨hsucceeded, hholds, hsame⟩ := completed_outcome s (slenOf s) _ _ g hrun
  refine ⟨_, ?_, hsucceeded, hrun, hholds, hsame, hidden_of_buffers_eq hframe hre him hmag⟩
  rw [exec_apply herr (pass_apply hcoeffs hpos hregions),
    series_run _ (biquadElement_ok _ _ _) (by rwa [Nat.one_mul]), ← hlen, ← Nat.add_zero xs.length, helements]
  simp only [elements, List.append_nil, finish_finished, flatten_singles]
  rfl

/-- Settles O34: the elements before the malformed sample are the recursion over the finite samples in front of it. -/
theorem bqApplyKeepsPartialResults : Obligations.BqApplyKeepsPartialResults := by
  intro s xs w herr hcoeffs hlt hregions hseries hfinite hw hbad
  obtain ⟨more, hmore⟩ := Nat.exists_eq_add_of_lt hlt
  obtain ⟨g, hframe, hre, him, hmag, helements⟩ :=
    elements_biquad s.coeffs (srcOf s) s.mem xs 0 (more + 1) (freshHistory s.hidden) hseries hfinite
  have hstop : biquadElement s.coeffs (srcOf s) xs.length s.mem g = .malformed xs.length g := by
    rw [biquadElement, readSample_malformed _ _ _ w hw hbad]
  have hrun : (biquadRun s.coeffs xs fzero fzero).length = xs.length := biquadRun_length _ _ _ _
  obtain ⟨hfailed, hholds, hsame⟩ :=
    stopped_outcome s xs.length xs.length _ _ g (hlt.trans (slenOf_lt s)) hrun
  refine ⟨_, ?_, hfailed, hrun, hholds, hsame, hidden_of_buffers_eq hframe hre him hmag⟩
  rw [exec_apply herr (pass_apply hcoeffs (by omega) hregions),
    series_run _ (biquadElement_ok _ _ _) (by rwa [Nat.one_mul]), hmore, Nat.add_assoc, helements, Nat.zero_add,
    elements_malformed more hstop]
  simp only [List.append_nil, finish_malformed, flatten_singles, List.length_map, biquadRun_length]
  rfl

end Sys2Proof.Machine

/-! The FIR decimator (spec/41_fir_decimator.md R121 to R123): the convolution over finite windows, its stop at the first
malformed sample, and the copy at scale 1. -/

namespace Sys2Proof.Machine

/-! ## The two forms of an element -/

theorem decimateElement_of_ne_one {s : State} (h : scaleOf s ≠ 1) :
    decimateElement s = firElement (tapsOf s) (scaleOf s) (srcOf s) := if_neg h

theorem decimateElement_of_one {s : State} (h : scaleOf s = 1) : decimateElement s = copyElement (srcOf s) := if_pos h

theorem firCount_of_one {s : State} (h : scaleOf s = 1) : firCount s = slenOf s := if_pos h

theorem scaleOf_pos {s : State} (h : ScaleLegal s) : 0 < scaleOf s :=
  scale_pos_of_supported ((scaleSupported_iff s).2 h)

/-- Words written one by one, each computed from its index. -/
theorem flatten_map_singles {α : Type} (l : List α) (f : α → Word) : (l.map fun k => [f k]).flatten = l.map f := by
  rw [← flatten_singles (l.map f), List.map_map]
  rfl

/-- A decimation past its checks, by its elements over the memory it started with. -/
theorem exec_decimate_elements {s : State} (herr : s.status.err = false) (hscale : ScaleLegal s) (hpos : 0 < slenOf s)
    (htaps : scaleOf s ≠ 1 → (tapsOf s).length ≤ slenOf s) (hregions : RegionsOk s (firCount s)) :
    exec .firDecimate s = finish (firCount s) (accept s)
      (seriesEnd (dstOf s) 1 0 s.mem (elements (decimateElement s) s.mem (firCount s) 0 s.hidden).1
        (elements (decimateElement s) s.mem (firCount s) 0 s.hidden).2) := by
  rw [exec_decimate herr (pass_decimate hscale hpos htaps hregions),
    series_run _ (decimateElement_ok s ((scaleSupported_iff s).2 hscale)) (by rwa [Nat.one_mul])]

/-! ## The statements -/

/-- Settles O36: past the checks the elements are the convolutions of all windows. -/
theorem firDecimateConvolves : Obligations.FirDecimateConvolves := by
  intro s x herr hscale hone hpos htaps hregions hwindows
  have helements := elements_fir (tapsOf s) (scaleOf s) (srcOf s) s.mem x (firCount s) 0 0 s.hidden
    fun k _ hk => hwindows k (by omega)
  obtain ⟨hsucceeded, hholds, hsame⟩ := completed_outcome s (firCount s) _ _ s.hidden
    (firOutputs_length (tapsOf s) (scaleOf s) (firCount s) x)
  refine ⟨_, ?_, hsucceeded, hholds, hsame, rfl⟩
  rw [Nat.add_zero] at helements
  rw [exec_decimate_elements herr hscale hpos (fun _ => htaps) hregions, decimateElement_of_ne_one hone, helements]
  simp only [elements, List.append_nil, finish_finished, flatten_map_singles, firOutputs_eq]

/-- Settles O37: at scale 1 the elements are the words themselves, which no element checks. -/
theorem firScaleOneCopies : Obligations.FirScaleOneCopies := by
  intro s xs herr hone hpos hregions hlen hseries
  have hcount := firCount_of_one hone
  have helements := elements_copy (srcOf s) s.mem xs 0 s.hidden hseries
  obtain ⟨hsucceeded, hholds, hsame⟩ := completed_outcome s (slenOf s) _ xs s.hidden hlen
  refine ⟨_, ?_, hsucceeded, hholds, hsame, rfl⟩
  rw [hlen] at helements
  rw [exec_decimate_elements herr (.inl hone) hpos (absurd hone) (hcount ▸ hregions), decimateElement_of_one hone, hcount,
    helements, finish_finished, flatten_singles]

/-- Settles O40: the elements before the window with the malformed sample are its predecessors' convolutions, and in that
window the convolution stops at the sample. -/
theorem firDecimateKeepsPartialResults : Obligations.FirDecimateKeepsPartialResults := by
  intro s x k j w herr hscale hone hregions hk hwindows hlo hhi hprefix hw hbad
  obtain ⟨more, hmore⟩ := Nat.exists_eq_add_of_lt hk
  have hroom : k * scaleOf s + (tapsOf s).length < slenOf s := window_lt (scaleOf_pos hscale) (firCount_eq hone ▸ hk)
  have helements := elements_fir (tapsOf s) (scaleOf s) (srcOf s) s.mem x k 0 (more + 1) s.hidden
    fun p _ hp => hwindows p (by omega)
  have hstop : firElement (tapsOf s) (scaleOf s) (srcOf s) k s.mem s.hidden = .malformed j s.hidden := by
    rw [firElement, convolve_stops s.mem (srcOf s) (tapsOf s) x (k * scaleOf s) j fzero w hlo hhi hprefix hw hbad]
  have hk64 : k < 2 ^ 64 := (hk.trans_le (firCount_le_slenOf (scaleOf_pos hscale))).trans (slenOf_lt s)
  obtain ⟨hfailed, hholds, hsame⟩ :=
    stopped_outcome s j k _ _ s.hidden hk64 (firOutputs_length (tapsOf s) (scaleOf s) k x)
  refine ⟨_, ?_, hfailed, hholds, hsame, rfl⟩
  rw [exec_decimate_elements herr hscale (by omega) (fun _ => by omega) hregions, decimateElement_of_ne_one hone, hmore,
    Nat.add_assoc, helements, Nat.zero_add, elements_malformed more hstop]
  simp only [List.append_nil, finish_malformed, flatten_map_singles, firOutputs_eq, List.length_map, List.length_range']

end Sys2Proof.Machine

/-! Arithmetic on every operand (spec/00_scope.md R17, R19): correct rounding of the four operations, the special operands,
the ceiling, the comparisons with an infinity in its place in the order, and the conversions. -/

namespace Sys2Proof.Machine

/-! ## Correct rounding of the four operations -/

/-- A signed product whose second factor's sign is moved to the front. -/
theorem signed_mul (sa sb : Bool) (m k : Nat) :
    (if sb = true then -((if sa then -(m : Int) else m) * k) else (if sa then -(m : Int) else m) * k)
      = if (sa != sb) = true then -((m * k : Nat) : Int) else ((m * k : Nat) : Int) := by
  cases sa <;> cases sb <;> simp

section
variable {a b : Word} (ha : isFinite a = true) (hb : isFinite b = true)
include ha hb

theorem roundsTo_fadd : RoundsTo (scaled a + scaled b) 1 (fadd a b) := by
  rw [fadd_finite ha hb]
  exact roundsTo_addNumbers ha hb

theorem roundsTo_fsub : RoundsTo (scaled a - scaled b) 1 (fsub a b) := by
  have hneg : isFinite (fneg b) = true := (isFinite_fneg b).trans hb
  rw [fsub_finite ha hb, sub_eq_add_neg, ← scaled_fneg]
  exact roundsTo_addNumbers ha hneg

theorem roundsTo_fmul : RoundsTo (scaled a * scaled b) one1074 (fmul a b) := by
  rw [fmul_finite ha hb, scaled_mul]
  exact roundsTo_pack _ _ _ one1074_pos

/-- The quotient's exact value over the magnitude of `b`, the sign of `b` being the numerator's. -/
theorem roundsTo_fdiv (hne : scaled b ≠ 0) :
    RoundsTo (if signBit b = true then -(scaled a * one1074) else scaled a * one1074) (magUnits b) (fdiv a b) := by
  have hmag : magUnits b ≠ 0 := mt (scaled_eq_zero_iff b).2 hne
  have hround := roundsTo_pack (signBit a != signBit b) (magUnits a * one1074) (magUnits b) (Nat.pos_of_ne_zero hmag)
  rwa [fdiv_finite ha hb hmag, scaled, signed_mul]

theorem signBit_fmul : signBit (fmul a b) = (signBit a != signBit b) := by
  rw [fmul_finite ha hb, signBit_packF64 _ _ (roundMag_lt _ _)]

theorem signBit_fdiv (hne : scaled b ≠ 0) : signBit (fdiv a b) = (signBit a != signBit b) := by
  rw [fdiv_finite ha hb (mt (scaled_eq_zero_iff b).2 hne), signBit_packF64 _ _ (roundMag_lt _ _)]

/-- R17: the sign of an exact zero sum. -/
theorem signBit_addNumbers_of_zero (hzero : scaled a + scaled b = 0) :
    signBit (addNumbers a b) = (signBit a && signBit b) := by
  rw [addNumbers_finite ha hb, signBit_packF64 _ _ (roundMag_lt _ _), if_pos hzero]

end

/-- Settles O55: each operation packs the sign of the exact value with its rounded magnitude. -/
theorem arithmeticIsCorrectlyRounded : Obligations.ArithmeticIsCorrectlyRounded := by
  intro a b ha hb
  refine ⟨roundsTo_fadd ha hb, roundsTo_fsub ha hb, roundsTo_fmul ha hb, roundsTo_fdiv ha hb, signBit_fmul ha hb,
    signBit_fdiv ha hb, fun hzero => ?_, fun hzero => ?_⟩
  · rw [fadd_finite ha hb, signBit_addNumbers_of_zero ha hb hzero]
  · rw [fsub_finite ha hb, signBit_addNumbers_of_zero ha ((isFinite_fneg b).trans hb), signBit_fneg]
    rwa [scaled_fneg, ← sub_eq_add_neg]

/-! ## Infinities in the order -/

theorem magUnits_of_isInf {a : Word} (ha : isInf a = true) : magUnits a = magOfBits infBits := by
  rw [magUnits_eq_magOfBits, (isInf_iff a).1 ha]

/-- Every finite magnitude is below that of an infinity. -/
theorem magUnits_lt_of_isFinite {a : Word} (ha : isFinite a = true) : magUnits a < magOfBits infBits := by
  rw [magUnits_eq_magOfBits]
  exact magOfBits_strictMono ((isFinite_iff a).1 ha)

theorem scaled_of_isInf {a : Word} (ha : isInf a = true) :
    scaled a = if signBit a then -(magOfBits infBits : Int) else magOfBits infBits := by
  rw [scaled, magUnits_of_isInf ha]

theorem abs_scaled_lt_of_isFinite {a : Word} (ha : isFinite a = true) :
    -(magOfBits infBits : Int) < scaled a ∧ scaled a < magOfBits infBits := by
  have hlt := magUnits_lt_of_isFinite ha
  have habs := natAbs_scaled a
  omega

theorem isFinite_or_isInf {a : Word} (ha : isNan a = false) : isFinite a = true ∨ isInf a = true := by
  rw [← Bool.not_eq_true, isNan_iff] at ha
  rw [isFinite_iff, isInf_iff]
  omega

/-- A number strictly between two finite ones is finite. -/
theorem isFinite_of_between {a x b : Word} (ha : isFinite a = true) (hb : isFinite b = true) (hlo : flt a x = true)
    (hhi : flt x b = true) : isFinite x = true := by
  have hnum : isNan x = false := by
    simp only [flt, Bool.and_eq_true, Bool.not_eq_true'] at hhi
    exact hhi.1.1
  refine (isFinite_or_isInf hnum).resolve_right fun hinf => ?_
  have h1 := scaled_lt_of_flt hlo
  have h2 := scaled_lt_of_flt hhi
  have h3 := (abs_scaled_lt_of_isFinite ha).1
  have h4 := (abs_scaled_lt_of_isFinite hb).2
  rw [scaled_of_isInf hinf] at h1 h2
  cases hs : signBit x <;> simp only [hs, Bool.false_eq_true, if_false, if_true] at h1 h2 <;> omega

/-! ## The comparisons -/

section
variable {a b : Word}

/-- R19: every comparison with a NaN is false. -/
theorem comparisons_of_isNan (h : isNan a = true ∨ isNan b = true) :
    flt a b = false ∧ fle a b = false ∧ fgt a b = false ∧ fge a b = false ∧ feq a b = false := by
  rcases h with h | h <;> simp [flt, fle, fgt, fge, feq, h]

variable (ha : isNan a = false) (hb : isNan b = false)
include ha hb

/-- On numbers, infinities among them, each comparison is that of the scaled values. -/
theorem comparisons_eq : flt a b = decide (scaled a < scaled b) ∧ fle a b = decide (scaled a ≤ scaled b)
    ∧ fgt a b = decide (scaled b < scaled a) ∧ fge a b = decide (scaled b ≤ scaled a)
    ∧ feq a b = decide (scaled a = scaled b) := by
  simp [flt, fle, fgt, fge, feq, ha, hb, Bool.beq_eq_decide_eq]

theorem comparisons_iff : (flt a b = true ↔ scaled a < scaled b) ∧ (fle a b = true ↔ scaled a ≤ scaled b)
    ∧ (fgt a b = true ↔ scaled b < scaled a) ∧ (fge a b = true ↔ scaled b ≤ scaled a)
    ∧ (feq a b = true ↔ scaled a = scaled b) := by
  obtain ⟨hlt, hle, hgt, hge, heq⟩ := comparisons_eq ha hb
  rw [hlt, hle, hgt, hge, heq]
  exact ⟨decide_eq_true_iff, decide_eq_true_iff, decide_eq_true_iff, decide_eq_true_iff, decide_eq_true_iff⟩

end

/-- An infinity above or below every finite number. -/
theorem comparisons_finite_inf {a b : Word} (ha : isFinite a = true) (hb : isInf b = true) :
    flt a b = !signBit b ∧ fle a b = !signBit b ∧ fgt a b = signBit b ∧ fge a b = signBit b ∧ feq a b = false := by
  obtain ⟨hlt, hle, hgt, hge, heq⟩ := comparisons_eq (isNan_of_isFinite ha) (isNan_of_isInf hb)
  obtain ⟨hlo, hhi⟩ := abs_scaled_lt_of_isFinite ha
  rw [hlt, hle, hgt, hge, heq, scaled_of_isInf hb]
  generalize (magOfBits infBits : Int) = top at *
  cases signBit b <;> simp <;> omega

theorem comparisons_inf_finite {a b : Word} (ha : isInf a = true) (hb : isFinite b = true) :
    flt a b = signBit a ∧ fle a b = signBit a ∧ fgt a b = !signBit a ∧ fge a b = !signBit a ∧ feq a b = false := by
  obtain ⟨hlt, hle, hgt, hge, heq⟩ := comparisons_finite_inf hb ha
  have hcomm : feq a b = feq b a := by
    rw [feq, feq, Bool.and_comm (!isNan a), Bool.beq_comm]
  exact ⟨hgt, hge, hlt, hle, hcomm.trans heq⟩

/-- Of two infinities the signs decide. -/
theorem comparisons_inf_inf {a b : Word} (ha : isInf a = true) (hb : isInf b = true) :
    flt a b = (signBit a && !signBit b) ∧ fle a b = (signBit a || !signBit b) ∧ fgt a b = (!signBit a && signBit b)
      ∧ fge a b = (!signBit a || signBit b) ∧ feq a b = (signBit a == signBit b) := by
  obtain ⟨hlt, hle, hgt, hge, heq⟩ := comparisons_eq (isNan_of_isInf ha) (isNan_of_isInf hb)
  have hpos : (0 : Int) < magOfBits infBits := by exact_mod_cast magOfBits_strictMono (b := 0) (c := infBits) (by decide)
  rw [hlt, hle, hgt, hge, heq, scaled_of_isInf ha, scaled_of_isInf hb]
  generalize (magOfBits infBits : Int) = top at *
  cases signBit a <;> cases signBit b <;> simp <;> omega

/-! ## The ceiling and the conversions -/

/-- `ceilInt` is the least integer not below the operand. -/
theorem ceilInt_bounds (a : Word) : (ceilInt a - 1) * one1074 < scaled a ∧ scaled a ≤ ceilInt a * one1074 := by
  have hpos : (0 : Int) < one1074 := by exact_mod_cast one1074_pos
  have hle : -(scaled a) / one1074 * one1074 ≤ -(scaled a) := Int.ediv_mul_le _ hpos.ne'
  have hlt : -(scaled a) < (-(scaled a) / one1074 + 1) * one1074 := Int.lt_ediv_add_one_mul_self _ hpos
  rw [ceilInt]
  constructor <;> linarith

theorem ceilInt_near (a : Word) : |ceilInt a * one1074 - scaled a| < one1074 := by
  have hpos : (0 : Int) < one1074 := by exact_mod_cast one1074_pos
  obtain ⟨hlo, hhi⟩ := ceilInt_bounds a
  rw [abs_lt]
  constructor <;> linarith

theorem fceil_finite {a : Word} (ha : isFinite a = true) : fceil a = integralF64 (signBit a) (ceilInt a) := if_pos ha

theorem fceil_of_not_finite {a : Word} (ha : isFinite a = false) : fceil a = a := by simp [fceil, ha]

theorem scaled_fceil {a : Word} (ha : isFinite a = true) :
    isFinite (fceil a) = true ∧ scaled (fceil a) = ceilInt a * one1074 := by
  rw [fceil_finite ha]
  exact integralF64_near ha (ceilInt_near a)

/-- R19: the zero that a negative number rounds up to is -0.0. -/
theorem fceil_neg_zero {a : Word} (ha : isFinite a = true) (hzero : ceilInt a = 0) (hneg : scaled a < 0) :
    fceil a = 0x8000000000000000#64 := by
  have hs : signBit a = true := (signBit_iff a).2 (.inl hneg)
  rw [fceil_finite ha, hzero, integralF64_zero, hs, if_pos rfl]

/-- An integral number that is not negative is its own integer part. -/
theorem f2u_of_integral {a : Word} (hnonneg : 0 ≤ scaled a) (hdvd : (one1074 : Int) ∣ scaled a) :
    (f2u a : Int) * one1074 = scaled a := by
  have hmag : (magUnits a : Int) = scaled a := by
    rw [← natAbs_scaled]
    omega
  rw [f2u, Int.natCast_div, hmag, Int.ediv_mul_cancel hdvd]

/-- Settles O59: the ceiling is `ceilInt`, which is near enough to be encoded; the comparisons are those of the scaled
values. -/
theorem ceilingComparisonsAndConversions : Obligations.CeilingComparisonsAndConversions := by
  refine ⟨fun a ha => ⟨ceilInt a, ?_⟩, fun a ha => fceil_of_not_finite ha, fun a b => comparisons_of_isNan,
    fun a b ha hb => comparisons_iff (isNan_of_isFinite ha) (isNan_of_isFinite hb), fun a b => comparisons_finite_inf,
    fun a b => comparisons_inf_finite, fun a b => comparisons_inf_inf, fun n hn => ⟨isFinite_u2f hn, scaled_u2f hn⟩,
    fun a _ hnonneg hdvd _ => f2u_of_integral hnonneg hdvd, rfl, rfl, rfl, rfl, rfl⟩
  obtain ⟨hfin, hval⟩ := scaled_fceil ha
  obtain ⟨hlo, hhi⟩ := ceilInt_bounds a
  exact ⟨hfin, hval, hlo, hhi, fceil_neg_zero ha⟩

/-! ## Special operands -/

/-- R17: a NaN operand gives a NaN. -/
theorem isNan_of_nan_operand {a b : Word} (h : isNan a = true ∨ isNan b = true) :
    isNan (fadd a b) = true ∧ isNan (fsub a b) = true ∧ isNan (fmul a b) = true ∧ isNan (fdiv a b) = true := by
  rcases h with h | h <;> simp [fadd, fsub, fmul, fdiv, h, isNan_nanResult]

theorem isNan_fsqrt_of_isNan {a : Word} (ha : isNan a = true) : isNan (fsqrt a) = true := by
  rw [fsqrt, if_pos ha, isNan_nanResult]

/-- The root of a number below zero. -/
theorem isNan_fsqrt_of_neg {a : Word} (hneg : scaled a < 0) : isNan (fsqrt a) = true := by
  have hs : signBit a = true := (signBit_iff a).2 (.inl hneg)
  have hne : magUnits a ≠ 0 := mt (scaled_eq_zero_iff a).2 hneg.ne
  rw [fsqrt, if_neg hne, if_pos hs, ite_self, isNan_nanResult]

theorem fsqrt_of_pos_inf {a : Word} (ha : isInf a = true) (hs : signBit a = false) : fsqrt a = a := by
  simp [fsqrt, isNan_of_isInf ha, magUnits_ne_zero_of_isInf ha, hs, ha]

section
variable {a b : Word} (ha : isInf a = true)
include ha

/-- Two infinities. -/
theorem operations_inf_inf (hb : isInf b = true) :
    (signBit a ≠ signBit b → isNan (fadd a b) = true ∧ fsub a b = a)
      ∧ (signBit a = signBit b → isNan (fsub a b) = true ∧ fadd a b = a) ∧ isNan (fdiv a b) = true := by
  have hna := isNan_of_isInf ha
  have hnb := isNan_of_isInf hb
  refine ⟨fun hne => ?_, fun heq => ?_, ?_⟩
  · simp [fadd, fsub, addNumbers, ha, hb, hna, hnb, hne, isNan_nanResult]
  · simp [fadd, fsub, addNumbers, ha, hb, hna, hnb, heq, isNan_nanResult]
  · simp [fdiv, ha, hb, isNan_nanResult]

/-- An infinity and a finite number, added and subtracted in either order. -/
theorem addition_inf_finite (hb : isFinite b = true) :
    fadd a b = a ∧ fadd b a = a ∧ fsub a b = a ∧ fsub b a = fneg a := by
  have hna := isNan_of_isInf ha
  have hnb := isNan_of_isFinite hb
  have hib := isInf_of_isFinite hb
  simp [fadd, fsub, addNumbers, ha, hna, hnb, hib]

theorem isNan_fmul_inf_zero (hzero : scaled b = 0) : isNan (fmul a b) = true ∧ isNan (fmul b a) = true := by
  have hmag := (scaled_eq_zero_iff b).1 hzero
  simp [fmul, ha, hmag, isNan_nanResult]

/-- An infinity times a number that is not zero. -/
theorem fmul_inf (hb : isNan b = false) (hne : scaled b ≠ 0) :
    fmul a b = packF64 (signBit a != signBit b) infBits ∧ fmul b a = packF64 (signBit a != signBit b) infBits := by
  have hna := isNan_of_isInf ha
  have hmag : magUnits b ≠ 0 := mt (scaled_eq_zero_iff b).2 hne
  have hmaga := magUnits_ne_zero_of_isInf ha
  constructor
  · simp [fmul, ha, hna, hb, hmag, hmaga]
  · rw [bne_comm]
    simp [fmul, ha, hna, hb, hmag, hmaga]

/-- An infinity by a finite number, and a finite number by an infinity. -/
theorem fdiv_inf_finite (hb : isFinite b = true) :
    fdiv a b = packF64 (signBit a != signBit b) infBits ∧ fdiv b a = packF64 (signBit a != signBit b) 0 := by
  have hna := isNan_of_isInf ha
  have hnb := isNan_of_isFinite hb
  have hib := isInf_of_isFinite hb
  have hmaga := magUnits_ne_zero_of_isInf ha
  constructor
  · simp [fdiv, ha, hna, hnb, hib, hmaga]
  · rw [bne_comm]
    simp [fdiv, ha, hna, hnb, hib, hmaga]

end

theorem isNan_fdiv_zero_zero {a b : Word} (ha : scaled a = 0) (hb : scaled b = 0) : isNan (fdiv a b) = true := by
  simp [fdiv, (scaled_eq_zero_iff a).1 ha, (scaled_eq_zero_iff b).1 hb, isNan_nanResult]

theorem not_special_of_scaled_zero {b : Word} (hb : scaled b = 0) : isNan b = false ∧ isInf b = false := by
  have hmag := (scaled_eq_zero_iff b).1 hb
  have hlow : lowBits b = 0 := magOfBits_injective (by rw [← magUnits_eq_magOfBits, hmag]; decide)
  have hfin : isFinite b = true := (isFinite_iff b).2 (by rw [hlow]; decide)
  exact ⟨isNan_of_isFinite hfin, isInf_of_isFinite hfin⟩

/-- A finite number that is not zero by a zero. -/
theorem fdiv_by_zero {a b : Word} (ha : isFinite a = true) (hne : scaled a ≠ 0) (hb : scaled b = 0) :
    fdiv a b = packF64 (signBit a != signBit b) infBits := by
  obtain ⟨hnb, hib⟩ := not_special_of_scaled_zero hb
  have hmaga : magUnits a ≠ 0 := mt (scaled_eq_zero_iff a).2 hne
  simp [fdiv, isNan_of_isFinite ha, isInf_of_isFinite ha, hnb, hib, hmaga, (scaled_eq_zero_iff b).1 hb]

/-- An infinity with a given sign. -/
theorem isInf_and_signBit_packF64 {w : Word} {neg : Bool} (h : w = packF64 neg infBits) :
    isInf w = true ∧ signBit w = neg := by
  rw [h]
  exact ⟨isInf_packF64_infBits neg, signBit_packF64 _ _ infBits_lt⟩

/-- A zero with a given sign. -/
theorem scaled_and_signBit_packF64_zero {w : Word} {neg : Bool} (h : w = packF64 neg 0) :
    scaled w = 0 ∧ signBit w = neg := by
  have hsign : signBit (packF64 neg 0) = neg := signBit_packF64 _ _ (by decide)
  have hmag : magUnits (packF64 neg 0) = 0 := (magUnits_packF64 _ _ (by decide)).trans (by decide)
  rw [h]
  exact ⟨(scaled_eq_zero_iff _).2 hmag, hsign⟩

/-- Settles O57: case by case, the branch of each operation that its special operands take. -/
theorem operationsOnSpecialOperands : Obligations.OperationsOnSpecialOperands := by
  intro a b
  refine ⟨isNan_of_nan_operand, isNan_fsqrt_of_isNan, fun ha hb => ?_, isNan_fmul_inf_zero, isNan_fdiv_zero_zero,
    fun ha hne hb => isInf_and_signBit_packF64 (fdiv_by_zero ha hne hb), addition_inf_finite, fun ha hb => ?_,
    fun ha hb hne => ?_, fun ha hb => ?_, fsqrt_of_pos_inf, rfl, isNan_fsqrt_of_neg, signBit_fneg a, magUnits_fneg a⟩
  · obtain ⟨hne, heq, hdiv⟩ := operations_inf_inf ha hb
    exact ⟨fun h => (hne h).1, fun h => (heq h).1, hdiv⟩
  · obtain ⟨hne, heq, -⟩ := operations_inf_inf ha hb
    exact ⟨fun h => (heq h).2, fun h => (hne h).2⟩
  · obtain ⟨hab, hba⟩ := fmul_inf ha hb hne
    obtain ⟨hinf, hsign⟩ := isInf_and_signBit_packF64 hab
    exact ⟨hinf, hsign, isInf_and_signBit_packF64 hba⟩
  · obtain ⟨hab, hba⟩ := fdiv_inf_finite ha hb
    obtain ⟨hinf, hsign⟩ := isInf_and_signBit_packF64 hab
    exact ⟨hinf, hsign, scaled_and_signBit_packF64_zero hba⟩

end Sys2Proof.Machine

/-! The square root (spec/00_scope.md R17). In units the root of a magnitude `m` is the real root of `n = m * 2^1074`; it
lies in one step `[f * 2^k, (f + 1) * 2^k)` of the significands, and comparing `4 * n` with the square of twice the middle
tells which end is nearer. -/

namespace Sys2Proof.Machine

/-! ## The integer root -/

/-- The bits of the root, from bit `b - 1` down, keep it between its bounds. -/
theorem isqrtBits_spec (b n root : Nat) (hlo : root * root ≤ n) (hhi : n < (root + 2 ^ b) * (root + 2 ^ b)) :
    isqrtBits b n root * isqrtBits b n root ≤ n ∧ n < (isqrtBits b n root + 1) * (isqrtBits b n root + 1) := by
  induction b generalizing root with
  | zero => exact ⟨hlo, hhi⟩
  | succ b ih =>
    rw [isqrtBits]
    split
    · rename_i hset
      refine ih _ hset ?_
      rwa [Nat.add_assoc, ← two_mul, ← pow_succ']
    · rename_i hclear
      exact ih _ hlo (Nat.lt_of_not_le hclear)

theorem isqrtBits_zero_spec {b n : Nat} (hn : n < 4 ^ b) :
    isqrtBits b n 0 * isqrtBits b n 0 ≤ n ∧ n < (isqrtBits b n 0 + 1) * (isqrtBits b n 0 + 1) := by
  refine isqrtBits_spec b n 0 (Nat.zero_le _) ?_
  rwa [Nat.zero_add, ← mul_pow]

/-! ## The step of the significands that holds the root -/

/-- The exponent of the last place of the root of `n`. -/
def rootPlace (n : Nat) : Nat := n.log2 / 2 - 52

/-- The significand of the root of `n`, cut off. -/
def rootSignificand (n : Nat) : Nat := isqrtBits 53 (n / 4 ^ rootPlace n) 0

/-- Twice the middle of the step that holds the root of `n`. -/
def rootMid (n : Nat) : Nat := (2 * rootSignificand n + 1) * 2 ^ rootPlace n

/-- The number of steps nearest the root of `n`: the significand or the next one, a tie going to the even one. -/
def rootSteps (n : Nat) : Nat :=
  if rootMid n * rootMid n < 4 * n ∨ (rootMid n * rootMid n = 4 * n ∧ rootSignificand n % 2 = 1) then
    rootSignificand n + 1
  else rootSignificand n

theorem sqrtMag_eq (m : Nat) :
    sqrtMag m = rootPlace (m * one1074) * 2 ^ 52 + rootSteps (m * one1074) := rfl

theorem four_pow_eq (k : Nat) : 4 ^ k = 2 ^ k * 2 ^ k := mul_pow 2 2 k

/-- What is left of `n` above the square of its last place: 105 or 106 bits. -/
theorem scaled_radicand_bounds {n : Nat} (hn : 2 ^ 104 ≤ n) :
    4 ^ 52 ≤ n / 4 ^ rootPlace n ∧ n / 4 ^ rootPlace n < 4 ^ 53 := by
  have hne : n ≠ 0 := by omega
  have hlog : 104 ≤ n.log2 := (Nat.le_log2 hne).2 hn
  have hplace : 2 * rootPlace n + 104 ≤ n.log2 ∧ n.log2 ≤ 2 * rootPlace n + 105 := by
    unfold rootPlace
    omega
  have hfour : 4 ^ rootPlace n = 2 ^ (2 * rootPlace n) := by rw [four_pow_eq, ← pow_add, two_mul]
  rw [hfour, Nat.le_div_iff_mul_le (by positivity), Nat.div_lt_iff_lt_mul (by positivity),
    show (4 : Nat) ^ 52 = 2 ^ 104 by decide, show (4 : Nat) ^ 53 = 2 ^ 106 by decide, ← pow_add, ← pow_add]
  constructor
  · exact (Nat.pow_le_pow_right (by decide) (by omega)).trans (Nat.log2_self_le hne)
  · exact Nat.lt_log2_self.trans_le (Nat.pow_le_pow_right (by decide) (by omega))

/-- The root of `n` lies in the step of its significand, which has 53 bits. -/
theorem rootSignificand_spec {n : Nat} (hn : 2 ^ 104 ≤ n) :
    2 ^ 52 ≤ rootSignificand n ∧ rootSignificand n < 2 ^ 53
      ∧ rootSignificand n * 2 ^ rootPlace n * (rootSignificand n * 2 ^ rootPlace n) ≤ n
      ∧ n < (rootSignificand n + 1) * 2 ^ rootPlace n * ((rootSignificand n + 1) * 2 ^ rootPlace n) := by
  obtain ⟨hlo, hhi⟩ := scaled_radicand_bounds hn
  obtain ⟨hle, hlt⟩ := isqrtBits_zero_spec hhi
  change rootSignificand n * rootSignificand n ≤ _ at hle
  change _ < (rootSignificand n + 1) * (rootSignificand n + 1) at hlt
  refine ⟨?_, ?_, ?_, ?_⟩
  · have : 2 ^ 52 * 2 ^ 52 < (rootSignificand n + 1) * (rootSignificand n + 1) := by
      rw [← four_pow_eq]
      omega
    have := Nat.mul_self_lt_mul_self_iff.1 this
    omega
  · refine Nat.mul_self_lt_mul_self_iff.1 ?_
    rw [← four_pow_eq]
    omega
  · have := (Nat.le_div_iff_mul_le (by positivity)).1 hle
    rwa [four_pow_eq, mul_mul_mul_comm] at this
  · have := (Nat.div_lt_iff_lt_mul (by positivity)).1 hlt
    rwa [four_pow_eq, mul_mul_mul_comm] at this

/-- Which end of the step is the nearer one, by the square of twice the middle. -/
theorem rootSteps_cases (n : Nat) :
    (rootSteps n = rootSignificand n ∧ 4 * n ≤ rootMid n * rootMid n
        ∧ (rootMid n * rootMid n = 4 * n → rootSignificand n % 2 = 0))
      ∨ (rootSteps n = rootSignificand n + 1 ∧ rootMid n * rootMid n ≤ 4 * n
        ∧ (rootMid n * rootMid n = 4 * n → rootSignificand n % 2 = 1)) := by
  unfold rootSteps
  split <;> omega

/-! ## The nearer end in real numbers -/

/-- A real number in the step `[v, v + s)`, against any number outside its interior: the end on its side of the middle is
not farther, and as near only at the middle. -/
theorem nearest_of_gap_real {v s r y : ℝ} (hlo : v ≤ r) (hhi : r < v + s) (hy : y ≤ v ∨ v + s ≤ y) :
    (2 * r ≤ 2 * v + s → |r - v| ≤ |r - y| ∧ (|r - v| = |r - y| → y ≠ v → 2 * r = 2 * v + s))
      ∧ (2 * v + s ≤ 2 * r → |r - (v + s)| ≤ |r - y| ∧ (|r - (v + s)| = |r - y| → y ≠ v + s → 2 * r = 2 * v + s)) := by
  have hv : |r - v| = r - v := abs_of_nonneg (by linarith)
  have hs : |r - (v + s)| = v + s - r := by rw [abs_of_nonpos (by linarith)]; ring
  rcases hy with hy | hy
  · have hr : |r - y| = r - y := abs_of_nonneg (by linarith)
    rw [hv, hs, hr]
    exact ⟨fun _ => ⟨by linarith, fun heq hne => absurd (by linarith) hne⟩,
      fun _ => ⟨by linarith, fun heq _ => by linarith⟩⟩
  · have hr : |r - y| = y - r := by rw [abs_of_nonpos (by linarith)]; ring
    rw [hv, hs, hr]
    exact ⟨fun _ => ⟨by linarith, fun heq _ => by linarith⟩,
      fun _ => ⟨by linarith, fun heq hne => absurd (by linarith) hne⟩⟩

/-- A natural number compared with the real root of another. -/
theorem natCast_le_sqrt_iff (a n : Nat) : (a : ℝ) ≤ Real.sqrt n ↔ a * a ≤ n := by
  rw [Real.le_sqrt (Nat.cast_nonneg a) (Nat.cast_nonneg n), sq]
  exact_mod_cast Iff.rfl

theorem sqrt_le_natCast_iff (a n : Nat) : Real.sqrt n ≤ a ↔ n ≤ a * a := by
  rw [Real.sqrt_le_left (Nat.cast_nonneg a), sq]
  exact_mod_cast Iff.rfl

theorem two_mul_sqrt (n : Nat) : 2 * Real.sqrt n = Real.sqrt ((4 * n : Nat) : ℝ) := by
  rw [Nat.cast_mul, Real.sqrt_mul (Nat.cast_nonneg 4), show ((4 : Nat) : ℝ) = 2 ^ 2 by norm_num,
    Real.sqrt_sq (by norm_num)]

/-- No magnitude is nearer to the real root than the steps, and one as near leaves an even number of them. -/
theorem rootSteps_nearest {n : Nat} (hn : 2 ^ 104 ≤ n) {y : ℝ} (hy : y ≤ 0 ∨ ∃ z, Representable z ∧ y = (z : ℝ)) :
    |Real.sqrt n - ((rootSteps n * 2 ^ rootPlace n : Nat) : ℝ)| ≤ |Real.sqrt n - y|
      ∧ (|Real.sqrt n - ((rootSteps n * 2 ^ rootPlace n : Nat) : ℝ)| = |Real.sqrt n - y| →
          y ≠ ((rootSteps n * 2 ^ rootPlace n : Nat) : ℝ) → rootSteps n % 2 = 0) := by
  obtain ⟨hlow, -, hle, hlt⟩ := rootSignificand_spec hn
  set v : ℝ := ((rootSignificand n * 2 ^ rootPlace n : Nat) : ℝ) with hv
  set s : ℝ := ((2 ^ rootPlace n : Nat) : ℝ) with hs
  have hnext : (((rootSignificand n + 1) * 2 ^ rootPlace n : Nat) : ℝ) = v + s := by
    rw [hv, hs, ← Nat.cast_add, Nat.succ_mul]
  have hmid : (rootMid n : ℝ) = 2 * v + s := by
    rw [hv, hs, rootMid]
    push_cast
    ring
  have hgap : y ≤ v ∨ v + s ≤ y := by
    rcases hy with hy | ⟨z, hz, rfl⟩
    · exact .inl (hy.trans (Nat.cast_nonneg _))
    · rw [hv, ← hnext, Nat.cast_le, Nat.cast_le]
      exact representable_gap hz (.inr hlow)
  have htie : 2 * Real.sqrt n = 2 * v + s → rootMid n * rootMid n = 4 * n := by
    rw [← hmid, two_mul_sqrt]
    exact fun heq => le_antisymm ((natCast_le_sqrt_iff _ _).1 heq.ge) ((sqrt_le_natCast_iff _ _).1 heq.le)
  obtain ⟨hdown, hup⟩ := nearest_of_gap_real ((natCast_le_sqrt_iff _ _).2 hle)
    (hnext ▸ not_le.1 (mt (natCast_le_sqrt_iff _ _).1 (not_le.2 hlt))) hgap
  rcases rootSteps_cases n with ⟨hsteps, hcmp, heven⟩ | ⟨hsteps, hcmp, hodd⟩
  · obtain ⟨hnear, heq⟩ := hdown (by rw [two_mul_sqrt, ← hmid]; exact (sqrt_le_natCast_iff _ _).2 hcmp)
    rw [hsteps]
    exact ⟨hnear, fun h hne => heven (htie (heq h hne))⟩
  · obtain ⟨hnear, heq⟩ := hup (by rw [two_mul_sqrt, ← hmid]; exact (natCast_le_sqrt_iff _ _).2 hcmp)
    rw [hsteps, hnext]
    refine ⟨hnear, fun h hne => ?_⟩
    have := hodd (htie (heq h hne))
    omega

/-! ## The encoding of the root -/

/-- The root of a finite magnitude encodes its steps, with room above for no infinity. -/
theorem sqrtMag_spec {m : Nat} (hpos : 0 < m) (hlt : m < magOfBits infBits) :
    2 ^ 104 ≤ m * one1074 ∧ sqrtMag m < infBits
      ∧ magOfBits (sqrtMag m) = rootSteps (m * one1074) * 2 ^ rootPlace (m * one1074)
      ∧ sqrtMag m % 2 = rootSteps (m * one1074) % 2 := by
  have htop : magOfBits infBits = 2 ^ 2098 := by
    rw [show infBits = 2046 * 2 ^ 52 + 2 ^ 52 by decide, magOfBits_eq 2046 (2 ^ 52) (by decide) (.inr le_rfl), ← pow_add]
  have hlow : 2 ^ 1074 ≤ m * one1074 := Nat.le_mul_of_pos_left _ hpos
  have h104 : 2 ^ 104 ≤ m * one1074 := (Nat.pow_le_pow_right (by decide) (by decide)).trans hlow
  have hhigh : m * one1074 < 2 ^ 3172 := by
    calc m * one1074 < 2 ^ 2098 * 2 ^ 1074 := Nat.mul_lt_mul_of_pos_right (htop ▸ hlt) one1074_pos
      _ = 2 ^ 3172 := (pow_add 2 2098 1074).symm
  have hlog : (m * one1074).log2 < 3172 := (Nat.log2_lt (Nat.mul_pos hpos one1074_pos).ne').2 hhigh
  have hplace : rootPlace (m * one1074) ≤ 1533 := by
    unfold rootPlace
    omega
  obtain ⟨hbits, hbits', -, -⟩ := rootSignificand_spec h104
  have hsteps : 2 ^ 52 ≤ rootSteps (m * one1074) ∧ rootSteps (m * one1074) ≤ 2 ^ 53 := by
    rcases rootSteps_cases (m * one1074) with h | h <;> omega
  rw [sqrtMag_eq]
  refine ⟨h104, ?_, magOfBits_eq _ _ hsteps.2 (.inr hsteps.1), by omega⟩
  unfold infBits
  omega

/-- Settles O56: in units the operand's root is the real root of the radicand `magUnits a * 2^1074`. -/
theorem squareRootIsCorrectlyRounded : Obligations.SquareRootIsCorrectlyRounded := by
  intro a ha hpos
  obtain ⟨hsign, hmag⟩ := magnitude_of_pos hpos
  obtain ⟨hradicand, hfin, hval, heven⟩ := sqrtMag_spec (m := magUnits a) (by omega) (magUnits_lt_of_isFinite ha)
  have hlt : sqrtMag (magUnits a) < 2 ^ 63 := hfin.trans infBits_lt
  have hroot : fsqrt a = packF64 false (sqrtMag (magUnits a)) := by
    have hne : magUnits a ≠ 0 := by omega
    simp [fsqrt, isNan_of_isFinite ha, isInf_of_isFinite ha, hne, hsign]
  have hscaled : scaled (fsqrt a) = magOfBits (sqrtMag (magUnits a)) := by
    rw [hroot, scaled_packF64 _ _ hlt, if_neg Bool.false_ne_true]
  rw [hscaled, hroot, isFinite_packF64 _ _ hfin.le, signBit_packF64 _ _ hlt, fracField_packF64_mod_two _ _ hlt,
    heven, hval]
  refine ⟨decide_eq_true hfin, rfl, fun x hx => ?_⟩
  have hx' : (scaled x : ℝ) ≤ 0 ∨ ∃ z, Representable z ∧ (scaled x : ℝ) = (z : ℝ) := by
    cases hs : signBit x with
    | true => exact .inl (by exact_mod_cast scaled_nonpos_of_signBit hs)
    | false => exact .inr ⟨magUnits x, representable_magUnits x, by rw [scaled_of_not_signBit hs, Int.cast_natCast]⟩
  obtain ⟨hnear, htie⟩ := rootSteps_nearest hradicand hx'
  have hcast : ((magUnits a : Int) : ℝ) * one1074 = ((magUnits a * one1074 : Nat) : ℝ) := by push_cast; rfl
  rw [← hmag, hcast, Int.cast_natCast]
  exact ⟨hnear, fun heq hne => htie heq (by exact_mod_cast hne)⟩

end Sys2Proof.Machine

/-! The frequency-list generator (spec/42_freq_list.md R140 to R142): the sweep the command runs is the one of the rules,
and the list of a sweep that ends descends by integers from `GEN_MAX`. -/

namespace Sys2Proof.Machine

/-! ## What GEN_RANGE does with its sweep -/

section
variable {s : State} (herr : s.status.err = false) (hmin : isFinite s.ops.genMin = true)
  (hmax : isFinite s.ops.genMax = true) (hprec : isFinite s.ops.genPrec = true)
include herr hmin hmax hprec

theorem exec_range_of_finite (hdst : dstOf s ≤ s.cfg.memWords) :
    exec .genRange s = finishSweep (accept s)
      (sweep s.ops.genMin s.ops.genPrec (s.cfg.memWords - dstOf s) s.ops.genMax) := by
  rw [exec_range herr (pass_range hmin hmax hprec hdst), sweepOf_eq]

/-- R198: with `DST` itself beyond data memory there is room for no list. -/
theorem exec_range_of_bad_dst (hdst : s.cfg.memWords < dstOf s) :
    exec .genRange s = .next (failedState s 6#4 0x05#8 s.ops.dst) :=
  issue_of_failed_check (rangeChecks s) 3 herr rfl rfl (decide_eq_true hdst) (by simp [rangeChecks, hmin, hmax, hprec])

/-- R141, R198: a sweep that runs out of room, or whose `DST` has none. -/
theorem exec_range_of_no_room (h : dstOf s ≤ s.cfg.memWords →
      sweep s.ops.genMin s.ops.genPrec (s.cfg.memWords - dstOf s) s.ops.genMax = .noRoom) :
    exec .genRange s = .next (failedState s 6#4 0x05#8 s.ops.dst) := by
  rcases Nat.lt_or_ge s.cfg.memWords (dstOf s) with hdst | hdst
  · exact exec_range_of_bad_dst herr hmin hmax hprec hdst
  · rw [exec_range_of_finite herr hmin hmax hprec hdst, h hdst]
    rfl

/-- R141: a sweep that stands still. -/
theorem exec_range_of_no_progress (hdst : dstOf s ≤ s.cfg.memWords)
    (h : sweep s.ops.genMin s.ops.genPrec (s.cfg.memWords - dstOf s) s.ops.genMax = .noProgress) :
    exec .genRange s = .next (failedState s 5#4 0x1A#8 s.ops.genPrec) := by
  rw [exec_range_of_finite herr hmin hmax hprec hdst, h]
  rfl

end

/-- Settles O41: the list has room, so the sweep collects it. -/
theorem genRangeWritesTheSweep : Obligations.GenRangeWritesTheSweep := by
  intro s l herr hmin hmax hprec hsweep hroom
  obtain ⟨hsucceeded, hholds, hsame⟩ := completed_outcome s l.length _ l.reverse s.hidden l.length_reverse
  refine ⟨_, ?_, hsucceeded, hholds, hsame, rfl⟩
  rw [exec_range_of_finite herr hmin hmax hprec (by omega), sweep_collects hsweep _ (by omega)]
  rfl

/-- Settles O43: the room is `MEM_WORDS - DST` words, and the sweep stalls or runs out of it, whichever comes first. -/
theorem genRangeStopsWithoutProgressOrRoom : Obligations.GenRangeStopsWithoutProgressOrRoom := by
  intro s herr hmin hmax hprec
  refine ⟨fun n hstalls => ⟨fun hroom => ?_, fun hroom => ?_⟩, fun l hsweep hroom => ?_⟩
  · refine exec_range_of_no_progress herr hmin hmax hprec (by omega) ?_
    rw [sweep_stalls hstalls, if_pos (by omega)]
  · refine exec_range_of_no_room herr hmin hmax hprec fun hdst => ?_
    rw [sweep_stalls hstalls, if_neg (by omega)]
  · exact exec_range_of_no_room herr hmin hmax hprec fun hdst => sweep_full hsweep _ (by omega)

/-! ## The list of a sweep -/

/-- What the command collects is a sweep of the rules. -/
theorem sweepsTo_of_sweep {lo p : Word} {room : Nat} {f : Word} {l : List Word} (h : sweep lo p room f = .collected l) :
    SweepsTo lo p f l := by
  induction room generalizing f l with
  | zero =>
    rw [sweep] at h
    split at h <;> cases h
    rename_i hstop
    exact .stop f (Bool.eq_false_of_not_eq_true hstop)
  | succ room ih =>
    rw [sweep] at h
    split at h
    · rename_i hgt
      split at h
      · rename_i hprogress
        cases hrest : sweep lo p room (sweepStep p f) with
        | collected rest =>
          rw [hrest] at h
          cases h
          exact .step f rest hgt hprogress (ih hrest)
        | noRoom =>
          rw [hrest] at h
          cases h
        | noProgress =>
          rw [hrest] at h
          cases h
      · cases h
    · rename_i hstop
      cases h
      exact .stop f (Bool.eq_false_of_not_eq_true hstop)

theorem flt_trans {a b c : Word} (hab : flt a b = true) (hbc : flt b c = true) : flt a c = true := by
  simp only [flt, Bool.and_eq_true, Bool.not_eq_true', decide_eq_true_eq] at hab hbc ⊢
  exact ⟨⟨hab.1.1, hbc.1.2⟩, hab.2.trans hbc.2⟩

section
variable {lo p f : Word} {l : List Word}

theorem sweepsTo_nil_iff (h : SweepsTo lo p f l) : l = [] ↔ fgt f lo = false := by
  cases h with
  | stop _ hstop => exact iff_of_true rfl hstop
  | step _ rest hgt _ _ => exact iff_of_false (List.cons_ne_nil _ _) (by simp [hgt])

theorem sweepsTo_head (h : SweepsTo lo p f l) : ∀ x ∈ l.head?, x = f := by
  cases h with
  | stop _ _ => simp
  | step _ rest _ _ _ => simp

theorem sweepsTo_above (h : SweepsTo lo p f l) : ∀ x ∈ l, fgt x lo = true := by
  induction h with
  | stop _ _ => exact fun x hx => absurd hx List.not_mem_nil
  | step f rest hgt _ _ ih => exact List.forall_mem_cons.2 ⟨hgt, ih⟩

/-- Every value of the list is the first one or below it. -/
theorem sweepsTo_le (h : SweepsTo lo p f l) : ∀ x ∈ l, x = f ∨ flt x f = true := by
  induction h with
  | stop _ _ => exact fun x hx => absurd hx List.not_mem_nil
  | step f rest _ hprogress _ ih =>
    refine List.forall_mem_cons.2 ⟨.inl rfl, fun x hx => .inr ?_⟩
    rcases ih x hx with rfl | hlt
    · exact hprogress
    · exact flt_trans hlt hprogress

/-- R142: the list descends. -/
theorem sweepsTo_descends (h : SweepsTo lo p f l) : l.Pairwise fun x y => flt y x = true := by
  induction h with
  | stop _ _ => exact List.Pairwise.nil
  | step f rest _ hprogress hrest ih =>
    refine List.pairwise_cons.2 ⟨fun x hx => ?_, ih⟩
    rcases sweepsTo_le hrest x hx with rfl | hlt
    · exact hprogress
    · exact flt_trans hlt hprogress

/-- R142: behind the first value stand ceilings. -/
theorem sweepsTo_tail_ceilings (h : SweepsTo lo p f l) : ∀ x ∈ l.tail, ∃ y, x = fceil y := by
  induction h with
  | stop _ _ => exact fun x hx => absurd hx List.not_mem_nil
  | step f rest _ _ hrest ih =>
    cases hrest with
    | stop _ _ => exact fun x hx => absurd hx List.not_mem_nil
    | step _ rest' _ _ _ => exact List.forall_mem_cons.2 ⟨⟨_, rfl⟩, ih⟩

end

/-- A finite ceiling is an integer. -/
theorem one1074_dvd_scaled_fceil {y : Word} (h : isFinite (fceil y) = true) : (one1074 : Int) ∣ scaled (fceil y) := by
  cases hy : isFinite y with
  | true =>
    rw [(scaled_fceil hy).2]
    exact Dvd.intro_left _ rfl
  | false =>
    rw [fceil_of_not_finite hy, hy] at h
    exact absurd h Bool.false_ne_true

/-- R142: between finite bounds, every value behind the first is a finite integer. -/
theorem sweepsTo_tail_integral {lo p f : Word} {l : List Word} (hlo : isFinite lo = true) (hf : isFinite f = true)
    (h : SweepsTo lo p f l) : ∀ x ∈ l.tail, isFinite x = true ∧ (one1074 : Int) ∣ scaled x := by
  intro x hx
  have hmem := List.mem_of_mem_tail hx
  have hfinite : isFinite x = true := by
    rcases sweepsTo_le h x hmem with rfl | hlt
    · exact hf
    · exact isFinite_of_between hlo hf (sweepsTo_above h x hmem) hlt
  obtain ⟨y, rfl⟩ := sweepsTo_tail_ceilings h x hx
  exact ⟨hfinite, one1074_dvd_scaled_fceil hfinite⟩

/-- A GEN_RANGE that ends with DONE collected its sweep between finite bounds and wrote it in ascending order. -/
theorem range_of_done {s t : State} (herr : s.status.err = false) (h : exec .genRange s = .next t)
    (hdone : t.status.done = true) :
    isFinite s.ops.genMin = true ∧ isFinite s.ops.genMax = true ∧ ∃ l,
      SweepsTo s.ops.genMin s.ops.genPrec s.ops.genMax l ∧ l.length ≤ s.cfg.memWords
        ∧ t = complete l.length (withWork (writeWords s.mem (dstOf s) l.reverse) s.hidden (accept s)) := by
  rw [exec, execGenRange, issue_of_ok _ _ herr, runRange, rangeChecks_accept] at h
  have hpass := checked_of_done h hdone
  rw [checked_pass _ _ _ hpass] at h
  simp only [rangeChecks, List.forall_mem_cons, Bool.not_eq_false'] at hpass
  obtain ⟨hmin, hmax, -⟩ := hpass
  refine ⟨hmin, hmax, ?_⟩
  have hsweep : sweepOf (accept s) = sweep s.ops.genMin s.ops.genPrec (s.cfg.memWords - dstOf s) s.ops.genMax :=
    sweepOf_eq s
  rw [hsweep] at h
  cases hl : sweep s.ops.genMin s.ops.genPrec (s.cfg.memWords - dstOf s) s.ops.genMax with
  | collected l =>
    rw [hl] at h
    cases h
    exact ⟨l, sweepsTo_of_sweep hl, (sweep_length hl).trans (Nat.sub_le _ _), rfl⟩
  | noRoom | noProgress =>
    rw [hl] at h
    cases h
    exact absurd hdone Bool.false_ne_true

/-- Settles O42: the written list is the sweep's reversed, so each property is one of the descending list. -/
theorem genRangeListIsStrictlyIncreasing : Obligations.GenRangeListIsStrictlyIncreasing := by
  intro s t hbuild herr hexec hdone
  obtain ⟨hmin, hmax, l, hsweep, hroom, rfl⟩ := range_of_done herr hexec hdone
  refine ⟨l.reverse, ?_, holds_writeWords _ _ _, List.pairwise_reverse.2 (sweepsTo_descends hsweep), fun x hx => ?_, ?_,
    fun x hx => ?_, fun x hx => ?_⟩
  · rw [complete_dlen, toNat_of_le (hroom.trans (memWords_le hbuild)), List.length_reverse]
  · exact sweepsTo_above hsweep x (List.mem_reverse.1 hx)
  · rw [List.reverse_eq_nil_iff, sweepsTo_nil_iff hsweep]
  · rw [List.getLast?_reverse] at hx
    exact sweepsTo_head hsweep x hx
  · rw [List.dropLast_reverse, List.mem_reverse] at hx
    exact sweepsTo_tail_integral hmin hmax hsweep x hx

end Sys2Proof.Machine

/-! The normalizer (spec/44_normalizer.md R180): the results of a finite series, whole or up to a malformed sample. -/

namespace Sys2Proof.Machine

/-- R180's clamp, written out on the rescaled sample; the upper bound is the register itself. -/
theorem normalized_eq (s : State) (v : Word) :
    normalized s.ops.nrmSrcmax (dstmaxOf s) v =
      (let r := roundInt (fdiv (fmul v (u2f (dstmaxOf s + 1))) s.ops.nrmSrcmax)
      if flt r fzero = true then 0#64
      else if fgt r (u2f (dstmaxOf s)) = true then s.ops.nrmDstmax
      else BitVec.ofNat 64 (f2u r)) := by
  have hreg : BitVec.ofNat 64 (dstmaxOf s) = s.ops.nrmDstmax := by
    rw [dstmaxOf, BitVec.ofNat_toNat, BitVec.setWidth_eq]
  rw [normalized, clampInt, ← hreg]
  change BitVec.ofNat 64 (if _ then _ else if _ then _ else _) = if _ then _ else if _ then _ else _
  rw [apply_ite (BitVec.ofNat 64), apply_ite (BitVec.ofNat 64)]
  rfl

/-- Settles O52: past the checks the elements are the clamped rescaled samples. -/
theorem normalizeRescales : Obligations.NormalizeRescales := by
  intro s xs herr hlegal hpos hregions hlen hseries hfinite
  have helements := elements_normalize s.ops.nrmSrcmax (dstmaxOf s) (srcOf s) s.mem xs 0 0 s.hidden hseries hfinite
  obtain ⟨hsucceeded, hholds, hsame⟩ := completed_outcome s (slenOf s) _
    (xs.map (normalized s.ops.nrmSrcmax (dstmaxOf s))) s.hidden ((List.length_map _).trans hlen)
  refine ⟨_, ?_, hsucceeded, ?_, hsame, rfl⟩
  · rw [Nat.add_zero, hlen] at helements
    rw [exec_normalize herr (pass_normalize hlegal hpos hregions),
      series_run _ (normalizeElement_ok _ _ _ _) (by rwa [Nat.one_mul]), helements]
    simp only [elements, List.append_nil, finish_finished, flatten_singles]
  · rw [← List.map_congr_left fun v _ => normalized_eq s v]
    exact hholds

/-- Settles O53: the elements before the malformed sample are those of the finite samples in front of it. -/
theorem normalizeKeepsPartialResults : Obligations.NormalizeKeepsPartialResults := by
  intro s xs w herr hlegal hlt hregions hseries hfinite hw hbad
  obtain ⟨more, hmore⟩ := Nat.exists_eq_add_of_lt hlt
  have helements :=
    elements_normalize s.ops.nrmSrcmax (dstmaxOf s) (srcOf s) s.mem xs 0 (more + 1) s.hidden hseries hfinite
  have hstop : normalizeElement s.ops.nrmSrcmax (dstmaxOf s) (srcOf s) xs.length s.mem s.hidden
      = .malformed xs.length s.hidden := by
    rw [normalizeElement, readSample_malformed _ _ _ w hw hbad]
  obtain ⟨hfailed, hholds, hsame⟩ := stopped_outcome s xs.length xs.length _
    (xs.map (normalized s.ops.nrmSrcmax (dstmaxOf s))) s.hidden (hlt.trans (slenOf_lt s)) (List.length_map _)
  refine ⟨_, ?_, hfailed, hholds, hsame, rfl⟩
  rw [exec_normalize herr (pass_normalize hlegal (by omega) hregions),
    series_run _ (normalizeElement_ok _ _ _ _) (by rwa [Nat.one_mul]), hmore, Nat.add_assoc, helements, Nat.zero_add,
    elements_malformed more hstop]
  simp only [List.append_nil, finish_malformed, flatten_singles, List.length_map]

end Sys2Proof.Machine

/-! The spectral peak detector (spec/43_spectral_detector.md R150 to R160): the records DETECT leaves, whole or up to a
malformed sample, the one frame of SPECTRUM, what the peak search answers, and the sign of skip and magnitudes. -/

namespace Sys2Proof.Machine

/-! ## DETECT -/

/-- Where the records of `n` frames stand, word `k` of frame `fr` stands at `3 * fr + k`. -/
theorem readWord_of_detections {s : State} {m : Memory} {a n : Nat} {xs : List Word}
    (h : HoldsSeries m a (detections s n xs)) {fr k : Nat} (hfr : fr < n) (hk : k < 3) :
    readWord m (a + 3 * fr + k) = (frameRecord s (frameOf (frameNOf s) fr xs))[k]? := by
  have hword : (detections s n xs)[3 * fr + k]? = some ((frameRecord s (frameOf (frameNOf s) fr xs))[k]) := by
    rw [detections_getElem s n xs fr k hfr hk]
    exact List.getElem?_eq_getElem hk
  rw [Nat.add_assoc, h _ _ hword, ← detections_getElem s n xs fr k hfr hk, hword]

/-- Settles O44: the elements of a finite series are the records of all frames. -/
theorem detectWritesRecords : Obligations.DetectWritesRecords := by
  intro s xs herr hlegal hframe hregions hlen hseries hfinite
  obtain ⟨g, hu1, hu2, hexec⟩ := exec_detect_of_finite herr hlegal hframe hregions hlen hseries hfinite
  have hlength := detections_length s (slenOf s / frameNOf s) xs
  obtain ⟨hsucceeded, hholds, hsame⟩ := completed_outcome s (slenOf s / frameNOf s) _ _ g hlength
  exact ⟨_, hexec, hsucceeded, hholds, hlength, fun fr k hfr hk => readWord_of_detections hholds hfr hk,
    gearDiv_of_buildOk, hsame, hu1, hu2⟩

/-- A part of a series from its sample `k` on. -/
theorem holdsSeries_drop {m : Memory} {a : Nat} {xs : List Word} (h : HoldsSeries m a xs) (k : Nat) :
    HoldsSeries m (a + k) (xs.drop k) := by
  intro i w hw
  rw [List.getElem?_drop] at hw
  rw [Nat.add_assoc]
  exact h _ w hw

/-- The frame that holds the first malformed sample stops at it, the samples of it that come before being loaded. -/
theorem detectElement_malformed {s : State} {xs : List Word} {w : Word} (hpos : 0 < frameNOf s)
    (hseries : HoldsSeries s.mem (srcOf s) xs) (hfinite : AllFinite xs)
    (hw : readWord s.mem (srcOf s + xs.length) = some w) (hbad : isFinite w = false) (g : Hidden) :
    detectElement s (xs.length / frameNOf s) s.mem g
      = .malformed xs.length (withFrame (xs.drop (xs.length / frameNOf s * frameNOf s)) g) := by
  set base := xs.length / frameNOf s * frameNOf s with hbase
  have hle : base ≤ xs.length := Nat.div_mul_le_self _ _
  have hlt : xs.length < base + frameNOf s := by
    have := Nat.div_add_mod' xs.length (frameNOf s)
    have := Nat.mod_lt xs.length hpos
    omega
  have hindex : base + (xs.drop base).length = xs.length := by rw [List.length_drop]; omega
  have hload := loadFrame_malformed s.mem (srcOf s) (frameNOf s) base (xs.drop base) w (holdsSeries_drop hseries base)
    (fun x hx => hfinite x (List.mem_of_mem_drop hx)) (by rw [List.length_drop]; omega) (hindex.symm ▸ hw) hbad
  rw [detectElement, ← hbase, hload, hindex]

/-- Settles O45: the elements of the frames before the malformed sample are their records. -/
theorem detectKeepsPartialRecords : Obligations.DetectKeepsPartialRecords := by
  intro s xs w herr hlegal hregions hlt hseries hfinite hw hbad
  have hpos : 0 < frameNOf s := hlegal.1.1
  have hframes : xs.length / frameNOf s < slenOf s / frameNOf s := (Nat.div_lt_iff_lt_mul hpos).2 hlt
  obtain ⟨more, hmore⟩ := Nat.exists_eq_add_of_lt hframes
  have hslen : frameNOf s ≤ slenOf s := (Nat.div_pos_iff.1 (Nat.zero_lt_of_lt hframes)).2
  obtain ⟨g, hu1, hu2, helements⟩ := elements_detect s s.mem xs (xs.length / frameNOf s) 0 (more + 1) s.hidden hseries
    hfinite (by rw [Nat.zero_add]; exact Nat.div_mul_le_self _ _)
  have hstop := detectElement_malformed hpos hseries hfinite hw hbad g
  have hkept : xs.length / frameNOf s < 2 ^ 64 :=
    (hframes.trans_le (Nat.div_le_self _ _)).trans (slenOf_lt s)
  obtain ⟨hfailed, hholds, hsame⟩ := stopped_outcome s xs.length _ _ _
    (withFrame (xs.drop (xs.length / frameNOf s * frameNOf s)) g) hkept
    (detections_length s (xs.length / frameNOf s) xs)
  refine ⟨_, ?_, hfailed, hholds, fun fr k hfr hk => readWord_of_detections hholds hfr hk, gearDiv_of_buildOk, hsame, hu1,
    hu2⟩
  have hcount : frameCount s = xs.length / frameNOf s + (more + 1) := hmore
  rw [exec_detect herr (pass_detect hlegal hslen hregions), series_run _ (detectElement_ok s) hregions, hcount, helements,
    Nat.zero_add, elements_malformed more hstop]
  simp only [List.append_nil, finish_malformed, detections_eq, List.length_map, List.length_range']

/-! ## SPECTRUM -/

/-- Settles O50: the frame loads whole, and its magnitudes are written as they are. -/
theorem spectrumWritesRawMagnitudes : Obligations.SpectrumWritesRawMagnitudes := by
  intro s xs herr hlegal hslen hregions hlen hseries hfinite
  have hload := loadFrame_full s.mem (srcOf s) (offsetOf s) xs hseries hfinite
  rw [hlen] at hload
  obtain ⟨hsucceeded, hholds, hsame⟩ := completed_outcome s (frameNOf s) _ (rawMagnitudes s.cfg xs)
    (withSpectrum s.cfg xs (rawMagnitudes s.cfg xs) s.hidden) ((rawMagnitudes_length _ _).trans hlen)
  refine ⟨_, ?_, hsucceeded, hholds, (xfRe_length _ _).trans hlen, (xfIm_length _ _).trans hlen, hsame, rfl, rfl⟩
  rw [exec_spectrum herr (pass_spectrum hlegal hslen hregions), hload]
  rfl

/-- Settles O51: the load stops at the sample, and SPECTRUM writes nothing before its frame is loaded. -/
theorem spectrumKeepsNothingOnAMalformedSample : Obligations.SpectrumKeepsNothingOnAMalformedSample := by
  intro s xs w herr hlegal hslen hregions hlt hseries hfinite hw hbad
  have hload := loadFrame_malformed s.mem (srcOf s) (frameNOf s) (offsetOf s) xs w hseries hfinite hlt
    (by rwa [← Nat.add_assoc]) hbad
  refine ⟨_, ?_, failed_raise s (offsetOf s + xs.length) 0 s.mem (withFrame xs s.hidden) (by decide), rfl, rfl⟩
  rw [exec_spectrum herr (pass_spectrum hlegal hslen hregions), hload]
  rfl

/-! ## The peak search -/

/-- A value that a running maximum is not exceeded by is below every value above that maximum. -/
theorem fge_eq_false_of_not_fgt {x m peak : Word} (hx : fgt x peak = false) (hm : fgt m peak = true) :
    fge x m = false := by
  simp only [fgt, fge, fle, flt, Bool.and_eq_true, Bool.not_eq_true', decide_eq_true_eq, ← Bool.not_eq_true, not_and,
    not_lt, not_le] at hx hm ⊢
  obtain ⟨⟨hpeak, -⟩, hlt⟩ := hm
  exact fun ⟨_, hnum⟩ => (hx ⟨hpeak, hnum⟩).trans_lt hlt

theorem fge_of_fgt {x m : Word} (h : fgt x m = true) : fge x m = true := by
  simp only [fgt, fge, flt, fle, Bool.and_eq_true, decide_eq_true_eq] at h ⊢
  exact ⟨h.1, h.2.le⟩

theorem fgt_eq_false_of_fge {x m : Word} (h : fge x m = false) : fgt x m = false :=
  Bool.eq_false_of_not_eq_true fun hgt => by rw [fge_of_fgt hgt] at h; exact absurd h (by decide)

theorem fgt_self (x : Word) : fgt x x = false := by simp [fgt, flt]

/-- No scanned value of the list, from bin `i` on, exceeds `peak`. -/
def NoneAbove (skip : Word) (xs : List Word) (i : Nat) (peak : Word) : Prop :=
  ∀ j x, xs[j]? = some x → fge (u2f (i + j)) skip = true → fgt x peak = false

/-- `m` stands at entry `q` of the list, is scanned, exceeds `peak`, and no scanned value exceeds it or reaches it
earlier. -/
structure FirstMaximum (skip : Word) (xs : List Word) (i : Nat) (peak m : Word) (q : Nat) : Prop where
  here : xs[q]? = some m
  scanned : fge (u2f (i + q)) skip = true
  above : fgt m peak = true
  greatest : ∀ j x, xs[j]? = some x → fge (u2f (i + j)) skip = true →
    fgt x m = false ∧ (j < q → fge x m = false)

theorem noneAbove_cons {skip x peak : Word} {xs : List Word} {i : Nat}
    (hx : fge (u2f i) skip = true → fgt x peak = false) (h : NoneAbove skip xs (i + 1) peak) :
    NoneAbove skip (x :: xs) i peak := by
  intro j y hy hscan
  cases j with
  | zero =>
    cases hy
    exact hx hscan
  | succ j => exact h j y hy (by rwa [Nat.succ_add_eq_add_succ])

theorem firstMaximum_cons {skip x peak peak' m : Word} {xs : List Word} {i q : Nat}
    (hx : fge (u2f i) skip = true → fge x m = false) (habove : fgt m peak = true)
    (h : FirstMaximum skip xs (i + 1) peak' m q) : FirstMaximum skip (x :: xs) i peak m (q + 1) := by
  refine ⟨h.here, Nat.succ_add_eq_add_succ i q ▸ h.scanned, habove, fun j y hy hscan => ?_⟩
  cases j with
  | zero =>
    cases hy
    exact ⟨fgt_eq_false_of_fge (hx hscan), fun _ => hx hscan⟩
  | succ j =>
    obtain ⟨hle, hlt⟩ := h.greatest j y hy (by rwa [Nat.succ_add_eq_add_succ])
    exact ⟨hle, fun hj => hlt (Nat.lt_of_succ_lt_succ hj)⟩

/-- A scanned first entry above the running maximum that nothing behind it exceeds. -/
theorem firstMaximum_head {skip x peak : Word} {xs : List Word} {i : Nat} (hscan : fge (u2f i) skip = true)
    (habove : fgt x peak = true) (h : NoneAbove skip xs (i + 1) x) : FirstMaximum skip (x :: xs) i peak x 0 :=
  ⟨rfl, hscan, habove, fun j y hy hscany =>
    ⟨noneAbove_cons (fun _ => fgt_self x) h j y hy hscany, fun hj => absurd hj (Nat.not_lt_zero j)⟩⟩

/-- What the search answers from a running maximum `peak` at `idx`: that one, or the first of the greatest above it. -/
theorem peakFrom_cases (skip : Word) (xs : List Word) (i : Nat) (peak : Word) (idx : Nat) :
    (peakFrom skip xs i peak idx = (peak, idx) ∧ NoneAbove skip xs i peak)
      ∨ ∃ m q, peakFrom skip xs i peak idx = (m, i + q) ∧ FirstMaximum skip xs i peak m q := by
  induction xs generalizing i peak idx with
  | nil => exact .inl ⟨rfl, fun j x hx => by simp at hx⟩
  | cons x xs ih =>
    rw [peakFrom]
    split
    · rename_i htaken
      obtain ⟨hscan, hgt⟩ := Bool.and_eq_true_iff.1 htaken
      rcases ih (i + 1) x i with ⟨hans, hnone⟩ | ⟨m, q, hans, hmax⟩
      · exact .inr ⟨x, 0, hans, firstMaximum_head hscan hgt hnone⟩
      · exact .inr ⟨m, q + 1, by rw [hans, Nat.succ_add_eq_add_succ],
          firstMaximum_cons (fun _ => fge_eq_false_of_not_fgt (fgt_self x) hmax.above) (flt_trans hgt hmax.above) hmax⟩
    · rename_i hleft
      have hlow : fge (u2f i) skip = true → fgt x peak = false := fun hscan =>
        Bool.eq_false_of_not_eq_true fun hgt => hleft (Bool.and_eq_true_iff.2 ⟨hscan, hgt⟩)
      rcases ih (i + 1) peak idx with ⟨hans, hnone⟩ | ⟨m, q, hans, hmax⟩
      · exact .inl ⟨hans, noneAbove_cons hlow hnone⟩
      · exact .inr ⟨m, q + 1, by rw [hans, Nat.succ_add_eq_add_succ],
          firstMaximum_cons (fun hscan => fge_eq_false_of_not_fgt (hlow hscan) hmax.above) hmax.above hmax⟩

/-- Settles O47: the search over the bins below `floor(n / 2)` from bin 0, the running maximum being +0.0. -/
theorem peakIsTheFirstMaximum : Obligations.PeakIsTheFirstMaximum := by
  intro skip n mags hlen
  have htake : ∀ {j : Nat}, j < n / 2 → (mags.take (n / 2))[j]? = mags[j]? := fun hj => by
    rw [List.getElem?_take, if_pos hj]
  rcases peakFrom_cases skip (mags.take (n / 2)) 0 fzero 0 with ⟨hans, hnone⟩ | ⟨m, q, hans, hmax⟩
  · refine .inl ⟨hans, fun j x hj hx hscan => ?_⟩
    exact hnone j x ((htake hj).trans hx) (by rwa [Nat.zero_add])
  · rw [Nat.zero_add] at hans
    have hq : q < n / 2 := by
      have := (List.getElem?_eq_some_iff.1 hmax.here).1
      rw [List.length_take] at this
      omega
    rw [peakSearch, hans]
    refine .inr ⟨hq, (htake hq).symm.trans hmax.here, by simpa using hmax.scanned, hmax.above, fun j x hj hx hscan => ?_⟩
    exact hmax.greatest j x ((htake hj).trans hx) (by rwa [Nat.zero_add])

/-! ## Magnitudes are not negative -/

/-- A number that is not a NaN and has a clear sign bit: +0.0, a positive number or +infinity. -/
def NonNegative (w : Word) : Prop := isNan w = false ∧ signBit w = false

theorem nonNegative_packF64 {bits : Nat} (h : bits ≤ infBits) : NonNegative (packF64 false bits) :=
  ⟨isNan_packF64 _ _ h, signBit_packF64 _ _ (h.trans_lt infBits_lt)⟩

theorem nonNegative_fmul_self {a : Word} (ha : isFinite a = true) : NonNegative (fmul a a) := by
  rw [fmul_finite ha ha, bne_self_eq_false]
  exact nonNegative_packF64 (roundMag_le _ _)

theorem nonNegative_fadd {a b : Word} (ha : NonNegative a) (hb : NonNegative b) : NonNegative (fadd a b) := by
  obtain ⟨hna, hsa⟩ := ha
  obtain ⟨hnb, hsb⟩ := hb
  have hadd : fadd a b = addNumbers a b := by simp [fadd, hna, hnb, hsa, hsb]
  rw [hadd, addNumbers]
  split
  · exact ⟨hna, hsa⟩
  · split
    · exact ⟨hnb, hsb⟩
    · have hsum : ¬scaled a + scaled b < 0 := by
        rw [scaled_of_not_signBit hsa, scaled_of_not_signBit hsb]
        omega
      simp only [hsa, hsb, Bool.and_self, decide_eq_false hsum, ite_self]
      exact nonNegative_packF64 (roundMag_le _ _)

theorem nonNegative_fsqrt {a : Word} (ha : NonNegative a) : NonNegative (fsqrt a) := by
  obtain ⟨hna, hsa⟩ := ha
  rw [fsqrt, if_neg (by rw [hna]; decide)]
  split
  · exact ⟨hna, hsa⟩
  · rename_i hne
    rw [if_neg (by rw [hsa]; decide)]
    split
    · exact ⟨hna, hsa⟩
    · rename_i hinf
      have hfin := (isFinite_or_isInf hna).resolve_right hinf
      obtain ⟨-, hlt, -⟩ := sqrtMag_spec (Nat.pos_of_ne_zero hne) (magUnits_lt_of_isFinite hfin)
      exact nonNegative_packF64 hlt.le

/-- Settles O49: squares of finite numbers are not negative, and neither are their sum and its root. -/
theorem magnitudesAreNotNegative : Obligations.MagnitudesAreNotNegative := fun _ _ hre him =>
  nonNegative_fsqrt (nonNegative_fadd (nonNegative_fmul_self hre) (nonNegative_fmul_self him))

end Sys2Proof.Machine

/-! The first scanned bin (spec/43_spectral_detector.md R154): the resolution is finite and positive for every legal rate
and frame length, so `ceil(IGNORE_HZ / resolution)` is not negative and adding 1.0 reaches 1.0. -/

namespace Sys2Proof.Machine

/-! ## Rounding against a representable bound -/

theorem representable_one1074 : Representable one1074 := ⟨1, 1074, by decide, by rw [one1074, one_mul]⟩

theorem one1074_lt_overflowUnits : one1074 < overflowUnits := by
  have h := magUnits_add_one1074_lt_overflowUnits (a := fzero) (by decide)
  omega

theorem le_magOfBits_roundMag {y num : Nat} (hy : Representable y) (hlt : y < overflowUnits) (h : y ≤ num) :
    y ≤ magOfBits (roundMag num 1) := by
  obtain ⟨hfin, hmag⟩ := roundMag_of_representable hy hlt
  rw [← hmag, ← Nat.mul_one (magOfBits _)] at h
  exact hmag ▸ magOfBits_mono (roundMag_ge num 1 _ one_pos hfin.le h)

theorem magOfBits_roundMag_le {y num : Nat} (hy : Representable y) (hlt : y < overflowUnits) (h : num ≤ y) :
    magOfBits (roundMag num 1) ≤ y := by
  obtain ⟨hfin, hmag⟩ := roundMag_of_representable hy hlt
  rw [← hmag, ← Nat.mul_one (magOfBits _)] at h
  exact hmag ▸ magOfBits_mono (roundMag_le_of num 1 _ one_pos hfin.le h)

/-! ## The resolution -/

theorem two_pow_64_mul_lt_overflowUnits : 2 ^ 64 * one1074 < overflowUnits := by
  have hpow : 2 ^ 64 * one1074 ≤ 1 * 2 ^ 2044 := by
    rw [one1074, ← pow_add, one_mul]
    exact Nat.pow_le_pow_right (by decide) (by decide)
  exact hpow.trans_lt (Nat.mul_lt_mul_of_pos_right (by decide) (by positivity))

theorem two_pow_64_le_one1074 : 2 ^ 64 ≤ one1074 := by
  rw [one1074]
  exact Nat.pow_le_pow_right (by decide) (by decide)

/-- A register's number as an F64, up to one rounding. -/
theorem magUnits_u2f_bounds {n : Nat} (hpos : 1 ≤ n) (hlt : n < 2 ^ 64) :
    one1074 ≤ magUnits (u2f n) ∧ magUnits (u2f n) ≤ 2 ^ 64 * one1074 := by
  rw [u2f, magUnits_packF64 _ _ (roundMag_lt _ _)]
  exact ⟨le_magOfBits_roundMag representable_one1074 one1074_lt_overflowUnits (Nat.le_mul_of_pos_left _ hpos),
    magOfBits_roundMag_le ⟨1, 64 + 1074, by decide, by rw [one1074, ← pow_add, one_mul]⟩ two_pow_64_mul_lt_overflowUnits
      (Nat.mul_le_mul_right _ hlt.le)⟩

theorem isFinite_u2f_of_register {n : Nat} (hlt : n < 2 ^ 64) : isFinite (u2f n) = true := by
  rw [u2f, isFinite_packF64 _ _ (roundMag_le _ _), decide_eq_true_iff]
  refine lt_of_le_of_ne (roundMag_le _ _) (mt (roundMag_eq_infBits_iff _ _ one_pos).1 ?_)
  have := Nat.mul_le_mul_right one1074 hlt.le
  have := two_pow_64_mul_lt_overflowUnits
  omega

/-- A legal rate over a legal frame length neither overflows nor vanishes. -/
theorem hzPerBin_pos {s : State} (hrate : 1 ≤ detFsOf s) (hframe : 1 ≤ frameNOf s) :
    isFinite (hzPerBin s) = true ∧ 0 < scaled (hzPerBin s) := by
  have hrate64 : detFsOf s < 2 ^ 64 := s.ops.detFs.isLt
  have hframe64 : frameNOf s < 2 ^ 64 := s.ops.frameN.isLt
  obtain ⟨hnumlo, hnumhi⟩ := magUnits_u2f_bounds hrate hrate64
  obtain ⟨hdenlo, hdenhi⟩ := magUnits_u2f_bounds hframe hframe64
  have hone := one1074_pos
  have hden : 0 < magUnits (u2f (frameNOf s)) := by omega
  have hround : hzPerBin s
      = packF64 false (roundMag (magUnits (u2f (detFsOf s)) * one1074) (magUnits (u2f (frameNOf s)))) := by
    rw [hzPerBin, fdiv_finite (isFinite_u2f_of_register hrate64) (isFinite_u2f_of_register hframe64) hden.ne', signBit_u2f,
      signBit_u2f, bne_self_eq_false]
  have hfin : roundMag (magUnits (u2f (detFsOf s)) * one1074) (magUnits (u2f (frameNOf s))) < infBits := by
    refine lt_of_le_of_ne (roundMag_le _ _) (mt (roundMag_eq_infBits_iff _ _ hden).1 (not_le.2 ?_))
    exact Nat.mul_lt_mul_of_lt_of_le (hnumhi.trans_lt two_pow_64_mul_lt_overflowUnits) hdenlo hden
  have hge : 1 ≤ roundMag (magUnits (u2f (detFsOf s)) * one1074) (magUnits (u2f (frameNOf s))) := by
    refine roundMag_ge _ _ 1 hden (by decide) ?_
    have hunit : magOfBits 1 = 1 := by decide
    rw [hunit, one_mul]
    exact hdenhi.trans (Nat.mul_le_mul_right _ (two_pow_64_le_one1074.trans hnumlo))
  rw [hround, isFinite_packF64 _ _ hfin.le, scaled_packF64 _ _ (roundMag_lt _ _), if_neg Bool.false_ne_true]
  refine ⟨decide_eq_true hfin, ?_⟩
  exact_mod_cast magOfBits_strictMono (b := 0) hge

/-! ## Skip -/

/-- A number that is not below zero, -0.0 and +infinity among them, divided by a finite positive one. -/
theorem fdiv_not_neg {a b : Word} (ha : isNan a = false) (hnonneg : 0 ≤ scaled a) (hb : isFinite b = true)
    (hpos : 0 < scaled b) : isNan (fdiv a b) = false ∧ 0 ≤ scaled (fdiv a b) := by
  refine ⟨isNan_fdiv_of_pos ha hb hpos, ?_⟩
  cases hs : signBit a with
  | false =>
    rw [scaled_of_not_signBit ((signBit_fdiv_of_pos ha hb hpos).trans hs)]
    exact Int.natCast_nonneg _
  | true =>
    have hzero : scaled a = 0 := le_antisymm (scaled_nonpos_of_signBit hs) hnonneg
    rw [fdiv_of_pos ha hb hpos, (not_special_of_scaled_zero hzero).2, if_neg Bool.false_ne_true,
      (scaled_eq_zero_iff a).1 hzero, Nat.zero_mul, roundMag_zero]
    exact (scaled_and_signBit_packF64_zero rfl).1.ge

theorem fceil_not_neg {a : Word} (ha : isNan a = false) (hnonneg : 0 ≤ scaled a) :
    isNan (fceil a) = false ∧ 0 ≤ scaled (fceil a) := by
  cases hfin : isFinite a with
  | true =>
    obtain ⟨hcfin, hval⟩ := scaled_fceil hfin
    refine ⟨isNan_of_isFinite hcfin, hval ▸ ?_⟩
    exact hnonneg.trans (ceilInt_bounds a).2
  | false =>
    rw [fceil_of_not_finite hfin]
    exact ⟨ha, hnonneg⟩

theorem scaled_fone : scaled fone = one1074 := by decide +kernel

/-- Adding 1.0 to a number that is not below zero reaches 1.0. -/
theorem fadd_fone_ge {a : Word} (ha : isNan a = false) (hnonneg : 0 ≤ scaled a) :
    isNan (fadd a fone) = false ∧ (one1074 : Int) ≤ scaled (fadd a fone) := by
  have hone : isFinite fone = true := by decide
  have hpos : (0 : Int) < one1074 := by exact_mod_cast one1074_pos
  rcases isFinite_or_isInf ha with hfin | hinf
  · have hne : scaled a + scaled fone ≠ 0 := by
      rw [scaled_fone]
      omega
    have hsum : ¬scaled a + scaled fone < 0 := by
      rw [scaled_fone]
      omega
    rw [fadd_finite hfin hone, addNumbers_finite hfin hone, if_neg hne, decide_eq_false hsum,
      isNan_packF64 _ _ (roundMag_le _ _), scaled_packF64 _ _ (roundMag_lt _ _), if_neg Bool.false_ne_true]
    refine ⟨rfl, ?_⟩
    have hge : one1074 ≤ (scaled a + scaled fone).natAbs := by
      rw [scaled_fone]
      omega
    exact_mod_cast le_magOfBits_roundMag representable_one1074 one1074_lt_overflowUnits hge
  · rw [(addition_inf_finite hinf hone).1]
    refine ⟨ha, ?_⟩
    have hlt := (abs_scaled_lt_of_isFinite hone).2
    rw [scaled_fone] at hlt
    have hval := scaled_of_isInf hinf
    split at hval <;> omega

/-- Settles O48: skip is a number of at least 1.0, and bin 0 is +0.0. -/
theorem binZeroIsNeverScanned : Obligations.BinZeroIsNeverScanned := by
  rintro s ⟨⟨hframe, -⟩, hrate, -, hignore, hnonneg, -⟩
  have hnum := isNan_of_isFinite hignore
  have hscaled : 0 ≤ scaled s.ops.ignoreHz := by
    rw [← Bool.not_eq_true, flt_iff hnum isNan_fzero, scaled_fzero, not_lt] at hnonneg
    exact hnonneg
  obtain ⟨hfin, hpos⟩ := hzPerBin_pos hrate hframe
  obtain ⟨hquotient, hquotient'⟩ := fdiv_not_neg hnum hscaled hfin hpos
  obtain ⟨hceil, hceil'⟩ := fceil_not_neg hquotient hquotient'
  obtain ⟨hskip, hge⟩ := fadd_fone_ge hceil hceil'
  have hone : isNan fone = false := by decide
  obtain ⟨-, -, -, hgeone, -⟩ := comparisons_iff hskip hone
  obtain ⟨-, -, -, hgezero, -⟩ := comparisons_iff (isNan_u2f 0) hskip
  have hone' := one1074_pos
  refine ⟨hgeone.2 (scaled_fone ▸ hge), Bool.eq_false_of_not_eq_true (mt hgezero.1 ?_)⟩
  rw [scaled_u2f (by decide)]
  omega

end Sys2Proof.Machine

/-! Two runs of one command (spec/30_encoding.md R85; spec/10_state.md R44, R45; spec/60_exceptions.md R204, R206): from
states that agree on the build, on the command's operands and on its source words, a command ends the same way. That the
hidden state cannot be observed, that a register which is no operand has no influence, and that equal inputs give equal
results are three readings of this. -/

namespace Sys2Proof.Machine
open Sys2Proof.Config

/-! ## Elements from two hidden states -/

/-- Two elements with the same words, or with the same reason for there being none, and hidden states that `R` relates. -/
def SameElement (R : Hidden → Hidden → Prop) : Element → Element → Prop
  | .value g ws, .value g' ws' => R g g' ∧ ws = ws'
  | .malformed j g, .malformed j' g' => j = j' ∧ R g g'
  | .unwritten a, .unwritten a' => a = a'
  | _, _ => False

/-- The same, of how a run of elements ends. -/
def SameEnd (R : Hidden → Hidden → Prop) : ElementsEnd → ElementsEnd → Prop
  | .finished g, .finished g' => R g g'
  | .malformed j g, .malformed j' g' => j = j' ∧ R g g'
  | .unwritten a, .unwritten a' => a = a'
  | _, _ => False

/-- What an element says of its hidden state it also says together with: where `P` holds the two states are one. -/
theorem sameElement_and {R : Hidden → Hidden → Prop} {P : Prop} {e e' : Element} (h : SameElement R e e')
    (heq : P → e = e') : SameElement (fun g g' => R g g' ∧ (P → g = g')) e e' := by
  cases e <;> cases e' <;> simp only [SameElement] at h ⊢
  case value.value =>
    refine ⟨⟨h.1, fun hp => ?_⟩, h.2⟩
    cases heq hp
    rfl
  case malformed.malformed =>
    refine ⟨h.1, h.2, fun hp => ?_⟩
    cases heq hp
    rfl
  case unwritten.unwritten => exact h

theorem sameEnd_mono {R S : Hidden → Hidden → Prop} (hRS : ∀ g g', R g g' → S g g') {e e' : ElementsEnd}
    (h : SameEnd R e e') : SameEnd S e e' := by
  cases e <;> cases e' <;> simp only [SameEnd] at h ⊢
  case finished.finished => exact hRS _ _ h
  case malformed.malformed => exact ⟨h.1, hRS _ _ h.2⟩
  case unwritten.unwritten => exact h

/-- Elements that agree one by one agree as a run. -/
theorem elements_same {R : Hidden → Hidden → Prop} {element : Nat → Memory → Hidden → Element} {m m' : Memory} {count : Nat}
    (hel : ∀ k g g', k < count → R g g' → SameElement R (element k m g) (element k m' g')) (todo k : Nat) (g g' : Hidden)
    (hk : k + todo = count) (hR : R g g') :
    (elements element m' todo k g').1 = (elements element m todo k g).1
      ∧ SameEnd R (elements element m todo k g).2 (elements element m' todo k g').2 := by
  induction todo generalizing k g g' with
  | zero => exact ⟨rfl, hR⟩
  | succ todo ih =>
    have hsame := hel k g g' (by omega) hR
    simp only [elements]
    cases he : element k m g <;> cases he' : element k m' g' <;> simp only [he, he', SameElement] at hsame
    case value.value =>
      obtain ⟨hR', rfl⟩ := hsame
      obtain ⟨hwords, hend⟩ := ih (k + 1) _ _ (by omega) hR'
      exact ⟨congrArg (List.cons _) hwords, hend⟩
    case malformed.malformed => exact ⟨rfl, hsame⟩
    case unwritten.unwritten => exact ⟨rfl, hsame⟩

/-- The elements of a command over two memories that agree on its source region. `R` says what of the hidden state the
elements look at. -/
theorem elements_same_of_agree {R : Hidden → Hidden → Prop} {P : Prop} {element : Nat → Memory → Hidden → Element}
    {src len count width : Nat} (hok : ElementOk element src len count width)
    (hR : ∀ k m g g', R g g' → SameElement R (element k m g) (element k m g')) {m m' : Memory}
    (hmem : AgreeOn src len m m') {g g' : Hidden} (hstart : R g g') (hP : P → g = g') :
    (elements element m' count 0 g').1 = (elements element m count 0 g).1
      ∧ SameEnd (fun g g' => P → g = g') (elements element m count 0 g).2 (elements element m' count 0 g').2 := by
  have hel : ∀ k g g', k < count → R g g' ∧ (P → g = g') →
      SameElement (fun g g' => R g g' ∧ (P → g = g')) (element k m g) (element k m' g') := by
    rintro k g g' hk ⟨hRg, hPg⟩
    rw [← hok.agree k g' m m' hk hmem]
    exact sameElement_and (hR k m g g' hRg) fun hp => by rw [hPg hp]
  obtain ⟨hwords, hend⟩ := elements_same hel count 0 g g' (Nat.zero_add _) ⟨hstart, hP⟩
  exact ⟨hwords, sameEnd_mono (fun _ _ h => h.2) hend⟩

/-! ## What the elements of each command look at -/

/-- The histories of the biquad are the only part of the hidden state an element reads. -/
def SameHistory (g g' : Hidden) : Prop := g.u1 = g'.u1 ∧ g.u2 = g'.u2

theorem biquadElement_same (k : Coeffs) (src n : Nat) (m : Memory) (g g' : Hidden) (h : SameHistory g g') :
    SameElement SameHistory (biquadElement k src n m g) (biquadElement k src n m g') := by
  unfold biquadElement
  rw [← h.1, ← h.2]
  cases readSample m src n with
  | got x => exact ⟨⟨rfl, rfl⟩, rfl⟩
  | malformed j => exact ⟨rfl, h⟩
  | unwritten a => rfl

theorem normalizeElement_same (smax : Word) (dmax src n : Nat) (m : Memory) (g g' : Hidden) :
    SameElement (fun _ _ => True) (normalizeElement smax dmax src n m g) (normalizeElement smax dmax src n m g') := by
  unfold normalizeElement
  cases readSample m src n with
  | got x => exact ⟨trivial, rfl⟩
  | malformed j => exact ⟨rfl, trivial⟩
  | unwritten a => rfl

theorem decimateElement_same (s : State) (n : Nat) (m : Memory) (g g' : Hidden) :
    SameElement (fun _ _ => True) (decimateElement s n m g) (decimateElement s n m g') := by
  by_cases hone : scaleOf s = 1
  · rw [decimateElement_of_one hone]
    unfold copyElement
    cases readWord m (srcOf s + n) with
    | some w => exact ⟨trivial, rfl⟩
    | none => rfl
  · rw [decimateElement_of_ne_one hone]
    unfold firElement
    cases convolve m (srcOf s) (tapsOf s) (n * scaleOf s) fzero with
    | got x => exact ⟨trivial, rfl⟩
    | malformed j => exact ⟨rfl, trivial⟩
    | unwritten a => rfl

theorem detectElement_same (s : State) (n : Nat) (m : Memory) (g g' : Hidden) :
    SameElement (fun _ _ => True) (detectElement s n m g) (detectElement s n m g') := by
  unfold detectElement
  cases loadFrame m (srcOf s) (frameNOf s) (n * frameNOf s) with
  | full xs => exact ⟨trivial, rfl⟩
  | malformed xs j => exact ⟨rfl, trivial⟩
  | unwritten a => rfl

/-! ## Ends that are alike -/

/-- The two outcomes of one command from `s` and from `s'`: the same error, the same result words or the same stop. The
hidden states they leave are the same where those they start from are; the coefficients are those of each state, or the
tuple of a design. -/
inductive EndsAlike (i : Instr) (s s' : State) : Result → Result → Prop where
  | rejected (e : Reject) : EndsAlike i s s' (.next (raise e 0#64 (accept s))) (.next (raise e 0#64 (accept s')))
  | completed (n : Nat) (ws : List Word) (g g' : Hidden) (c c' : Coeffs) (hhidden : s.hidden = s'.hidden → g = g')
      (hcoeffs : (c = s.coeffs ∧ c' = s'.coeffs) ∨ ((i = .bqDesignLp ∨ i = .bqDesignHp) ∧ c' = c))
      (hlen : ws.length = elementWidth i * n) :
      EndsAlike i s s'
        (.next (complete n { accept s with mem := writeWords s.mem (dstOf s) ws, hidden := g, coeffs := c }))
        (.next (complete n { accept s' with mem := writeWords s'.mem (dstOf s) ws, hidden := g', coeffs := c' }))
  | stopped (j n : Nat) (ws : List Word) (g g' : Hidden) (hhidden : s.hidden = s'.hidden → g = g')
      (hlen : ws.length = elementWidth i * n) :
      EndsAlike i s s'
        (.next (raise (rejectSample j) (BitVec.ofNat 64 n) (withWork (writeWords s.mem (dstOf s) ws) g (accept s))))
        (.next (raise (rejectSample j) (BitVec.ofNat 64 n) (withWork (writeWords s'.mem (dstOf s) ws) g' (accept s'))))
  | refused (a : Nat) : EndsAlike i s s' (.refused (.unwrittenWord a)) (.refused (.unwrittenWord a))

section
variable {i : Instr} {s s' : State}

/-- The same checks in front of runs that end alike. -/
theorem checked_alike {checks : List (Bool × Reject)} {run run' : Result}
    (h : (∀ c ∈ checks, c.1 = false) → EndsAlike i s s' run run') :
    EndsAlike i s s' (checked (accept s) checks run) (checked (accept s') checks run') := by
  cases hfind : checks.find? Prod.fst with
  | none =>
    simp only [checked, hfind]
    exact h (by simpa [List.find?_eq_none] using hfind)
  | some c =>
    simp only [checked, hfind]
    exact .rejected c.2

/-- A series command past its checks. -/
theorem series_alike {R : Hidden → Hidden → Prop} {element : Nat → Memory → Hidden → Element} {count : Nat} {g g' : Hidden}
    (hok : ElementOk element (srcOf s) (slenOf s) count (elementWidth i)) (hregions : RegionsOk s (elementWidth i * count))
    (hR : ∀ k m g g', R g g' → SameElement R (element k m g) (element k m g'))
    (hmem : AgreeOn (srcOf s) (slenOf s) s.mem s'.mem) (hstart : R g g') (hhidden : s.hidden = s'.hidden → g = g') :
    EndsAlike i s s' (finish count (accept s) (series element (dstOf s) (elementWidth i) count 0 s.mem g))
      (finish count (accept s') (series element (dstOf s) (elementWidth i) count 0 s'.mem g')) := by
  have hrun : ∀ (m : Memory) (h : Hidden), series element (dstOf s) (elementWidth i) count 0 m h
      = seriesEnd (dstOf s) (elementWidth i) 0 m (elements element m count 0 h).1 (elements element m count 0 h).2 :=
    fun m h => series_start element (srcOf s) (slenOf s) (dstOf s) (elementWidth i) count m h hok.agree
      (fun k h m h' ws => hok.width k h m h' ws) (regions_disjoint hregions)
  obtain ⟨hwords, hend⟩ := elements_same_of_agree hok hR hmem hstart hhidden
  have hlen := flatten_length (elementWidth i) (elements element s.mem count 0 g).1
    (elements_width element s.mem (elementWidth i) count 0 g fun k g h ws => hok.width k g s.mem h ws)
  have hcount := elements_length_finished element s.mem count 0 g
  rw [hrun, hrun, hwords]
  cases he : (elements element s.mem count 0 g).2 <;> cases he' : (elements element s'.mem count 0 g').2 <;>
    simp only [he, he', SameEnd] at hend
  case finished.finished h h' =>
    rw [finish_finished, finish_finished]
    exact .completed count _ h h' s.coeffs s'.coeffs hend (.inl ⟨rfl, rfl⟩) (by rw [hlen, hcount h he])
  case malformed.malformed j h j' h' =>
    obtain ⟨rfl, hgg⟩ := hend
    rw [finish_malformed, finish_malformed]
    exact .stopped j _ _ h h' hgg hlen
  case unwritten.unwritten a a' =>
    subst hend
    exact .refused a

end

/-! ## The commands -/

/-- The states agree on what command `i` reads of them besides its source words. -/
structure SameInputs (i : Instr) (s s' : State) : Prop where
  cfg : s'.cfg = s.cfg
  operands : ∀ r ∈ operandsOf i, regGet s' r = regGet s r

theorem coeffs_eq {k k' : Coeffs} (hb0 : k'.b0 = k.b0) (hb1 : k'.b1 = k.b1) (hb2 : k'.b2 = k.b2) (ha1 : k'.a1 = k.a1)
    (ha2 : k'.a2 = k.a2) : k' = k := by
  cases k
  cases k'
  cases hb0
  cases hb1
  cases hb2
  cases ha1
  cases ha2
  rfl

section
variable {i : Instr} {s s' : State}

theorem design_alike {design : Build → Word → Word → Coeffs} (hi : i = .bqDesignLp ∨ i = .bqDesignHp)
    (h : SameInputs i s s') : EndsAlike i s s' (runDesign design (accept s)) (runDesign design (accept s')) := by
  have hops : s'.ops.bqFs = s.ops.bqFs ∧ s'.ops.bqFc = s.ops.bqFc := by
    have hreg := h.operands
    rcases hi with rfl | rfl <;>
      exact ⟨hreg .bqFs (by decide), hreg .bqFc (by decide)⟩
  have hchecks : designChecks design (accept s') = designChecks design (accept s) := by
    simp only [designChecks, rejectOperand, regGet, accept_ops, accept_cfg, hops.1, hops.2, h.cfg]
  have hwidth : elementWidth i = 0 := by rcases hi with rfl | rfl <;> rfl
  rw [runDesign, runDesign, hchecks]
  refine checked_alike fun _ => ?_
  exact .completed 0 [] s.hidden s'.hidden _ _ id
    (.inr ⟨hi, by simp only [accept_cfg, accept_ops, hops.1, hops.2, h.cfg]⟩) (by rw [hwidth]; rfl)

end

section
variable {s s' : State}

theorem apply_alike (h : SameInputs .bqApply s s') (hmem : AgreeOn (srcOf s) (slenOf s) s.mem s'.mem) :
    EndsAlike .bqApply s s' (runApply (accept s)) (runApply (accept s')) := by
  have hreg := h.operands
  simp only [operandsOf, List.forall_mem_cons, regGet] at hreg
  obtain ⟨hsrc, hslen, hdst, hb0, hb1, hb2, ha1, ha2, -⟩ := hreg
  have hk := coeffs_eq hb0 hb1 hb2 ha1 ha2
  have hsrc' : srcOf s' = srcOf s := congrArg BitVec.toNat hsrc
  have hslen' : slenOf s' = slenOf s := congrArg BitVec.toNat hslen
  have hdst' : dstOf s' = dstOf s := congrArg BitVec.toNat hdst
  have hchecks : applyChecks s' = applyChecks s := by
    simp only [applyChecks, regionChecks, rejectOperand, regGet, hsrc', hslen', hdst', hsrc, hslen, hdst, hk, h.cfg]
  rw [runApply, runApply, applyChecks_accept, applyChecks_accept, hchecks]
  refine checked_alike fun hpass => ?_
  have hregions : RegionsOk s (slenOf s) := regionsOk_of_checks fun c hc => hpass c (List.mem_append_right _ hc)
  simp only [slenOf_accept, srcOf_accept, dstOf_accept, accept_mem, accept_hidden, accept_coeffs, hsrc', hslen', hdst', hk]
  exact series_alike (i := .bqApply) (R := SameHistory) (biquadElement_ok _ _ _) (by simpa [elementWidth] using hregions)
    (biquadElement_same _ _) hmem ⟨rfl, rfl⟩ (congrArg freshHistory)

theorem decimate_alike (h : SameInputs .firDecimate s s') (hmem : AgreeOn (srcOf s) (slenOf s) s.mem s'.mem) :
    EndsAlike .firDecimate s s' (runDecimate (accept s)) (runDecimate (accept s')) := by
  have hreg := h.operands
  simp only [operandsOf, List.forall_mem_cons, regGet] at hreg
  obtain ⟨hsrc, hslen, hdst, hscale, -⟩ := hreg
  have hsrc' : srcOf s' = srcOf s := congrArg BitVec.toNat hsrc
  have hslen' : slenOf s' = slenOf s := congrArg BitVec.toNat hslen
  have hdst' : dstOf s' = dstOf s := congrArg BitVec.toNat hdst
  have hscale' : scaleOf s' = scaleOf s := congrArg BitVec.toNat hscale
  have htaps : tapsOf s' = tapsOf s := by rw [tapsOf, tapsOf, hscale', h.cfg]
  have hcount : firCount s' = firCount s := by rw [firCount, firCount, hscale', hslen', htaps]
  have hchecks : decimateChecks s' = decimateChecks s := by
    simp only [decimateChecks, regionChecks, rejectOperand, regGet, hsrc', hslen', hdst', hscale', htaps, hcount, hsrc,
      hslen, hdst, hscale, h.cfg]
  have helement : decimateElement (accept s') = decimateElement (accept s) := by
    change decimateElement s' = decimateElement s
    simp only [decimateElement, hscale', hsrc', htaps]
  rw [runDecimate, runDecimate, decimateChecks_accept, decimateChecks_accept, hchecks, helement]
  refine checked_alike fun hpass => ?_
  have hregions : RegionsOk s (firCount s) := regionsOk_of_checks fun c hc => hpass c (List.mem_append_right _ hc)
  change EndsAlike _ _ _ (finish (firCount s) _ (series _ (dstOf s) 1 _ 0 s.mem s.hidden))
    (finish (firCount s') _ (series _ (dstOf s') 1 (firCount s') 0 s'.mem s'.hidden))
  rw [hcount, hdst']
  exact series_alike (i := .firDecimate) (R := fun _ _ => True)
    (decimateElement_ok s (scaleSupported_of_decimateChecks hpass)) (by simpa [elementWidth] using hregions)
    (fun k m g g' _ => decimateElement_same s k m g g') hmem trivial id

theorem range_alike (h : SameInputs .genRange s s') :
    EndsAlike .genRange s s' (runRange (accept s)) (runRange (accept s')) := by
  have hreg := h.operands
  simp only [operandsOf, List.forall_mem_cons, regGet] at hreg
  obtain ⟨hdst, hmin, hmax, hprec, -⟩ := hreg
  have hdst' : dstOf s' = dstOf s := congrArg BitVec.toNat hdst
  have hchecks : rangeChecks s' = rangeChecks s := by
    simp only [rangeChecks, rejectOperand, regGet, hdst', hdst, hmin, hmax, hprec, h.cfg]
  have hsweep : sweepOf (accept s') = sweepOf (accept s) := by
    change sweepOf s' = sweepOf s
    simp only [sweepOf, hdst', hmin, hmax, hprec, h.cfg]
  rw [runRange, runRange, rangeChecks_accept, rangeChecks_accept, hchecks, hsweep]
  refine checked_alike fun _ => ?_
  cases sweepOf (accept s) with
  | collected l =>
    rw [finishSweep, finishSweep, dstOf_accept, dstOf_accept, hdst']
    exact .completed l.length l.reverse s.hidden s'.hidden s.coeffs s'.coeffs id (.inl ⟨rfl, rfl⟩)
      (by rw [List.length_reverse, elementWidth, Nat.one_mul])
  | noRoom =>
    have hreject : rejectOperand .badAddress .dst (accept s') = rejectOperand .badAddress .dst (accept s) := by
      simp only [rejectOperand, regGet, accept_ops, hdst]
    rw [finishSweep, finishSweep, hreject]
    exact .rejected _
  | noProgress =>
    have hreject : rejectOperand .invalidParameter .genPrec (accept s')
        = rejectOperand .invalidParameter .genPrec (accept s) := by
      simp only [rejectOperand, regGet, accept_ops, hprec]
    rw [finishSweep, finishSweep, hreject]
    exact .rejected _

theorem detect_alike (h : SameInputs .detect s s') (hmem : AgreeOn (srcOf s) (slenOf s) s.mem s'.mem) :
    EndsAlike .detect s s' (runDetect (accept s)) (runDetect (accept s')) := by
  have hreg := h.operands
  simp only [operandsOf, List.forall_mem_cons, regGet] at hreg
  obtain ⟨hsrc, hslen, hdst, hframe, hrate, hignore, hpeak, -⟩ := hreg
  have hsrc' : srcOf s' = srcOf s := congrArg BitVec.toNat hsrc
  have hslen' : slenOf s' = slenOf s := congrArg BitVec.toNat hslen
  have hdst' : dstOf s' = dstOf s := congrArg BitVec.toNat hdst
  have hframe' : frameNOf s' = frameNOf s := congrArg BitVec.toNat hframe
  have hrate' : detFsOf s' = detFsOf s := congrArg BitVec.toNat hrate
  have hcount : frameCount s' = frameCount s := by rw [frameCount, frameCount, hslen', hframe']
  have hchecks : detectChecks s' = detectChecks s := by
    simp only [detectChecks, frameBad, regionChecks, rejectOperand, regGet, hsrc', hslen', hdst', hframe', hrate', hcount,
      hsrc, hslen, hdst, hframe, hrate, hignore, hpeak, h.cfg]
  have helement : detectElement (accept s') = detectElement (accept s) := by
    change detectElement s' = detectElement s
    funext fr m g
    simp only [detectElement, detection, skipOf, resolutionOf, hsrc', hframe', hrate', hignore, hpeak, h.cfg]
  rw [runDetect, runDetect, detectChecks_accept, detectChecks_accept, hchecks, helement]
  refine checked_alike fun hpass => ?_
  have hregions : RegionsOk s (3 * frameCount s) := regionsOk_of_checks fun c hc => hpass c (List.mem_append_right _ hc)
  change EndsAlike _ _ _ (finish (frameCount s) _ (series _ (dstOf s) 3 _ 0 s.mem s.hidden))
    (finish (frameCount s') _ (series _ (dstOf s') 3 (frameCount s') 0 s'.mem s'.hidden))
  rw [hcount, hdst']
  exact series_alike (i := .detect) (R := fun _ _ => True) (detectElement_ok s) hregions
    (fun k m g g' _ => detectElement_same s k m g g') hmem trivial id

theorem spectrum_alike (h : SameInputs .spectrum s s') (hmem : AgreeOn (srcOf s) (slenOf s) s.mem s'.mem) :
    EndsAlike .spectrum s s' (runSpectrum (accept s)) (runSpectrum (accept s')) := by
  have hreg := h.operands
  simp only [operandsOf, List.forall_mem_cons, regGet] at hreg
  obtain ⟨hsrc, hslen, hdst, hoffset, hframe, -⟩ := hreg
  have hsrc' : srcOf s' = srcOf s := congrArg BitVec.toNat hsrc
  have hslen' : slenOf s' = slenOf s := congrArg BitVec.toNat hslen
  have hdst' : dstOf s' = dstOf s := congrArg BitVec.toNat hdst
  have hoffset' : offsetOf s' = offsetOf s := congrArg BitVec.toNat hoffset
  have hframe' : frameNOf s' = frameNOf s := congrArg BitVec.toNat hframe
  have hchecks : spectrumChecks s' = spectrumChecks s := by
    simp only [spectrumChecks, frameBad, regionChecks, rejectOperand, regGet, hsrc', hslen', hdst', hoffset', hframe',
      hsrc, hslen, hdst, hframe, h.cfg]
  rw [runSpectrum, runSpectrum, spectrumChecks_accept, spectrumChecks_accept, hchecks]
  refine checked_alike fun hpass => ?_
  simp only [spectrumChecks, List.forall_mem_cons, List.cons_append, decide_eq_false_iff_not, not_lt] at hpass
  obtain ⟨-, hinside, -⟩ := hpass
  have hload : loadFrame s'.mem (srcOf s) (frameNOf s) (offsetOf s) = loadFrame s.mem (srcOf s) (frameNOf s) (offsetOf s) :=
    loadFrame_congr _ _ _ _ _ fun j hj => (hmem (offsetOf s + j) (by omega)).symm
  simp only [accept_mem, srcOf_accept, frameNOf_accept, offsetOf_accept, hsrc', hframe', hoffset', hload]
  rcases loadFrame_cases s.mem (srcOf s) (frameNOf s) (offsetOf s) with ⟨xs, hx, hlen⟩ | ⟨xs, j, hx, -⟩ | ⟨a, hx, -⟩ <;>
    rw [hx]
  · simp only [finishSpectrum, accept_mem, accept_cfg, accept_hidden, dstOf_accept, frameNOf_accept, hdst', hframe', h.cfg]
    exact .completed (frameNOf s) _ _ _ s.coeffs s'.coeffs (congrArg _) (.inl ⟨rfl, rfl⟩)
      (by rw [rawMagnitudes_length, hlen, elementWidth, Nat.one_mul])
  · exact .stopped j 0 [] _ _ (congrArg (withFrame xs)) rfl
  · exact .refused a

theorem normalize_alike (h : SameInputs .normalize s s') (hmem : AgreeOn (srcOf s) (slenOf s) s.mem s'.mem) :
    EndsAlike .normalize s s' (runNormalize (accept s)) (runNormalize (accept s')) := by
  have hreg := h.operands
  simp only [operandsOf, List.forall_mem_cons, regGet] at hreg
  obtain ⟨hsrc, hslen, hdst, hsmax, hdmax, -⟩ := hreg
  have hsrc' : srcOf s' = srcOf s := congrArg BitVec.toNat hsrc
  have hslen' : slenOf s' = slenOf s := congrArg BitVec.toNat hslen
  have hdst' : dstOf s' = dstOf s := congrArg BitVec.toNat hdst
  have hdmax' : dstmaxOf s' = dstmaxOf s := congrArg BitVec.toNat hdmax
  have hchecks : normalizeChecks s' = normalizeChecks s := by
    simp only [normalizeChecks, regionChecks, rejectOperand, regGet, hsrc', hslen', hdst', hdmax', hsrc, hslen, hdst,
      hsmax, hdmax, h.cfg]
  rw [runNormalize, runNormalize, normalizeChecks_accept, normalizeChecks_accept, hchecks]
  refine checked_alike fun hpass => ?_
  have hregions : RegionsOk s (slenOf s) := regionsOk_of_checks fun c hc => hpass c (List.mem_append_right _ hc)
  simp only [slenOf_accept, srcOf_accept, dstOf_accept, dstmaxOf_accept, accept_mem, accept_hidden, accept_ops, hsrc',
    hslen', hdst', hdmax', hsmax]
  exact series_alike (i := .normalize) (R := fun _ _ => True) (normalizeElement_ok _ _ _ _)
    (by simpa [elementWidth] using hregions) (fun k m g g' _ => normalizeElement_same _ _ _ k m g g') hmem trivial id

/-- Commands on the same inputs end alike. -/
theorem exec_alike {i : Instr} (herr : s.status.err = false) (herr' : s'.status.err = false) (h : SameInputs i s s')
    (hmem : AgreeOn (srcOf s) (slenOf s) s.mem s'.mem) : EndsAlike i s s' (exec i s) (exec i s') := by
  cases i <;>
    simp only [exec, execBqDesignLp, execBqDesignHp, execBqApply, execFirDecimate, execGenRange, execDetect, execSpectrum,
      execNormalize, issue_of_ok _ _ herr, issue_of_ok _ _ herr']
  case bqDesignLp => exact design_alike (.inl rfl) h
  case bqDesignHp => exact design_alike (.inr rfl) h
  case bqApply => exact apply_alike h hmem
  case firDecimate => exact decimate_alike h hmem
  case genRange => exact range_alike h
  case detect => exact detect_alike h hmem
  case spectrum => exact spectrum_alike h hmem
  case normalize => exact normalize_alike h hmem

end

end Sys2Proof.Machine

/-! Three readings of `exec_alike`: equal inputs give equal results (spec/60_exceptions.md R206), a register that is no
operand has no influence (spec/30_encoding.md R85), and the hidden state is not observable (spec/10_state.md R44, R45). -/

namespace Sys2Proof.Machine

/-! ## Equal inputs -/

theorem operand_or_coeff_of_mem_operandsOf (i : Instr) :
    ∀ r ∈ operandsOf i, isOperandReg r = true ∨ isCoeffReg r = true := by
  cases i <;> decide

theorem sameInputs_of_eq {i : Instr} {s s' : State} (hops : s'.ops = s.ops) (hcoeffs : s'.coeffs = s.coeffs)
    (hcfg : s'.cfg = s.cfg) : SameInputs i s s' :=
  ⟨hcfg, fun r hr => (operand_or_coeff_of_mem_operandsOf i r hr).elim
    (fun hop => regGet_eq_of_ops_eq hop hops) fun hco => regGet_eq_of_coeffs_eq hco hcoeffs⟩

/-- The words of one result, written to two memories, read the same in both. -/
theorem readWord_writeWords_eq (m m' : Memory) (a : Nat) {n width k : Nat} {ws : List Word} (hlen : ws.length = width * n)
    (hk : k < width * (BitVec.ofNat 64 n).toNat) :
    readWord (writeWords m' a ws) (a + k) = readWord (writeWords m a ws) (a + k) := by
  have hin : k < ws.length := by
    rw [hlen]
    exact hk.trans_le (Nat.mul_le_mul_left _ (BitVec.toNat_ofNat n 64 ▸ Nat.mod_le _ _))
  rw [readWord_writeWords_in m' a k ws hin, readWord_writeWords_in m a k ws hin]

/-- Settles O25: the two runs end alike, and every field compared is a function of what they share. -/
theorem equalInputsGiveEqualResults : Obligations.EqualInputsGiveEqualResults := by
  intro i s s' herr herr' hops hcoeffs hcfg hmem
  have halike := exec_alike herr herr' (sameInputs_of_eq (i := i) hops hcoeffs hcfg) fun k hk => (hmem k hk).symm
  generalize exec i s = x, exec i s' = y at halike ⊢
  cases halike with
  | rejected e => exact ⟨rfl, hcoeffs, rfl, rfl, rfl, fun _ => ⟨rfl, rfl, rfl⟩, fun k hk => absurd hk (by simp)⟩
  | completed n ws g g' c c' _ hc hlen =>
    have hcc : c' = c := by
      rcases hc with ⟨rfl, rfl⟩ | ⟨-, hc⟩
      · exact hcoeffs
      · exact hc
    have hnoerr : (complete n { accept s with mem := writeWords s.mem (dstOf s) ws, hidden := g, coeffs := c }).status.err
        = false := herr
    exact ⟨rfl, hcc, rfl, herr'.trans herr.symm, rfl, fun h => absurd (hnoerr.symm.trans h) Bool.false_ne_true,
      fun k hk => readWord_writeWords_eq _ _ _ hlen hk⟩
  | stopped j n ws g g' _ hlen =>
    exact ⟨rfl, hcoeffs, rfl, rfl, rfl, fun _ => ⟨rfl, rfl, rfl⟩, fun k hk => readWord_writeWords_eq _ _ _ hlen hk⟩
  | refused a => rfl

/-! ## A register that is no operand -/

section
variable {r : Reg} (v : Word) (s : State)

theorem regPut_status (hr : isOperandReg r = true ∨ isCoeffReg r = true) : (regPut r v s).status = s.status := by
  rw [regPut_eq_of_operand_or_coeff v s hr]

/-- A host write of an operand or a coefficient register and an error that is raised after it can change places. -/
theorem raise_accept_regPut (hr : isOperandReg r = true ∨ isCoeffReg r = true) (e : Reject) (kept : Word) (m : Memory)
    (g : Hidden) : raise e kept (withWork m g (accept (regPut r v s))) = regPut r v (raise e kept (withWork m g (accept s))) := by
  cases r with
  | cmd | status | errinfo | dlen => exact absurd hr (by decide)
  | _ => rfl

/-- The same of a success that writes no coefficient. -/
theorem complete_accept_regPut (hr : isOperandReg r = true ∨ isCoeffReg r = true) (n : Nat) (m : Memory) (g : Hidden) :
    complete n (withWork m g (accept (regPut r v s))) = regPut r v (complete n (withWork m g (accept s))) := by
  cases r with
  | cmd | status | errinfo | dlen => exact absurd hr (by decide)
  | _ => rfl

theorem regPut_with_coeffs (hr : isOperandReg r = true) (c : Coeffs) :
    { regPut r v s with coeffs := c } = regPut r v { s with coeffs := c } := by
  cases r with
  | cmd | status | errinfo | dlen | b0 | b1 | b2 | a1 | a2 => exact absurd hr (by decide)
  | _ => rfl

end

theorem sameInputs_regPut {i : Instr} {r : Reg} (v : Word) (s : State) (hr : isOperandReg r = true ∨ isCoeffReg r = true)
    (hnot : r ∉ operandsOf i) : SameInputs i s (regPut r v s) :=
  ⟨regPut_cfg r v s, fun _ hq => regGet_regPut_other v s hr fun heq => hnot (heq ▸ hq)⟩

/-- Settles O24: the run with the other value in the register ends alike, and the register write can be moved behind each
end. -/
theorem commandsReadOnlyTheirOperands : Obligations.CommandsReadOnlyTheirOperands := by
  intro i s r v hreg hnot
  have hr : isOperandReg r = true ∨ isCoeffReg r = true := hreg.imp_right And.left
  cases herr : s.status.err with
  | true => rw [exec_of_err i s herr, exec_of_err i _ (by rw [regPut_status v s hr, herr]), mapNext]
  | false =>
    have halike := exec_alike herr (by rw [regPut_status v s hr, herr]) (sameInputs_regPut v s hr hnot)
      (by rw [regPut_mem]; exact agreeOn_refl _ _ _)
    generalize exec i s = x, exec i (regPut r v s) = y at halike ⊢
    cases halike with
    | rejected e =>
      have hmove := raise_accept_regPut v s hr e 0#64 (regPut r v s).mem (regPut r v s).hidden
      exact congrArg Host.Outcome.next (hmove.trans (by rw [regPut_mem, regPut_hidden]; rfl))
    | completed n ws g g' c c' hg hc hlen =>
      obtain rfl := hg (regPut_hidden r v s).symm
      rw [regPut_mem]
      refine congrArg Host.Outcome.next ?_
      rcases hc with ⟨rfl, rfl⟩ | ⟨hi, rfl⟩
      · exact complete_accept_regPut v s hr n _ g
      · have hop : isOperandReg r = true := hreg.resolve_right fun h => hi.elim h.2.1 h.2.2
        have hmove := complete_accept_regPut v { s with coeffs := c' } hr n (writeWords s.mem (dstOf s) ws) g
        rw [← regPut_with_coeffs v s hop c'] at hmove
        exact hmove
    | stopped j n ws g g' hg hlen =>
      obtain rfl := hg (regPut_hidden r v s).symm
      rw [regPut_mem]
      exact congrArg Host.Outcome.next (raise_accept_regPut v s hr _ _ _ g)
    | refused a => rfl

/-! ## The hidden state -/

section
variable (s : State) (g : Hidden)

theorem regGet_with_hidden (q : Reg) : regGet { s with hidden := g } q = regGet s q := by
  cases q <;> rfl

theorem regRead_with_hidden (n : BitVec 5) : regRead { s with hidden := g } n = regRead s n := by
  cases hn : regOfNumber n with
  | none => rw [regRead_of_unnamed _ hn, regRead_of_unnamed _ hn]
  | some q =>
    obtain rfl := eq_regNumber_of_regOfNumber hn
    rw [regRead_regNumber, regRead_regNumber, regGet_with_hidden]

theorem writeStatus_with_hidden (v : Word) : writeStatus v { s with hidden := g } = { writeStatus v s with hidden := g } := by
  unfold writeStatus writeStatusErr writeStatusDone
  split_ifs <;> rfl

theorem regPut_with_hidden (r : Reg) (v : Word) : regPut r v { s with hidden := g } = { regPut r v s with hidden := g } := by
  cases r with
  | status => exact writeStatus_with_hidden s g v
  | _ => rfl

theorem exec_with_hidden (i : Instr) : SameOutcome SameButHidden (exec i s) (exec i { s with hidden := g }) := by
  cases herr : s.status.err with
  | true =>
    rw [exec_of_err i s herr, exec_of_err i { s with hidden := g } herr]
    exact rfl
  | false =>
    have halike := exec_alike (i := i) (s' := { s with hidden := g }) herr herr
      ⟨rfl, fun q _ => regGet_with_hidden s g q⟩ (agreeOn_refl _ _ _)
    generalize exec i s = x, exec i { s with hidden := g } = y at halike ⊢
    cases halike with
    | rejected e => exact rfl
    | completed n ws h h' c c' _ hc _ =>
      have hcc : c' = c := by
        rcases hc with ⟨rfl, rfl⟩ | ⟨-, hc⟩
        · rfl
        · exact hc
      rw [hcc]
      exact rfl
    | stopped j n ws h h' _ _ => exact rfl
    | refused a => rfl

theorem command_with_hidden (w : Word) : SameOutcome SameButHidden (command w s) (command w { s with hidden := g }) := by
  cases hdecode : decode w with
  | some i =>
    rw [command_of_decode_some _ hdecode, command_of_decode_some _ hdecode]
    exact exec_with_hidden s g i
  | none =>
    rw [command_of_decode_none _ hdecode, command_of_decode_none _ hdecode, illegalCommand, illegalCommand, issue, issue]
    split_ifs <;> exact rfl

theorem regWrite_with_hidden (n : BitVec 5) (v : Word) :
    SameOutcome SameButHidden (perform (.regWrite n v) s) (perform (.regWrite n v) { s with hidden := g }) := by
  cases hn : regOfNumber n with
  | none =>
    rw [perform_regWrite_of_unnamed _ _ hn, perform_regWrite_of_unnamed _ _ hn]
    exact rfl
  | some r =>
    obtain rfl := eq_regNumber_of_regOfNumber hn
    by_cases hr : r = .cmd
    · subst hr
      exact command_with_hidden s g v
    · rw [perform_regWrite_of_ne_cmd v _ hr, perform_regWrite_of_ne_cmd v _ hr, regPut_with_hidden s g r v]
      exact rfl

/-- The hidden state has no influence on what a transaction does to the rest. -/
theorem perform_with_hidden (op : HostOp) :
    SameOutcome SameButHidden (perform op s) (perform op { s with hidden := g }) := by
  cases op with
  | regRead n => exact congrArg (fun w => { s with hidden := g, readData := some w }) (regRead_with_hidden s g n)
  | regWrite n v => exact regWrite_with_hidden s g n v
  | memRead a =>
    simp only [perform, hostMemRead]
    split_ifs
    · cases readWord s.mem a <;> exact rfl
    · exact rfl
  | memWrite a v =>
    simp only [perform, hostMemWrite]
    split_ifs <;> exact rfl
  | rst => exact rfl

end

/-- Settles O23: a step with a transaction pending performs it, and no transaction lets the hidden state out. -/
theorem hiddenStateIsNotObservable : Obligations.HiddenStateIsNotObservable := by
  intro s t h
  rw [h]
  generalize t.hidden = g
  by_cases hbox : s.inbox = []
  · rw [step_of_empty hbox, step_of_empty (s := { s with hidden := g }) hbox]
    exact rfl
  · obtain ⟨op, rest, hbox⟩ := List.exists_cons_of_ne_nil hbox
    rw [step_pending hbox, step_pending (s := { s with hidden := g }) hbox]
    exact perform_with_hidden { s with inbox := rest } g op

end Sys2Proof.Machine
